-- ==== Sys2Proof/Word.lean ====
section
/-! DEFINITION. The data the block moves: bytes, the command and response words, the two-valued logical level and
the vector of eight levels (00_scope.md R3, R4; 30_encoding.md R39, R40). -/

namespace Sys2Proof

/-- A byte, 0..255, bit 7 the most significant (00_scope.md section 5.1). -/
abbrev Byte := BitVec 8

/-- A command word, `OP[23:16] A[15:8] B[7:0]` (R39). -/
abbrev CmdWord := BitVec 24

/-- A response word, `STATUS[15:8] VALUE[7:0]` (R40). -/
abbrev RespWord := BitVec 16

/-- A Logical Level: two values and no third (R3). -/
inductive Level where
  | low
  | high
deriving DecidableEq, Repr, Inhabited

/-- A level vector: exactly eight levels, element 0 the first one transferred or produced (00_scope.md section 5.1). -/
abbrev LevelVec := Vector Level 8

end Sys2Proof
end

