-- ==== Sys2Proof/Syntax.lean ====
section
/-! DEFINITION. The commands: one constructor for each of the sixteen rows of spec/opcode_table.json, with the typed
operands of the abstract form (30_encoding.md R38), and the reasons a command is refused (60_exceptions.md R104). -/

namespace Sys2Proof

/-- One command, in the abstract form of R38. A slot operand is a number the `A` field must hold (`Instr.wellFormed`);
a level operand is already the level (R41), a level-vector operand the vector. `OW.SEARCH` interprets neither `A` nor
`B` (R46), so it carries the two bytes as they stood. -/
inductive Instr where
  | pinHigh (slot : Nat)
  | pinLow (slot : Nat)
  | pinWrite (slot : Nat) (l : Level)
  | pinRead (slot : Nat)
  | bitsDmsb (b : Byte)
  | bitsDlsb (b : Byte)
  | bitsRmsb (v : LevelVec)
  | bitsRlsb (v : LevelVec)
  | spiXfer (b : Byte)
  | spiWrite (b : Byte)
  | owReset
  | owWbit (l : Level)
  | owRbit
  | owWbyte (b : Byte)
  | owRbyte
  | owSearch (a b : Byte)
deriving DecidableEq, Repr

/-- Why a command is refused (R104). The reason is not carried in the response word. -/
inductive RefuseReason where
  | unknownOp
  | unimplemented
  | nonzeroReserved
  | badSlot
  | noEngine
  | slotOwned
  | noCapability
deriving DecidableEq, Repr

end Sys2Proof
end

