-- ==== Sys2Proof/Machine/Operands.lean ====
section
/-! DEFINITION. Levels, bits and bytes: negation and the level conversions (00_scope.md R3, R4), the assembly of
operands from a command word (30_encoding.md R41) and the packing of results into a response (R42). -/

namespace Sys2Proof

/-- Negation of a level (R3). -/
def Level.not : Level → Level
  | .low => .high
  | .high => .low

/-- `level_of_byte`: `Low` for 0, `High` for every other byte (R4). -/
def levelOfByte (v : Byte) : Level := if v = 0 then .low else .high

/-- `byte_of_level`: 0 or 1 (R4). -/
def byteOfLevel : Level → Byte
  | .low => 0
  | .high => 1

/-- `level_of_bool` (R4). It is also `level_of_bit`, with a bit taken as a `Bool`. -/
def levelOfBool : Bool → Level
  | false => .low
  | true => .high

/-- `bit_of_level` as a number (00_scope.md section 5.1). -/
def bitOfLevel : Level → Nat
  | .low => 0
  | .high => 1

/-- `level_of_bit(b[k])`: the level of bit `k` of a byte. -/
def bitLevel (b : Byte) (k : Nat) : Level := levelOfBool (b.getLsbD k)

/-- A byte from its eight bits, the least significant first. -/
def byteOfBits (v : LevelVec) : Byte :=
  BitVec.ofNat 8
    (bitOfLevel v[0] + 2 * bitOfLevel v[1] + 4 * bitOfLevel v[2] + 8 * bitOfLevel v[3] +
      16 * bitOfLevel v[4] + 32 * bitOfLevel v[5] + 64 * bitOfLevel v[6] + 128 * bitOfLevel v[7])

/-- Level-vector operand: element `k` is bit `k` of `B` (R41). -/
def unpackVec (b : Byte) : LevelVec :=
  #v[bitLevel b 0, bitLevel b 1, bitLevel b 2, bitLevel b 3, bitLevel b 4, bitLevel b 5, bitLevel b 6, bitLevel b 7]

/-- Level-vector result: bit `k` of `VALUE` is element `k` (R42). -/
def packVec (v : LevelVec) : Byte := byteOfBits v

/-- `VALUE` of a command without a result (R42). -/
def noResult : Byte := 0

/-- `VALUE` of a boolean result (R42). -/
def byteOfBool : Bool → Byte
  | false => 0
  | true => 1

/-- The code the spec numbers a refusal reason by; it appears in no word (R104). -/
def RefuseReason.code : RefuseReason → Nat
  | .unknownOp => 1
  | .unimplemented => 2
  | .nonzeroReserved => 3
  | .badSlot => 4
  | .noEngine => 5
  | .slotOwned => 6
  | .noCapability => 7

end Sys2Proof
end

