-- ==== Sys2Proof/Config.lean ====
section
/-! DEFINITION. The configuration record `CFG` (10_state.md R9, R10; 00_scope.md section 4), the event alphabet
(20_memory.md R25) and the one free value of the model, the environment's answer to a sample (R26). -/

namespace Sys2Proof

/-- An external port, named by a number of the model's own (R24; the spec names ports by letters, R32 fixes no address). -/
abbrev Port := Nat

/-- The capabilities of an external port: a subset of {Out, In} (R10). -/
structure Caps where
  out : Bool
  inp : Bool
deriving DecidableEq, Repr

/-- Which capability an operation needs (R49, R51). -/
inductive Cap where
  | out
  | inp
deriving DecidableEq, Repr

/-- A pin expression (R10). Function-backed and tuple-of-closures pins are `ext` leaves (R55). -/
inductive PinExpr where
  | ext (p : Port) (caps : Caps)
  | inv (e : PinExpr)
  | constHigh
  | constLow
  | dummy
deriving DecidableEq, Repr

/-- `SPI_VARIANT` (R79). -/
inductive SpiVariant where
  | master
  | serial
deriving DecidableEq, Repr

/-- `OW_BYTE_ORDER` (R28, R94). -/
inductive BitOrder where
  | lsb
  | msb
deriving DecidableEq, Repr

/-- The four duration classes of the timing source (R88). -/
inductive TimeClass where
  | short
  | medium
  | long
  | reset
deriving DecidableEq, Repr

/-- `OW_CLASS`: the class used at each place where the 1-Wire engine waits (R89). -/
structure OwClass where
  resetLow  : TimeClass
  resetWait : TimeClass
  w1Low     : TimeClass
  w0Low     : TimeClass
  rLow      : TimeClass
  rWait     : TimeClass
deriving DecidableEq, Repr

/-- The configuration record `CFG` (R9). `PINCFG` is a list, and `N_SLOTS` is its length (`Cfg.nSlots`), so the two
cannot disagree; every other field is one of the spec's. -/
structure Cfg where
  pinCfg       : List PinExpr
  spiPresent   : Bool
  spiClk       : Nat
  spiMosi      : Nat
  spiMiso      : Nat
  spiHasSs     : Bool
  spiSs        : Nat
  spiVariant   : SpiVariant
  owPresent    : Bool
  owLine       : Nat
  tShort       : Nat
  tMedium      : Nat
  tLong        : Nat
  tReset       : Nat
  owClass      : OwClass
  owByteOrder  : BitOrder
  dummyInLevel : Level
  owIdBits     : Nat
  owCmdSearch  : Byte
deriving DecidableEq, Repr

/-- Everything the block does to the outside is one of three events (R25). -/
inductive Event where
  | drive (p : Port) (l : Level)
  | sample (p : Port) (l : Level)
  | delay (us : Nat)
deriving DecidableEq, Repr

/-- `EnvSample(H, p)`, the level the environment answers to a sample of port `p` after the history `H`, where no named
or scripted environment decides it (R26, R108; 93_implementation_defined.md U7, U14, U15: any value). A free value:
nothing in Lean says what it is. Log entry 4. -/
opaque Config.envSample : List Event → Port → Level

end Sys2Proof
end

