-- ==== Sys2Proof/Machine/Instance.lean ====
section
/-! DEFINITION. The configuration an instance right after reset is given. The spec leaves it OPEN
(92_eei_decisions.md, "Open parameters"); the defaults it does give are taken. DESIGN CHOICE, log entry 1. -/

namespace Sys2Proof

/-- The default `OW_CLASS` (R89). -/
def defaultOwClass : OwClass where
  resetLow := .reset
  resetWait := .medium
  w1Low := .short
  w0Low := .long
  rLow := .short
  rWait := .short

/-- The configuration of `State.reset`: both engines present, the SPI engine with a select line, so that every command
can run; slot 0, 6 and 7 are free. `CFG` is a field of the state, and statements are made for every value of it. -/
def resetCfg : Cfg where
  pinCfg := [.ext 0 ⟨true, true⟩, .ext 1 ⟨true, false⟩, .ext 2 ⟨true, false⟩, .ext 3 ⟨false, true⟩,
    .ext 4 ⟨true, false⟩, .ext 5 ⟨true, true⟩, .dummy, .constHigh]
  spiPresent := true
  spiClk := 1
  spiMosi := 2
  spiMiso := 3
  spiHasSs := true
  spiSs := 4
  spiVariant := .master
  owPresent := true
  owLine := 5
  tShort := 1
  tMedium := 2
  tLong := 3
  tReset := 4
  owClass := defaultOwClass
  owByteOrder := .lsb
  dummyInLevel := .low
  owIdBits := 8
  owCmdSearch := 0

end Sys2Proof
end

