-- ==== Sys2Proof/Machine/ConfigCheck.lean ====
section
/-! DEFINITION. Reading the configuration record: capabilities of a pin expression (10_state.md R10), the slot table,
the slots bound to engine roles (40_pin.md R61), and the named well-formedness checks (R11). -/

namespace Sys2Proof

/-- `caps(e)` (R10). -/
def PinExpr.caps : PinExpr → Caps
  | .ext _ c => c
  | .inv e => e.caps
  | .constHigh => ⟨false, true⟩
  | .constLow => ⟨false, true⟩
  | .dummy => ⟨true, true⟩

/-- Whether a capability is in `caps(e)`. -/
def PinExpr.has (e : PinExpr) : Cap → Bool
  | .out => e.caps.out
  | .inp => e.caps.inp

/-- The external port at the leaf of a pin expression, if the leaf is a port. -/
def PinExpr.port? : PinExpr → Option Port
  | .ext p _ => some p
  | .inv e => e.port?
  | .constHigh => none
  | .constLow => none
  | .dummy => none

/-- An `Ext` leaf names a non-empty subset of {Out, In} (R10). -/
def PinExpr.capsNonempty (e : PinExpr) : Bool := e.caps.out || e.caps.inp

/-- `N_SLOTS` (R9): the length of `PINCFG`. -/
abbrev Cfg.nSlots (c : Cfg) : Nat := c.pinCfg.length

/-- `slot(s) = PINCFG[s]`. A number outside the table is never looked up: `check_pin` and `slots_in_range` see to it. -/
def Cfg.slot (c : Cfg) (s : Nat) : PinExpr := c.pinCfg.getD s .dummy

/-- The slots bound to roles of the SPI engine (R13; `SPI_SS` only with a select line). -/
def Cfg.spiRoles (c : Cfg) : List Nat :=
  if c.spiPresent then [c.spiClk, c.spiMosi, c.spiMiso] ++ (if c.spiHasSs then [c.spiSs] else []) else []

/-- The slot bound to the 1-Wire engine's role (R15). -/
def Cfg.owRoles (c : Cfg) : List Nat := if c.owPresent then [c.owLine] else []

/-- All slots bound to an engine role (R61). -/
def Cfg.roles (c : Cfg) : List Nat := c.spiRoles ++ c.owRoles

/-- "`s` is bound to an engine role" (R61, R18). -/
def Cfg.owned (c : Cfg) (s : Nat) : Bool := decide (s ∈ c.roles)

/-- `T[c]`, in microseconds (R88, R110). -/
def Cfg.duration (c : Cfg) : TimeClass → Nat
  | .short => c.tShort
  | .medium => c.tMedium
  | .long => c.tLong
  | .reset => c.tReset

/-- The four duration constants. -/
def Cfg.durations (c : Cfg) : List Nat := [c.tShort, c.tMedium, c.tLong, c.tReset]

/-- The checks a configuration must pass: the legal values of R9 and R10 (the first two), then the seven named checks
of R11. -/
inductive ConfigCheck where
  | slotCount
  | capsNonempty
  | slotsInRange
  | spiCaps
  | owCaps
  | rolesDistinct
  | portsDistinct
  | durationsDistinct
  | writeClassesDistinct
deriving DecidableEq, Repr

/-- All the checks, in the order they are tried. -/
def ConfigCheck.all : List ConfigCheck :=
  [.slotCount, .capsNonempty, .slotsInRange, .spiCaps, .owCaps, .rolesDistinct, .portsDistinct,
    .durationsDistinct, .writeClassesDistinct]

/-- Whether a configuration passes one check (R9, R10, R11). -/
def Cfg.passes (c : Cfg) : ConfigCheck → Bool
  | .slotCount => decide (1 ≤ c.nSlots) && decide (c.nSlots ≤ 256)
  | .capsNonempty => c.pinCfg.all PinExpr.capsNonempty
  | .slotsInRange => c.roles.all fun s => decide (s < c.nSlots)
  | .spiCaps =>
    !c.spiPresent ||
      ((c.slot c.spiClk).has .out && (c.slot c.spiMosi).has .out && (c.slot c.spiMiso).has .inp &&
        (!c.spiHasSs || (c.slot c.spiSs).has .out))
  | .owCaps => !c.owPresent || ((c.slot c.owLine).has .out && (c.slot c.owLine).has .inp)
  | .rolesDistinct => decide c.roles.Nodup
  | .portsDistinct => decide (c.pinCfg.filterMap PinExpr.port?).Nodup
  | .durationsDistinct => decide c.durations.Nodup
  | .writeClassesDistinct => decide (c.owClass.w1Low ≠ c.owClass.w0Low)

/-- The first check a configuration fails, if it fails one. -/
def Cfg.firstFailure (c : Cfg) : Option ConfigCheck := ConfigCheck.all.find? fun k => !c.passes k

end Sys2Proof
end

