-- ==== Sys2Proof/WellFormed.lean ====
section
/-! DEFINITION. Well-formedness, of a command (its slot operand fits the `A` field, 30_encoding.md R39, R41) and of a
configuration (it passes every check of 10_state.md R9 to R11, `Cfg.passes`). -/

namespace Sys2Proof

/-- A slot operand is an unsigned number 0..255 (R41); every other operand is legal at every value of its type. -/
def Instr.wellFormed : Instr → Bool
  | .pinHigh s => decide (s < 256)
  | .pinLow s => decide (s < 256)
  | .pinWrite s _ => decide (s < 256)
  | .pinRead s => decide (s < 256)
  | .bitsDmsb _ => true
  | .bitsDlsb _ => true
  | .bitsRmsb _ => true
  | .bitsRlsb _ => true
  | .spiXfer _ => true
  | .spiWrite _ => true
  | .owReset => true
  | .owWbit _ => true
  | .owRbit => true
  | .owWbyte _ => true
  | .owRbyte => true
  | .owSearch _ _ => true

/-- A configuration is well-formed when all the named checks hold (R11). -/
abbrev Cfg.WellFormed (c : Cfg) : Prop := c.firstFailure = none

end Sys2Proof
end

