-- ==== Sys2Proof/Machine/State.lean ====
section
/-! DEFINITION. The state of the machine (10_state.md), the reasons a step can stop, and the state after reset (R23). -/

namespace Sys2Proof.Machine

/-- `spi.phase` (R14, R74). -/
inductive SpiPhase where
  | idle
  | selectAsserted
  | bitCycle
  | selectDeasserted
deriving DecidableEq, Repr

/-- The SPI engine's state (R14): phase, sequencer position 0..34, the byte being sent, the levels received so far. -/
structure SpiState where
  phase : SpiPhase
  seq   : Nat
  tx    : Byte
  rx    : LevelVec
deriving DecidableEq, Repr

/-- `ow.phase` (R16, R87). -/
inductive OwPhase where
  | idle
  | reset
  | bitOp
  | byteOp
deriving DecidableEq, Repr

/-- The 1-Wire engine's state (R16): phase, position 0..5 inside the current bit-level sequence, the number 0..8 of
bits of a byte command already done, the operand (a level operand as 0 or 1), the levels received so far. -/
structure OwState where
  phase  : OwPhase
  seq    : Nat
  bitidx : Nat
  tx     : Byte
  rx     : LevelVec
deriving DecidableEq, Repr

/-- The search context (R17): its one field, an identifier of `OW_ID_BITS` bits as a number. Nothing reads or writes it. -/
structure OwSearch where
  lastId : Nat
deriving DecidableEq, Repr

/-- The SPI engine's commands (R85, R86). -/
inductive SpiOp where
  | xfer
  | write
deriving DecidableEq, Repr

/-- The 1-Wire engine's commands (R97 to R101). -/
inductive OwOp where
  | reset
  | wbit
  | rbit
  | wbyte
  | rbyte
deriving DecidableEq, Repr

/-- The engine command in flight: what the sequencer is performing (R5, R20). -/
inductive EngineOp where
  | spi (op : SpiOp)
  | ow (op : OwOp)
deriving DecidableEq, Repr

/-- A response (R40): `OK` with `VALUE`, or `REFUSED` with the reason, which the response word does not carry (R104). -/
inductive Response where
  | ok (value : Byte)
  | refused (reason : RefuseReason)
deriving DecidableEq, Repr

/-- How the environment answers the samples of one port, where it is a named environment of R26: `Loopback(po, pi)`,
`Stuck(pi, l)` or `PresenceAfterDelay(p)`. -/
inductive PortRule where
  | loopback (po : Port)
  | stuck (l : Level)
  | presenceAfterDelay
deriving DecidableEq, Repr

/-- The environment, agent (3) of 00_scope.md section 5.4: rules for the ports that have one, and for every other port
the answers still to come, oldest first ("scripted", 95_test_vectors.md). Past the script's end the answer is the free
value `Config.envSample`. Log entry 4. -/
structure Env where
  rules  : List (Port × PortRule)
  script : List Level
deriving DecidableEq, Repr

/-- The timing source, agent (4) of 00_scope.md section 5.4 (R110, R118): every call returns; or `n` more calls return
and the one after them never does; or that call has been made, and the block waits in it for good. -/
inductive Timing where
  | returns
  | hangsAfter (n : Nat)
  | hung
deriving DecidableEq, Repr

/-- The state of the machine. `cfg` is fixed when the instance is made (R9); `spi`, `ow` and `owsearch` are the block's
own (R14, R16, R17); `inflight` and `response` are the command port's (R5, R40); `hist` is `H`, oldest first (R22);
`cmds` are the words the host is going to issue, in order (R7, R47); `env` and `timing` are the two oracles outside the
block (R26, R110). -/
structure State where
  cfg      : Cfg
  spi      : SpiState
  ow       : OwState
  owsearch : OwSearch
  inflight : Option EngineOp
  response : Option Response
  hist     : List Event
  cmds     : List CmdWord
  env      : Env
  timing   : Timing
deriving DecidableEq, Repr

/-- Why the machine stops with a fault. -/
inductive Fault where
  /-- Raised by `step` alone, in a state whose 1-Wire command waits in a call of the timing source that never returns:
  "stuck" (R118 (c); 93_implementation_defined.md U12). The block answers no response and takes no later command. Safe. -/
  | timingSourceHung
deriving DecidableEq, Repr

/-- Why a command or an instance has no meaning. -/
inductive Refusal where
  /-- Raised by `exec` for a command without a meaning yet; no arm does. Safe. -/
  | notModelled (mnemonic : String)
  /-- Raised by `step` and by every command's meaning where the configuration fails a check: "a model refuses an
  instance that fails any of them (it has no meaning, rather than some meaning)" (R11). Safe. -/
  | illFormedConfig (check : ConfigCheck)
  /-- Raised by a command's meaning where another command is still in flight: only after the response can the block
  accept the next command (R5). `step` never gives `exec` such a state. Safe. -/
  | commandInFlight
deriving DecidableEq, Repr

/-- Eight `Low` levels: what `rx` holds at reset, where the spec gives no value (R23). DESIGN CHOICE, log entry 2. -/
def State.noLevels : LevelVec := #v[.low, .low, .low, .low, .low, .low, .low, .low]

/-- The machine right after reset (R23, R114, R115): both phases `Idle`, `H` empty, the port ready and nothing issued.
Transient registers and the search context have no reset value in the spec; they are zero here (log entry 2). -/
def State.reset : State where
  cfg := resetCfg
  spi := { phase := .idle, seq := 0, tx := 0, rx := State.noLevels }
  ow := { phase := .idle, seq := 0, bitidx := 0, tx := 0, rx := State.noLevels }
  owsearch := { lastId := 0 }
  inflight := none
  response := none
  hist := []
  cmds := []
  env := { rules := [], script := [] }
  timing := .returns

end Sys2Proof.Machine
end

