-- ==== Sys2Proof/Machine/Ops.lean ====
section
/-! DEFINITION. The operations every command is made of: the updates of the state, the environment's answer
(20_memory.md R26), the pin primitives (40_pin.md R49 to R53), the timing source (60_exceptions.md R110), the response
(30_encoding.md R40), the refusal (R104), which is this block's only exception, and the admission of a command (R5, R11,
R61). -/

namespace Sys2Proof.Machine

/-! ### Updates -/

/-- `emit ev`: append an event to `H` (00_scope.md section 5.2). -/
def State.emit (ev : Event) (s : State) : State := { s with hist := s.hist ++ [ev] }

def State.setEnv (e : Env) (s : State) : State := { s with env := e }

def State.setTiming (t : Timing) (s : State) : State := { s with timing := t }

def State.setSpi (x : SpiState) (s : State) : State := { s with spi := x }

def State.setOw (x : OwState) (s : State) : State := { s with ow := x }

def State.setInflight (o : Option EngineOp) (s : State) : State := { s with inflight := o }

def State.setResponse (r : Option Response) (s : State) : State := { s with response := r }

def State.setCmds (c : List CmdWord) (s : State) : State := { s with cmds := c }

/-! ### The environment (R26) -/

/-- The level of the last `Drive(p, ·)` in a history, if there is one. -/
def lastDrive (p : Port) (h : List Event) : Option Level :=
  h.foldl (fun acc ev =>
    match ev with
    | .drive q l => if q = p then some l else acc
    | .sample _ _ => acc
    | .delay _ => acc) none

/-- Whether an event is not a `Sample`. -/
def Event.notSample : Event → Bool
  | .drive _ _ => true
  | .sample _ _ => false
  | .delay _ => true

/-- `PresenceAfterDelay(p)`: leaving `Sample` events out, `H` ends in `Drive(p, High)` and then a `Delay` (R26; log
entry 5). -/
def afterReleaseAndDelay (p : Port) (h : List Event) : Bool :=
  match (h.filter Event.notSample).reverse with
  | .delay _ :: .drive q .high :: _ => decide (q = p)
  | _ => false

/-- The level a rule answers for a sample of port `p` after the history `h`; where R26 gives none (nothing driven yet),
the free value. -/
def PortRule.answer (h : List Event) (p : Port) : PortRule → Level
  | .loopback po => (lastDrive po h).getD (Config.envSample h p)
  | .stuck l => l
  | .presenceAfterDelay =>
    if afterReleaseAndDelay p h then .low else (lastDrive p h).getD (Config.envSample h p)

/-- The answer to a sample of port `p` after the history `h`, and the environment after it: the port's rule if it has
one, else the next scripted answer, else the free value. -/
def Env.answer (e : Env) (h : List Event) (p : Port) : Level × Env :=
  match e.rules.lookup p with
  | some r => (r.answer h p, e)
  | none =>
    match e.script with
    | l :: rest => (l, { e with script := rest })
    | [] => (Config.envSample h p, e)

/-! ### The pin primitives -/

/-- `drive(e, l)` (R52). A constant has no Output capability and is never driven in a well-formed configuration. -/
def drive : PinExpr → Level → State → State
  | .ext p _, l, s => s.emit (.drive p l)
  | .inv e, l, s => drive e l.not s
  | .dummy, _, s => s
  | .constHigh, _, s => s
  | .constLow, _, s => s

/-- `sample(e)` (R53): the level returned, and the state after. -/
def sample : PinExpr → State → Level × State
  | .ext p _, s =>
    let a := s.env.answer s.hist p
    (a.1, (s.setEnv a.2).emit (.sample p a.1))
  | .inv e, s =>
    let r := sample e s
    (r.1.not, r.2)
  | .constHigh, s => (.high, s)
  | .constLow, s => (.low, s)
  | .dummy, s => (s.cfg.dummyInLevel, s)

/-- `high()` (R49). -/
def high (e : PinExpr) (s : State) : State := drive e .high s

/-- `low()` (R49). -/
def low (e : PinExpr) (s : State) : State := drive e .low s

/-- `write(level)`, derived from `high` and `low` (R50). -/
def write (e : PinExpr) (l : Level) (s : State) : State := if l = .high then high e s else low e s

/-- `read()` (R51). -/
def read (e : PinExpr) (s : State) : Level × State := sample e s

/-! ### The timing source -/

/-- The timing source after one more call (R110, R118). -/
def Timing.call : Timing → Timing
  | .returns => .returns
  | .hangsAfter 0 => .hung
  | .hangsAfter (n + 1) => .hangsAfter n
  | .hung => .hung

/-- `delay(c)`: emit `Delay(T[c])` and call the timing source (R110). Whether the call returns is in `timing` (log
entry 6). -/
def delay (c : TimeClass) (s : State) : State :=
  (s.emit (.delay (s.cfg.duration c))).setTiming s.timing.call

/-! ### Responses, and the refusal -/

/-- The response word: `STATUS` 0x00 and `VALUE`, or `STATUS` 0x01 and 0x00 (R40). -/
def Response.word : Response → RespWord
  | .ok v => (0x00 : Byte) ++ v
  | .refused _ => (0x01 : Byte) ++ (0x00 : Byte)

/-- The command ends with status `OK`, and no command is in flight (R40, R103). -/
def respond (v : Byte) (s : State) : State := (s.setInflight none).setResponse (some (.ok v))

/-- `raise Refused(reason)`: no event, no state change, and the response says so (R104, R107). -/
def refuse (r : RefuseReason) (s : State) : State := s.setResponse (some (.refused r))

/-! ### Admission -/

/-- Whether a command is in flight: one of the engines is not `Idle` (R74, R87). -/
def State.busy (s : State) : Bool := decide (s.spi.phase ≠ .idle) || decide (s.ow.phase ≠ .idle)

/-- Whether the 1-Wire command in flight waits in a call of the timing source that never returns (R118). -/
def State.blocked (s : State) : Bool := decide (s.ow.phase ≠ .idle) && decide (s.timing = .hung)

/-- A command is performed by a well-formed instance (R11) that has no other command in flight (R5). -/
def accept (s : State) (body : State → State) : Host.Outcome State Fault Refusal :=
  match s.cfg.firstFailure with
  | some c => .refused (.illFormedConfig c)
  | none => if s.busy then .refused .commandInFlight else .next (body s)

/-- `check_pin(s, cap)`: the pin expression of a free slot that has the capability, or the reason of the refusal (R61). -/
def checkPin (c : Cfg) (slot : Nat) (need : Cap) : Except RefuseReason PinExpr :=
  if c.nSlots ≤ slot then .error .badSlot
  else if c.owned slot then .error .slotOwned
  else if (c.slot slot).has need then .ok (c.slot slot)
  else .error .noCapability

/-- A command on the pin in a slot: `check_pin`, then what it does with the pin expression. -/
def pinCommand (slot : Nat) (need : Cap) (act : PinExpr → State → State) (s : State) : Host.Outcome State Fault Refusal :=
  accept s fun s =>
    match checkPin s.cfg slot need with
    | .ok e => act e s
    | .error r => refuse r s

end Sys2Proof.Machine
end

