-- ==== Sys2Proof/Machine/BitOrder.lean ====
section
/-! DEFINITION. Bit ordering (41_bitorder.md): the four conversion functions, the ordered per-bit transform and the four
`BITS` commands. -/

namespace Sys2Proof.Machine

/-- `decompose_msb(b)`: element `k` is bit `7-k` (R62). -/
def decomposeMsb (b : Byte) : LevelVec :=
  #v[bitLevel b 7, bitLevel b 6, bitLevel b 5, bitLevel b 4, bitLevel b 3, bitLevel b 2, bitLevel b 1, bitLevel b 0]

/-- `decompose_lsb(b)`: element `k` is bit `k` (R63). -/
def decomposeLsb (b : Byte) : LevelVec :=
  #v[bitLevel b 0, bitLevel b 1, bitLevel b 2, bitLevel b 3, bitLevel b 4, bitLevel b 5, bitLevel b 6, bitLevel b 7]

/-- `recompose_msb(v)`: bit `7-k` is element `k` (R64). -/
def recomposeMsb (v : LevelVec) : Byte :=
  byteOfBits #v[v[7], v[6], v[5], v[4], v[3], v[2], v[1], v[0]]

/-- `recompose_lsb(v)`: bit `k` is element `k` (R65). -/
def recomposeLsb (v : LevelVec) : Byte := byteOfBits v

/-- The decomposition in a given order (R94). -/
def decompose (o : BitOrder) (b : Byte) : LevelVec :=
  match o with
  | .lsb => decomposeLsb b
  | .msb => decomposeMsb b

/-- The recomposition in a given order (R94). -/
def recompose (o : BitOrder) (v : LevelVec) : Byte :=
  match o with
  | .lsb => recomposeLsb v
  | .msb => recomposeMsb v

/-- Apply `f` to the eight levels strictly in index order, each application completed before the next begins (R68). -/
def mapLevels {α σ : Type} (v : LevelVec) (f : Level → σ → α × σ) (s : σ) : Vector α 8 × σ :=
  let r0 := f v[0] s
  let r1 := f v[1] r0.2
  let r2 := f v[2] r1.2
  let r3 := f v[3] r2.2
  let r4 := f v[4] r3.2
  let r5 := f v[5] r4.2
  let r6 := f v[6] r5.2
  let r7 := f v[7] r6.2
  (#v[r0.1, r1.1, r2.1, r3.1, r4.1, r5.1, r6.1, r7.1], r7.2)

/-- `map_msb(b, f)` (R68). -/
def mapMsb {α σ : Type} (b : Byte) (f : Level → σ → α × σ) (s : σ) : Vector α 8 × σ := mapLevels (decomposeMsb b) f s

/-- `map_lsb(b, f)` (R68). -/
def mapLsb {α σ : Type} (b : Byte) (f : Level → σ → α × σ) (s : σ) : Vector α 8 × σ := mapLevels (decomposeLsb b) f s

/-- `BITS.DMSB b` (R70). -/
def execBitsDmsb (b : Byte) (s : State) : Host.Outcome State Fault Refusal :=
  accept s (respond (packVec (decomposeMsb b)))

/-- `BITS.DLSB b` (R71). -/
def execBitsDlsb (b : Byte) (s : State) : Host.Outcome State Fault Refusal :=
  accept s (respond (packVec (decomposeLsb b)))

/-- `BITS.RMSB v` (R72). -/
def execBitsRmsb (v : LevelVec) (s : State) : Host.Outcome State Fault Refusal :=
  accept s (respond (recomposeMsb v))

/-- `BITS.RLSB v` (R73). -/
def execBitsRlsb (v : LevelVec) (s : State) : Host.Outcome State Fault Refusal :=
  accept s (respond (recomposeLsb v))

end Sys2Proof.Machine
end

