-- ==== Sys2Proof/Machine/Pin.lean ====
section
/-! DEFINITION. The four commands on a free slot (40_pin.md R57 to R60). -/

namespace Sys2Proof.Machine

/-- `PIN.HIGH s` (R57). -/
def execPinHigh (slot : Nat) (s : State) : Host.Outcome State Fault Refusal :=
  pinCommand slot .out (fun e s => respond noResult (high e s)) s

/-- `PIN.LOW s` (R58). -/
def execPinLow (slot : Nat) (s : State) : Host.Outcome State Fault Refusal :=
  pinCommand slot .out (fun e s => respond noResult (low e s)) s

/-- `PIN.WRITE s, l` (R59). -/
def execPinWrite (slot : Nat) (l : Level) (s : State) : Host.Outcome State Fault Refusal :=
  pinCommand slot .out (fun e s => respond noResult (write e l s)) s

/-- `PIN.READ s` (R60). -/
def execPinRead (slot : Nat) (s : State) : Host.Outcome State Fault Refusal :=
  pinCommand slot .inp (fun e s => let r := read e s; respond (byteOfLevel r.1) r.2) s

end Sys2Proof.Machine
end

