-- ==== Sys2Proof/Machine/Flags.lean ====
section
/-! DEFINITION. The block has no status flags, condition codes or predicates, and no command sets one (10_state.md
R21). The one truth value it computes, the presence result of a 1-Wire reset, is a return value and is not stored. -/

namespace Sys2Proof.Machine

/-- The result of `reset()`: `true`, a device is present, exactly when the sampled level is `Low` (43_onewire.md R90). -/
def presence (l : Level) : Bool := decide (l = .low)

end Sys2Proof.Machine
end

