-- ==== Sys2Proof/Machine/OneWire.lean ====
section
/-! DEFINITION. The 1-Wire engine (43_onewire.md): the bit-level sequences as data (R90, R92, R93, R96), its sequencer,
one event position at a time, and what its commands issue. `Machine/Sequencer.lean` runs it. -/

namespace Sys2Proof.Machine

/-- One position of a bit-level sequence: drive the line, wait a class, or sample the line. -/
inductive OwAction where
  | pull
  | release
  | hold (c : TimeClass)
  | sample
deriving DecidableEq, Repr

/-- The sequence of `reset()` (R90). -/
def owResetSequence (c : OwClass) : List OwAction := [.pull, .hold c.resetLow, .release, .hold c.resetWait, .sample]

/-- The sequence of `write_bit(l)` (R92). -/
def owWriteSequence (c : OwClass) (l : Level) : List OwAction :=
  [.pull, .hold (if l = .high then c.w1Low else c.w0Low), .release]

/-- The sequence of `read_bit()` (R93). -/
def owReadSequence (c : OwClass) : List OwAction := [.pull, .hold c.rLow, .release, .hold c.rWait, .sample]

/-- Element `k` of a level vector. -/
def levelAt (v : LevelVec) (k : Nat) : Level := v[k]?.getD .low

/-- The bit-level sequence the engine is in: the command's own, or that of bit `bitidx` of a byte command (R94, R96). -/
def owSequence (op : OwOp) (c : Cfg) (x : OwState) : List OwAction :=
  match op with
  | .reset => owResetSequence c.owClass
  | .wbit => owWriteSequence c.owClass (levelOfByte x.tx)
  | .rbit => owReadSequence c.owClass
  | .wbyte => owWriteSequence c.owClass (levelAt (decompose c.owByteOrder x.tx) x.bitidx)
  | .rbyte => owReadSequence c.owClass

/-- Whether a command is made of eight bit-level sequences (R94). -/
def OwOp.isByte : OwOp → Bool
  | .reset => false
  | .wbit => false
  | .rbit => false
  | .wbyte => true
  | .rbyte => true

/-- Where a sampled level goes: `ow.rx[k]` for bit `k` of a byte command, the one element else (R16, R101). -/
def owRxIndex (op : OwOp) (x : OwState) : Nat := if op.isByte then x.bitidx else 0

/-- `ow.rx[k] <- l`. -/
def owReceive (k : Nat) (l : Level) (s : State) : State := s.setOw { s.ow with rx := s.ow.rx.setIfInBounds k l }

/-- Perform one position. -/
def owPerform (op : OwOp) (a : OwAction) (s : State) : State :=
  let line := s.cfg.slot s.cfg.owLine
  match a with
  | .pull => low line s
  | .release => high line s
  | .hold c => delay c s
  | .sample =>
    let r := read line s
    owReceive (owRxIndex op s.ow) r.1 r.2

/-- The result of a command, from the levels received (R97 to R101). -/
def owResult (op : OwOp) (c : Cfg) (rx : LevelVec) : Byte :=
  match op with
  | .reset => byteOfBool (presence rx[0])
  | .wbit => noResult
  | .rbit => byteOfLevel rx[0]
  | .wbyte => noResult
  | .rbyte => recompose c.owByteOrder rx

/-- The last position done: `ow.phase <- Idle` and the response. -/
def owFinish (op : OwOp) (s : State) : State :=
  respond (owResult op s.cfg s.ow.rx) (s.setOw { s.ow with phase := .idle })

/-- A bit-level sequence of `len` positions after one of them is done: `seq <- seq + 1`; at the sequence's end a byte
command counts the bit and starts the next at `seq = 0`, until eight are done (R20, R96, R100). -/
def owAdvance (op : OwOp) (len : Nat) (s : State) : State :=
  if s.ow.seq + 1 < len then s.setOw { s.ow with seq := s.ow.seq + 1 }
  else if op.isByte then
    if s.ow.bitidx + 1 < 8 then s.setOw { s.ow with seq := 0, bitidx := s.ow.bitidx + 1 }
    else owFinish op (s.setOw { s.ow with seq := len, bitidx := 8 })
  else owFinish op (s.setOw { s.ow with seq := len })

/-- The position `seq` of the current bit-level sequence. A `Delay` that never returns leaves the engine at its position
for good (R118 (c)). -/
def owTick (op : OwOp) (s : State) : State :=
  if s.blocked then s
  else
    match (owSequence op s.cfg s.ow)[s.ow.seq]? with
    | none => s
    | some a =>
      let t := owPerform op a s
      if t.timing = .hung then t else owAdvance op (owSequence op s.cfg s.ow).length t

/-- The number of event positions of a command (R96). -/
def owLength (op : OwOp) : Nat :=
  match op with
  | .reset => 5
  | .wbit => 3
  | .rbit => 5
  | .wbyte => 24
  | .rbyte => 40

/-- `ow.phase` during a command (R87, R97 to R101). -/
def owPhaseOf (op : OwOp) : OwPhase :=
  match op with
  | .reset => .reset
  | .wbit => .bitOp
  | .rbit => .bitOp
  | .wbyte => .byteOp
  | .rbyte => .byteOp

/-- The issue of a 1-Wire command (R20, R36, R97 to R101): the phase, `seq <- 0`; a byte command sets `bitidx <- 0`; a
write latches its operand. -/
def owIssue (op : OwOp) (operand : Option Byte) (s : State) : State :=
  ((s.setOw { s.ow with
      phase := owPhaseOf op, seq := 0, bitidx := if op.isByte then 0 else s.ow.bitidx,
      tx := operand.getD s.ow.tx }).setInflight (some (.ow op))).setResponse none

end Sys2Proof.Machine
end

