-- ==== Sys2Proof/Machine/Spi.lean ====
section
/-! DEFINITION. The SPI engine (42_spi.md): its sequencer, one event position at a time (R74, R75, R83), and what its
two commands issue. `Machine/Sequencer.lean` runs it. -/

namespace Sys2Proof.Machine

/-- Where the bit cycles begin in the sequence: after the select position, if there is one (R83, `o`). -/
def spiOffset (c : Cfg) : Nat := if c.spiHasSs then 1 else 0

/-- The number of positions of a transfer: 34 with a select line, 32 without (R83). -/
def spiLength (c : Cfg) : Nat := 32 + 2 * spiOffset c

/-- The level driven on data-out in bit cycle `k`: `level_of_bit(b[7-k])` in the master engine (R76); in the serial
engine the boolean `b[7-k] = 1` through `level_of_bool` (R79). -/
def spiOutLevel (c : Cfg) (b : Byte) (k : Nat) : Level :=
  match c.spiVariant with
  | .master => bitLevel b (7 - k)
  | .serial => levelOfBool (b.getLsbD (7 - k) == true)

/-- One position done: the phase of the next position, and `seq <- seq + 1` (R20). -/
def spiAdvance (ph : SpiPhase) (s : State) : State := s.setSpi { s.spi with phase := ph, seq := s.spi.seq + 1 }

/-- `spi.rx[k] <- l` (R83). -/
def spiReceive (k : Nat) (l : Level) (s : State) : State := s.setSpi { s.spi with rx := s.spi.rx.setIfInBounds k l }

/-- The result of a transfer: the byte received (R76), discarded by `SPI.WRITE` (R86). -/
def spiResult (op : SpiOp) (rx : LevelVec) : Byte :=
  match op with
  | .xfer => recomposeMsb rx
  | .write => noResult

/-- The last position done: `spi.phase <- Idle` and the response (R74, R85). -/
def spiFinish (op : SpiOp) (s : State) : State :=
  let s := spiAdvance .idle s
  respond (spiResult op s.spi.rx) s

/-- The position `seq` of a transfer, by phase (R74) and, in a bit cycle, by its four steps (R75, R83). -/
def spiTick (op : SpiOp) (s : State) : State :=
  let c := s.cfg
  match s.spi.phase with
  | .idle => s
  | .selectAsserted => spiAdvance .bitCycle (low (c.slot c.spiSs) s)
  | .bitCycle =>
    let n := s.spi.seq - spiOffset c
    let k := n / 4
    match n % 4 with
    | 0 => spiAdvance .bitCycle (low (c.slot c.spiClk) s)
    | 1 => spiAdvance .bitCycle (write (c.slot c.spiMosi) (spiOutLevel c s.spi.tx k) s)
    | 2 => spiAdvance .bitCycle (high (c.slot c.spiClk) s)
    | _ =>
      let r := read (c.slot c.spiMiso) s
      let t := spiReceive k r.1 r.2
      if k < 7 then spiAdvance .bitCycle t
      else if c.spiHasSs then spiAdvance .selectDeasserted t
      else spiFinish op t
  | .selectDeasserted => spiFinish op (high (c.slot c.spiSs) s)

/-- The issue of an SPI command: the operand is latched, `seq <- 0`, and the phase is the first one of the chain (R36,
R74, R85). -/
def spiIssue (op : SpiOp) (b : Byte) (s : State) : State :=
  ((s.setSpi { s.spi with
      phase := if s.cfg.spiHasSs then .selectAsserted else .bitCycle, seq := 0, tx := b }).setInflight (some (.spi op))).setResponse
    none

end Sys2Proof.Machine
end

