-- ==== Sys2Proof/Machine/Sequencer.lean ====
section
/-! DEFINITION. The sequencer (10_state.md R20): one event position of the command in flight, the run of a command to
its response (00_scope.md R5), and the engine commands' meanings (42_spi.md R85, R86; 43_onewire.md R97 to R102). -/

namespace Sys2Proof.Machine

/-- One event position of the command in flight; nothing where no command is in flight. -/
def tick (s : State) : State :=
  match s.inflight with
  | none => s
  | some (.spi op) => spiTick op s
  | some (.ow op) => owTick op s

/-- `n` event positions, one after the other. -/
def ticks : Nat → State → State
  | 0, s => s
  | n + 1, s => ticks n (tick s)

/-- An SPI command: refused without an SPI engine, else issued and run to its response (R85, R86). -/
def spiCommand (op : SpiOp) (b : Byte) (s : State) : Host.Outcome State Fault Refusal :=
  accept s fun s =>
    if s.cfg.spiPresent then ticks (spiLength s.cfg) (spiIssue op b s) else refuse .noEngine s

/-- A 1-Wire command: refused without a 1-Wire engine (`admit_ow`), else issued and run to its response (R97 to R101). -/
def owCommand (op : OwOp) (operand : Option Byte) (s : State) : Host.Outcome State Fault Refusal :=
  accept s fun s =>
    if s.cfg.owPresent then ticks (owLength op) (owIssue op operand s) else refuse .noEngine s

/-- `SPI.XFER b` (R85). -/
def execSpiXfer (b : Byte) (s : State) : Host.Outcome State Fault Refusal := spiCommand .xfer b s

/-- `SPI.WRITE b` (R86). -/
def execSpiWrite (b : Byte) (s : State) : Host.Outcome State Fault Refusal := spiCommand .write b s

/-- `OW.RESET` (R97). -/
def execOwReset (s : State) : Host.Outcome State Fault Refusal := owCommand .reset none s

/-- `OW.WBIT l` (R98). The level is latched as its byte (log entry 7). -/
def execOwWbit (l : Level) (s : State) : Host.Outcome State Fault Refusal := owCommand .wbit (some (byteOfLevel l)) s

/-- `OW.RBIT` (R99). -/
def execOwRbit (s : State) : Host.Outcome State Fault Refusal := owCommand .rbit none s

/-- `OW.WBYTE b` (R100). -/
def execOwWbyte (b : Byte) (s : State) : Host.Outcome State Fault Refusal := owCommand .wbyte (some b) s

/-- `OW.RBYTE` (R101). -/
def execOwRbyte (s : State) : Host.Outcome State Fault Refusal := owCommand .rbyte none s

/-- `OW.SEARCH`: refused with `Unimplemented`, whatever `A`, `B` and the configuration (R46, R95, R102). -/
def execOwSearch (_a _b : Byte) (s : State) : Host.Outcome State Fault Refusal := accept s (refuse .unimplemented)

end Sys2Proof.Machine
end

