-- ==== Sys2Proof/Machine/Dispatch.lean ====
section
/-! DEFINITION. The meaning of every command: one arm per constructor of `Instr`. -/

namespace Sys2Proof.Machine

def exec (i : Instr) (s : State) : Host.Outcome State Fault Refusal :=
  match i with
  | .pinHigh slot => Sys2Proof.Machine.execPinHigh slot s
  | .pinLow slot => Sys2Proof.Machine.execPinLow slot s
  | .pinWrite slot l => Sys2Proof.Machine.execPinWrite slot l s
  | .pinRead slot => Sys2Proof.Machine.execPinRead slot s
  | .bitsDmsb b => Sys2Proof.Machine.execBitsDmsb b s
  | .bitsDlsb b => Sys2Proof.Machine.execBitsDlsb b s
  | .bitsRmsb v => Sys2Proof.Machine.execBitsRmsb v s
  | .bitsRlsb v => Sys2Proof.Machine.execBitsRlsb v s
  | .spiXfer b => Sys2Proof.Machine.execSpiXfer b s
  | .spiWrite b => Sys2Proof.Machine.execSpiWrite b s
  | .owReset => Sys2Proof.Machine.execOwReset s
  | .owWbit l => Sys2Proof.Machine.execOwWbit l s
  | .owRbit => Sys2Proof.Machine.execOwRbit s
  | .owWbyte b => Sys2Proof.Machine.execOwWbyte b s
  | .owRbyte => Sys2Proof.Machine.execOwRbyte s
  | .owSearch a b => Sys2Proof.Machine.execOwSearch a b s

end Sys2Proof.Machine
end

