-- ==== Sys2Proof/Decode.lean ====
section
/-! DEFINITION. The command word (30_encoding.md R39 to R46): the opcode table as rows, the decoder, total on all
24-bit words and refusing by name, and after it the encoder. -/

namespace Sys2Proof

/-- `OP`, bits 23:16 (R39). -/
def opField (w : CmdWord) : Byte := w.extractLsb' 16 8

/-- `A`, bits 15:8 (R39). -/
def aField (w : CmdWord) : Byte := w.extractLsb' 8 8

/-- `B`, bits 7:0 (R39). -/
def bField (w : CmdWord) : Byte := w.extractLsb' 0 8

/-- `NonzeroReserved` if a must-be-zero field is not zero (R45), else the command. -/
def ifZero (field : Byte) (i : Instr) : Except RefuseReason Instr :=
  if field = 0 then .ok i else .error .nonzeroReserved

/-- Formats `N`: both `A` and `B` must be zero (R39, R45). -/
def ifBothZero (a b : Byte) (i : Instr) : Except RefuseReason Instr :=
  if a = 0 ∧ b = 0 then .ok i else .error .nonzeroReserved

/-- The decoder (R43): the row whose `OP` equals `w[23:16]`, its must-be-zero fields, its operands by R41. `OW.SEARCH`
comes back as a command whose meaning is the refusal `Unimplemented`, whatever `A` and `B` (R46). -/
def decode (w : CmdWord) : Except RefuseReason Instr :=
  let a := aField w
  let b := bField w
  match (opField w).toNat with
  | 0x01 => ifZero b (.pinHigh a.toNat)
  | 0x02 => ifZero b (.pinLow a.toNat)
  | 0x03 => .ok (.pinWrite a.toNat (levelOfByte b))
  | 0x04 => ifZero b (.pinRead a.toNat)
  | 0x10 => ifZero a (.bitsDmsb b)
  | 0x11 => ifZero a (.bitsDlsb b)
  | 0x12 => ifZero a (.bitsRmsb (unpackVec b))
  | 0x13 => ifZero a (.bitsRlsb (unpackVec b))
  | 0x20 => ifZero a (.spiXfer b)
  | 0x21 => ifZero a (.spiWrite b)
  | 0x30 => ifBothZero a b .owReset
  | 0x31 => ifZero a (.owWbit (levelOfByte b))
  | 0x32 => ifBothZero a b .owRbit
  | 0x33 => ifZero a (.owWbyte b)
  | 0x34 => ifBothZero a b .owRbyte
  | 0x3F => .ok (.owSearch a b)
  | _ => .error .unknownOp

/-- The decoder on a word numbered as spec/opcode_table.json numbers it: bit 0 is the least significant bit of the one
24-bit command word. -/
def decodeTableWord (nbits w : Nat) : Option Instr :=
  match decode (BitVec.ofNat 24 (w % 2 ^ nbits)) with
  | .ok i => some i
  | .error _ => none

/-- Put the three fields together (R39). -/
def mkWord (op a b : Byte) : CmdWord := op ++ a ++ b

/-- The encoder: the command word of a command, from R39, R41 and R43. A level operand is assembled as `B = 0x01` for
`High` and `B = 0x00` for `Low` (R47). -/
def encode : Instr → CmdWord
  | .pinHigh s => mkWord 0x01 (BitVec.ofNat 8 s) 0
  | .pinLow s => mkWord 0x02 (BitVec.ofNat 8 s) 0
  | .pinWrite s l => mkWord 0x03 (BitVec.ofNat 8 s) (byteOfLevel l)
  | .pinRead s => mkWord 0x04 (BitVec.ofNat 8 s) 0
  | .bitsDmsb b => mkWord 0x10 0 b
  | .bitsDlsb b => mkWord 0x11 0 b
  | .bitsRmsb v => mkWord 0x12 0 (packVec v)
  | .bitsRlsb v => mkWord 0x13 0 (packVec v)
  | .spiXfer b => mkWord 0x20 0 b
  | .spiWrite b => mkWord 0x21 0 b
  | .owReset => mkWord 0x30 0 0
  | .owWbit l => mkWord 0x31 0 (byteOfLevel l)
  | .owRbit => mkWord 0x32 0 0
  | .owWbyte b => mkWord 0x33 0 b
  | .owRbyte => mkWord 0x34 0 0
  | .owSearch a b => mkWord 0x3F a b

/-- One row of the opcode map: a word `w` is the instruction of the row when `w and mask = pattern` (R43). -/
structure OpRow where
  mnemonic : String
  pattern  : CmdWord
  mask     : CmdWord
deriving DecidableEq, Repr

/-- The row of the opcode map a command belongs to (R43). -/
def Instr.row : Instr → OpRow
  | .pinHigh _ => ⟨"PIN.HIGH", 0x010000, 0xFF00FF⟩
  | .pinLow _ => ⟨"PIN.LOW", 0x020000, 0xFF00FF⟩
  | .pinWrite _ _ => ⟨"PIN.WRITE", 0x030000, 0xFF0000⟩
  | .pinRead _ => ⟨"PIN.READ", 0x040000, 0xFF00FF⟩
  | .bitsDmsb _ => ⟨"BITS.DMSB", 0x100000, 0xFFFF00⟩
  | .bitsDlsb _ => ⟨"BITS.DLSB", 0x110000, 0xFFFF00⟩
  | .bitsRmsb _ => ⟨"BITS.RMSB", 0x120000, 0xFFFF00⟩
  | .bitsRlsb _ => ⟨"BITS.RLSB", 0x130000, 0xFFFF00⟩
  | .spiXfer _ => ⟨"SPI.XFER", 0x200000, 0xFFFF00⟩
  | .spiWrite _ => ⟨"SPI.WRITE", 0x210000, 0xFFFF00⟩
  | .owReset => ⟨"OW.RESET", 0x300000, 0xFFFFFF⟩
  | .owWbit _ => ⟨"OW.WBIT", 0x310000, 0xFFFF00⟩
  | .owRbit => ⟨"OW.RBIT", 0x320000, 0xFFFFFF⟩
  | .owWbyte _ => ⟨"OW.WBYTE", 0x330000, 0xFFFF00⟩
  | .owRbyte => ⟨"OW.RBYTE", 0x340000, 0xFFFFFF⟩
  | .owSearch _ _ => ⟨"OW.SEARCH", 0x3F0000, 0xFF0000⟩

/-- The opcode map of R43: all sixteen rows, in the table's order. -/
def opcodeMap : List OpRow :=
  [Instr.row (.pinHigh 0), Instr.row (.pinLow 0), Instr.row (.pinWrite 0 .low), Instr.row (.pinRead 0),
    Instr.row (.bitsDmsb 0), Instr.row (.bitsDlsb 0), Instr.row (.bitsRmsb (unpackVec 0)), Instr.row (.bitsRlsb (unpackVec 0)),
    Instr.row (.spiXfer 0), Instr.row (.spiWrite 0),
    Instr.row .owReset, Instr.row (.owWbit .low), Instr.row .owRbit, Instr.row (.owWbyte 0), Instr.row .owRbyte,
    Instr.row (.owSearch 0 0)]

/-- `w and mask = match` (R43). -/
def OpRow.covers (r : OpRow) (w : CmdWord) : Bool := w &&& r.mask == r.pattern

end Sys2Proof
end

