-- ==== Sys2Proof/Machine/Port.lean ====
section
/-! DEFINITION. The command port: taking the next word the host issues (00_scope.md R7; 30_encoding.md R43). -/

namespace Sys2Proof.Machine

/-- What the port does next: wait, perform a decoded command, or refuse a word (R44, R45). The second component is the
state with the word taken from the host's list. -/
inductive Fetch where
  | wait
  | run (i : Instr) (s : State)
  | refuse (r : RefuseReason) (s : State)
deriving DecidableEq, Repr

/-- Take the next command word and decode it. -/
def fetch (s : State) : Fetch :=
  match s.cmds with
  | [] => .wait
  | w :: rest =>
    match decode w with
    | .ok i => .run i (s.setCmds rest)
    | .error r => .refuse r (s.setCmds rest)

/-- The state with a command word first in the host's list. -/
def issueFirst (w : CmdWord) (s : State) : State := s.setCmds (w :: s.cmds)

end Sys2Proof.Machine
end

