-- ==== Sys2Proof/Machine/Step.lean ====
section
/-! DEFINITION. One step of the machine. -/

namespace Sys2Proof.Machine

/-- One step. An ill-formed instance has no meaning (R11). With a command in flight the sequencer performs its next event
(R20), or the machine is stuck in a `Delay` that never returns (R118). Else the next command word is taken and performed
to completion (R5), a word without a command is refused (R44, R45), and with no word the block waits (R115). -/
def step (s : State) : Host.Outcome State Fault Refusal :=
  match s.cfg.firstFailure with
  | some c => .refused (.illFormedConfig c)
  | none =>
    if s.busy then
      if s.blocked then .fault .timingSourceHung else .next (tick s)
    else
      match fetch s with
      | .wait => .next s
      | .run i t => exec i t
      | .refuse r t => .next (refuse r t)

/-- The state in which the host issues the given command word next, its bits above `nbits` zero. -/
def State.withFetchWord (s : State) (nbits w : Nat) : State := issueFirst (BitVec.ofNat 24 (w % 2 ^ nbits)) s

end Sys2Proof.Machine
end

