-- ==== Sys2Proof/Machine/Procedures.lean ====
section
/-! DEFINITION. The engines' operations as the spec's pseudocode writes them, over the pin primitives alone: `bit_cycle`
and `read_write` (42_spi.md R75, R76), `reset`, `write_bit`, `read_bit` and the byte operations (43_onewire.md R90 to
R94). The sequencer is the machine; statements hold it against these. Neither phase nor position appears in them, and a
`delay` is taken to return. -/

namespace Sys2Proof.Machine

/-- `bit_cycle(l)` (R75). -/
def bitCycle (l : Level) (s : State) : Level × State :=
  let c := s.cfg
  let s := low (c.slot c.spiClk) s
  let s := write (c.slot c.spiMosi) l s
  let s := high (c.slot c.spiClk) s
  read (c.slot c.spiMiso) s

/-- `read_write(b)` (R76), giving the eight received levels that `recompose_msb` makes the result of. -/
def readWrite (b : Byte) (s : State) : LevelVec × State :=
  let c := s.cfg
  let s := if c.spiHasSs then low (c.slot c.spiSs) s else s
  let r := mapMsb b bitCycle s
  (r.1, if c.spiHasSs then high (c.slot c.spiSs) r.2 else r.2)

/-- `reset()` (R90), giving the sampled level. -/
def owReset (s : State) : Level × State :=
  let c := s.cfg
  let line := c.slot c.owLine
  let s := low line s
  let s := delay c.owClass.resetLow s
  let s := high line s
  let s := delay c.owClass.resetWait s
  read line s

/-- `write_bit(l)` (R92). -/
def writeBit (l : Level) (s : State) : State :=
  let c := s.cfg
  let line := c.slot c.owLine
  let s := low line s
  let s := delay (if l = .high then c.owClass.w1Low else c.owClass.w0Low) s
  high line s

/-- `read_bit()` (R93). -/
def readBit (s : State) : Level × State :=
  let c := s.cfg
  let line := c.slot c.owLine
  let s := low line s
  let s := delay c.owClass.rLow s
  let s := high line s
  let s := delay c.owClass.rWait s
  read line s

/-- `write_byte(b)` (R94): `write_bit` over the decomposition, in its order. -/
def writeByte (b : Byte) (s : State) : State :=
  (mapLevels (decompose s.cfg.owByteOrder b) (fun l s => ((), writeBit l s)) s).2

/-- `read_byte()` (R94), giving the eight received levels that `recompose` makes the result of. -/
def readByte (s : State) : LevelVec × State :=
  mapLevels (decompose s.cfg.owByteOrder 0) (fun _ s => readBit s) s

end Sys2Proof.Machine
end

