-- ==== Sys2Proof/Safety.lean ====
section
/-! DEFINITION. The words claims use: a pin expression by its leaf and its inversions, the events of an access, the
traces of the sequencer tables, a state that is ready for a command, and the invariant of the machine. -/

namespace Sys2Proof

/-- The leaf under the inversions of a pin expression. -/
def PinExpr.leaf : PinExpr → PinExpr
  | .ext p c => .ext p c
  | .inv e => e.leaf
  | .constHigh => .constHigh
  | .constLow => .constLow
  | .dummy => .dummy

/-- How many inversions stand on the path to the leaf. -/
def PinExpr.inversions : PinExpr → Nat
  | .ext _ _ => 0
  | .inv e => e.inversions + 1
  | .constHigh => 0
  | .constLow => 0
  | .dummy => 0

/-- A level negated `n` times. -/
def Level.notTimes : Nat → Level → Level
  | 0, l => l
  | n + 1, l => (Level.notTimes n l).not

namespace Machine

/-! ### Events of one access -/

/-- The events of a `drive`: one if the leaf is a port, its level negated once for each inversion, else none (R52). -/
def driveEvents (e : PinExpr) (l : Level) : List Event :=
  match e.port? with
  | some p => [.drive p (l.notTimes e.inversions)]
  | none => []

/-- The events of a `sample` the environment answers with `l`: one if the leaf is a port, with the environment's own
level, else none (R53). -/
def sampleEvents (e : PinExpr) (l : Level) : List Event :=
  match e.port? with
  | some p => [.sample p l]
  | none => []

/-- The level a pin expression returns where its leaf answers `l`. -/
def sampledLevel (e : PinExpr) (l : Level) : Level := l.notTimes e.inversions

/-- What the leaf of a pin expression answers to a sample in a state: the environment's level, or the fixed one (R53). -/
def leafAnswer (e : PinExpr) (s : State) : Level :=
  match e.leaf with
  | .ext p _ => (s.env.answer s.hist p).1
  | .inv _ => .low
  | .constHigh => .high
  | .constLow => .low
  | .dummy => s.cfg.dummyInLevel

/-- The environment after a sample through a pin expression. -/
def envAfter (e : PinExpr) (s : State) : Env :=
  match e.port? with
  | some p => (s.env.answer s.hist p).2
  | none => s.env

/-! ### Traces of the sequencer tables -/

/-- The events of one bit cycle with output level `l` where the leaf of data-in answers `r` (R75, R83). -/
def bitCycleEvents (c : Cfg) (l r : Level) : List Event :=
  driveEvents (c.slot c.spiClk) .low ++ driveEvents (c.slot c.spiMosi) l ++ driveEvents (c.slot c.spiClk) .high ++
    sampleEvents (c.slot c.spiMiso) r

/-- The events of a transfer of `b` where the leaf of data-in answers the levels `r`, in order (R83). -/
def transferEvents (c : Cfg) (b : Byte) (r : LevelVec) : List Event :=
  (if c.spiHasSs then driveEvents (c.slot c.spiSs) .low else []) ++
    (List.range 8).flatMap (fun k => bitCycleEvents c (bitLevel b (7 - k)) (levelAt r k)) ++
    (if c.spiHasSs then driveEvents (c.slot c.spiSs) .high else [])

/-- The 1-Wire line's pin expression. -/
def Cfg.line (c : Cfg) : PinExpr := c.slot c.owLine

/-- The events of `reset()` where the leaf of the line answers `r` (R90, R96). -/
def owResetEvents (c : Cfg) (r : Level) : List Event :=
  driveEvents (Cfg.line c) .low ++ [.delay (c.duration c.owClass.resetLow)] ++ driveEvents (Cfg.line c) .high ++
    [.delay (c.duration c.owClass.resetWait)] ++ sampleEvents (Cfg.line c) r

/-- The events of `write_bit(l)` (R92, R96). -/
def writeBitEvents (c : Cfg) (l : Level) : List Event :=
  driveEvents (Cfg.line c) .low ++
    [.delay (match l with | .high => c.duration c.owClass.w1Low | .low => c.duration c.owClass.w0Low)] ++
    driveEvents (Cfg.line c) .high

/-- The events of `read_bit()` where the leaf of the line answers `r` (R93, R96). -/
def readBitEvents (c : Cfg) (r : Level) : List Event :=
  driveEvents (Cfg.line c) .low ++ [.delay (c.duration c.owClass.rLow)] ++ driveEvents (Cfg.line c) .high ++
    [.delay (c.duration c.owClass.rWait)] ++ sampleEvents (Cfg.line c) r

/-- The events of a transfer of `b` before the sample of bit cycle `k`, where the leaf of data-in answered `r` to the
samples before it (R75, R83). -/
def eventsBeforeSample (c : Cfg) (b : Byte) (r : LevelVec) (k : Nat) : List Event :=
  (if c.spiHasSs then driveEvents (c.slot c.spiSs) .low else []) ++
    (List.range k).flatMap (fun j => bitCycleEvents c (bitLevel b (7 - j)) (levelAt r j)) ++
    (driveEvents (c.slot c.spiClk) .low ++ driveEvents (c.slot c.spiMosi) (bitLevel b (7 - k)) ++
      driveEvents (c.slot c.spiClk) .high)

/-- The events of a byte read before the sample of bit slot `k`, where the leaf of the line answered `r` to the samples
before it (R94, R96). -/
def eventsBeforeReadSample (c : Cfg) (r : LevelVec) (k : Nat) : List Event :=
  (List.range k).flatMap (fun j => readBitEvents c (levelAt r j)) ++
    (driveEvents (Cfg.line c) .low ++ [.delay (c.duration c.owClass.rLow)] ++ driveEvents (Cfg.line c) .high ++
      [.delay (c.duration c.owClass.rWait)])

/-- The levels `r` are what the leaf of a pin expression answers to eight samples from a state on, sample `k` taken after
the events `before k`, in the environment the samples before it left; `last` is the environment after all eight (R26,
R53). Where the leaf is no port, that is its fixed level eight times, and the environment as it was. -/
def AnswersInOrder (e : PinExpr) (s : State) (before : Nat → List Event) (r : LevelVec) (last : Env) : Prop :=
  ∃ env : Nat → Env, env 0 = s.env ∧ env 8 = last ∧
    ∀ (k : Nat) (hk : k < 8),
      r[k] = leafAnswer e { s with hist := s.hist ++ before k, env := env k } ∧
      env (k + 1) = envAfter e { s with hist := s.hist ++ before k, env := env k }

/-- Bit slot `k` of a byte command carries bit `k`, or bit `7-k` in the msb order (R28, R94). -/
def bitOfSlot (o : BitOrder) (k : Nat) : Nat :=
  match o with
  | .lsb => k
  | .msb => 7 - k

/-- The port an event is on; a `Delay` is on none (R24). -/
def Event.onPort : Event → Option Port
  | .drive p _ => some p
  | .sample p _ => some p
  | .delay _ => none

/-- Whether an event is a `Delay`. -/
def Event.isDelay : Event → Bool
  | .drive _ _ => false
  | .sample _ _ => false
  | .delay _ => true

/-- The external ports bound to a list of slots. -/
def portsOf (c : Cfg) (slots : List Nat) : List Port := slots.filterMap fun s => (c.slot s).port?

/-- The named checks of R11 and the ranges of R9 and R10, spelled out. -/
structure ConfigOk (c : Cfg) : Prop where
  slotCount : 1 ≤ c.pinCfg.length ∧ c.pinCfg.length ≤ 256
  capsNonempty : ∀ e ∈ c.pinCfg, e.has .out = true ∨ e.has .inp = true
  slotsInRange :
    (c.spiPresent = true →
      c.spiClk < c.pinCfg.length ∧ c.spiMosi < c.pinCfg.length ∧ c.spiMiso < c.pinCfg.length ∧
        (c.spiHasSs = true → c.spiSs < c.pinCfg.length)) ∧
    (c.owPresent = true → c.owLine < c.pinCfg.length)
  spiCaps : c.spiPresent = true →
    (c.slot c.spiClk).has .out = true ∧ (c.slot c.spiMosi).has .out = true ∧ (c.slot c.spiMiso).has .inp = true ∧
      (c.spiHasSs = true → (c.slot c.spiSs).has .out = true)
  owCaps : c.owPresent = true → (c.slot c.owLine).has .out = true ∧ (c.slot c.owLine).has .inp = true
  rolesDistinct : c.roles.Nodup
  portsDistinct : ∀ (i j : Nat) (e f : PinExpr) (p : Port), i ≠ j → c.pinCfg[i]? = some e → c.pinCfg[j]? = some f →
    e.port? = some p → f.port? ≠ some p
  durationsDistinct : c.tShort ≠ c.tMedium ∧ c.tShort ≠ c.tLong ∧ c.tShort ≠ c.tReset ∧ c.tMedium ≠ c.tLong ∧
    c.tMedium ≠ c.tReset ∧ c.tLong ≠ c.tReset
  writeClassesDistinct : c.owClass.w1Low ≠ c.owClass.w0Low

/-- The `OP` values that are in no row of the opcode map (R44). -/
def UnassignedOp (op : Nat) : Prop :=
  op = 0x00 ∨ (0x05 ≤ op ∧ op ≤ 0x0F) ∨ (0x14 ≤ op ∧ op ≤ 0x1F) ∨ (0x22 ≤ op ∧ op ≤ 0x2F) ∨
    (0x35 ≤ op ∧ op ≤ 0x3E) ∨ 0x40 ≤ op

/-! ### Families of commands -/

/-- A command on a slot, with the slot and the capability it needs (R57 to R60). -/
inductive IsPin : Instr → Nat → Cap → Prop where
  | high (s : Nat) : IsPin (.pinHigh s) s .out
  | low (s : Nat) : IsPin (.pinLow s) s .out
  | write (s : Nat) (l : Level) : IsPin (.pinWrite s l) s .out
  | read (s : Nat) : IsPin (.pinRead s) s .inp

/-- A command of the bit-order unit (R70 to R73). -/
inductive IsBits : Instr → Prop where
  | dmsb (b : Byte) : IsBits (.bitsDmsb b)
  | dlsb (b : Byte) : IsBits (.bitsDlsb b)
  | rmsb (v : LevelVec) : IsBits (.bitsRmsb v)
  | rlsb (v : LevelVec) : IsBits (.bitsRlsb v)

/-- A command of the SPI engine (R85, R86). -/
inductive IsSpi : Instr → Prop where
  | xfer (b : Byte) : IsSpi (.spiXfer b)
  | write (b : Byte) : IsSpi (.spiWrite b)

/-- A command of the 1-Wire engine, with the number of delays it makes (R96 to R101). -/
inductive IsOw : Instr → Nat → Prop where
  | reset : IsOw .owReset 2
  | wbit (l : Level) : IsOw (.owWbit l) 1
  | rbit : IsOw .owRbit 2
  | wbyte (b : Byte) : IsOw (.owWbyte b) 8
  | rbyte : IsOw .owRbyte 16

/-! ### Ready states -/

/-- A well-formed instance with no command in flight: what every command needs to be performed (R5, R11). -/
structure State.Ready (s : State) : Prop where
  wellFormed : s.cfg.WellFormed
  idle : s.busy = false

/-- Whether the next `d` calls of the timing source return (R110, R118). -/
def Timing.allows (d : Nat) : Timing → Bool
  | .returns => true
  | .hangsAfter n => decide (d ≤ n)
  | .hung => false

/-- The port after a command: no command in flight, and the response (R40). -/
structure State.Answered (r : Response) (t : State) : Prop where
  idle : t.busy = false
  inflight : t.inflight = none
  response : t.response = some r

/-! ### The invariant -/

/-- Where the SPI sequencer may stand, phase by phase (R14, R20, R74, R83). -/
def SpiAt (c : Cfg) (x : SpiState) : Prop :=
  match x.phase with
  | .idle => False
  | .selectAsserted => c.spiHasSs = true ∧ x.seq = 0
  | .bitCycle => spiOffset c ≤ x.seq ∧ x.seq < spiOffset c + 32
  | .selectDeasserted => c.spiHasSs = true ∧ x.seq = 33

/-- Where the 1-Wire sequencer may stand, command by command (R16, R20, R87, R96). -/
def OwAt (op : OwOp) (x : OwState) : Prop :=
  match op with
  | .reset => x.phase = .reset ∧ x.seq < 5
  | .wbit => x.phase = .bitOp ∧ x.seq < 3
  | .rbit => x.phase = .bitOp ∧ x.seq < 5
  | .wbyte => x.phase = .byteOp ∧ x.seq < 3 ∧ x.bitidx < 8
  | .rbyte => x.phase = .byteOp ∧ x.seq < 5 ∧ x.bitidx < 8

/-- The engines and the command in flight agree: with none, both are `Idle` (R14, R16); with one, its engine is present
and within its sequence, and the other is `Idle` (R5, R20). -/
def State.SequencerOk (s : State) : Prop :=
  match s.inflight with
  | none => s.spi.phase = .idle ∧ s.ow.phase = .idle
  | some (.spi _) => s.cfg.spiPresent = true ∧ s.ow.phase = .idle ∧ SpiAt s.cfg s.spi
  | some (.ow op) => s.cfg.owPresent = true ∧ s.spi.phase = .idle ∧ OwAt op s.ow

/-- The invariant of the machine. -/
structure State.Inv (s : State) : Prop where
  /-- The instance is well-formed (R11). -/
  wellFormed : s.cfg.WellFormed
  /-- Phases, positions and the command in flight agree. -/
  sequencer : s.SequencerOk
  /-- The positions stay in the ranges R14, R16 and R20 give them. -/
  spiSeq : s.spi.seq ≤ 34
  owSeq : s.ow.seq ≤ 5
  owBitidx : s.ow.bitidx ≤ 8
  /-- A command in flight has no response yet (R5, R40). -/
  noResponse : s.inflight ≠ none → s.response = none
  /-- Every `Delay` has one of the four durations (R88, R110). -/
  delays : ∀ us, Event.delay us ∈ s.hist → us ∈ s.cfg.durations
  /-- Only a 1-Wire command in flight can be waiting in the timing source (R110, R118). -/
  waiting : s.timing = .hung → s.ow.phase ≠ .idle
  /-- The last identifier has `OW_ID_BITS` bits (R17). -/
  lastId : s.owsearch.lastId < 2 ^ s.cfg.owIdBits

end Machine

end Sys2Proof
end

