-- ==== Sys2Proof/Certificates/Slice0/Obligations.lean ====
section
/-! DEFINITION. The statements for the provers. Each docstring names the rules of spec/ a statement rests on. -/

open Sys2Proof Sys2Proof.Machine

/-! ### Encoding -/

/-- Fifteen words written out from R39, R41 and R43: thirteen decode to the command they stand for, and two to the
refusals `NonzeroReserved` (R45) and `UnknownOp` (R44). That the command of a word of `OW.SEARCH` keeps the two bytes,
which the spec does not interpret, is the model's choice (log entry 14). -/
def Obligations.WrittenWordsDecode : Prop :=
  decode 0x010200 = .ok (.pinHigh 2) ∧ decode 0x02FF00 = .ok (.pinLow 255) ∧
  decode 0x030280 = .ok (.pinWrite 2 .high) ∧ decode 0x030200 = .ok (.pinWrite 2 .low) ∧
  decode 0x040300 = .ok (.pinRead 3) ∧
  decode 0x100096 = .ok (.bitsDmsb 0x96) ∧
  decode 0x120069 = .ok (.bitsRmsb #v[.high, .low, .low, .high, .low, .high, .high, .low]) ∧
  decode 0x2000A5 = .ok (.spiXfer 0xA5) ∧ decode 0x2100A5 = .ok (.spiWrite 0xA5) ∧
  decode 0x300000 = .ok .owReset ∧ decode 0x3100FF = .ok (.owWbit .high) ∧ decode 0x3300CC = .ok (.owWbyte 0xCC) ∧
  decode 0x3FABCD = .ok (.owSearch 0xAB 0xCD) ∧
  decode 0x300001 = .error .nonzeroReserved ∧ decode 0x000000 = .error .unknownOp

/-- Decoding the word of a well-formed command gives the command back: all sixteen commands, every operand (R39, R41,
R43). -/
def Obligations.DecodeOfEncodeIsIdentity : Prop :=
  ∀ i : Instr, i.wellFormed = true → decode (encode i) = .ok i

/-- A word decodes to a command of a row exactly when `w and mask = match` for that row; the rows are disjoint (R43).
Its operands are those of R41, for every `A` and every `B`: the slot is `A` as an unsigned number, a byte is `B`, a level
is `Low` exactly when `B = 0`, so `High` for every other byte, and element `k` of a level vector is `High` exactly when
bit `k` of `B` is set (R57 to R60, R70 to R73, R85, R86, R97 to R101). -/
def Obligations.WordsDecodeByTheirRow : Prop :=
  (∀ (w : CmdWord) (i : Instr), decode w = .ok i → i.wellFormed = true ∧ i.row ∈ opcodeMap ∧ i.row.covers w = true) ∧
  (∀ (w : CmdWord) (r : OpRow), r ∈ opcodeMap → r.covers w = true → ∃ i, decode w = .ok i ∧ i.row = r) ∧
  (∀ (w : CmdWord) (r q : OpRow), r ∈ opcodeMap → q ∈ opcodeMap → r.covers w = true → q.covers w = true → r = q) ∧
  (∀ a b : Byte,
    decode ((0x01 : Byte) ++ a ++ (0 : Byte)) = .ok (.pinHigh a.toNat) ∧
    decode ((0x02 : Byte) ++ a ++ (0 : Byte)) = .ok (.pinLow a.toNat) ∧
    (∃ l, decode ((0x03 : Byte) ++ a ++ b) = .ok (.pinWrite a.toNat l) ∧ (l = .low ↔ b = 0)) ∧
    decode ((0x04 : Byte) ++ a ++ (0 : Byte)) = .ok (.pinRead a.toNat) ∧
    decode ((0x10 : Byte) ++ (0 : Byte) ++ b) = .ok (.bitsDmsb b) ∧
    decode ((0x11 : Byte) ++ (0 : Byte) ++ b) = .ok (.bitsDlsb b) ∧
    (∃ v, decode ((0x12 : Byte) ++ (0 : Byte) ++ b) = .ok (.bitsRmsb v) ∧
      ∀ (k : Nat) (hk : k < 8), v[k] = .high ↔ b.getLsbD k = true) ∧
    (∃ v, decode ((0x13 : Byte) ++ (0 : Byte) ++ b) = .ok (.bitsRlsb v) ∧
      ∀ (k : Nat) (hk : k < 8), v[k] = .high ↔ b.getLsbD k = true) ∧
    decode ((0x20 : Byte) ++ (0 : Byte) ++ b) = .ok (.spiXfer b) ∧
    decode ((0x21 : Byte) ++ (0 : Byte) ++ b) = .ok (.spiWrite b) ∧
    decode ((0x30 : Byte) ++ (0 : Byte) ++ (0 : Byte)) = .ok .owReset ∧
    (∃ l, decode ((0x31 : Byte) ++ (0 : Byte) ++ b) = .ok (.owWbit l) ∧ (l = .low ↔ b = 0)) ∧
    decode ((0x32 : Byte) ++ (0 : Byte) ++ (0 : Byte)) = .ok .owRbit ∧
    decode ((0x33 : Byte) ++ (0 : Byte) ++ b) = .ok (.owWbyte b) ∧
    decode ((0x34 : Byte) ++ (0 : Byte) ++ (0 : Byte)) = .ok .owRbyte)

/-- A word with an unassigned `OP` is refused with `UnknownOp`: no event, no state change, response 0x0100 (R44). -/
def Obligations.UnassignedOpcodesAreRefused : Prop :=
  ∀ (s : State) (w : CmdWord) (rest : List CmdWord), s.Ready → s.cmds = w :: rest →
    UnassignedOp (opField w).toNat →
    step s = .next { s with cmds := rest, response := some (.refused .unknownOp) } ∧
      (Response.refused .unknownOp).word = 0x0100

/-- A word with an assigned `OP` and a nonzero bit in a must-be-zero field is refused with `NonzeroReserved` (R45). The
must-be-zero fields of a row are the bits of `A` and `B` that its mask covers (R39, R43). -/
def Obligations.NonzeroReservedFieldsAreRefused : Prop :=
  ∀ (s : State) (w : CmdWord) (rest : List CmdWord) (r : OpRow), s.Ready → s.cmds = w :: rest → r ∈ opcodeMap →
    opField w = opField r.pattern → w &&& r.mask &&& 0x00FFFF ≠ 0 →
    step s = .next { s with cmds := rest, response := some (.refused .nonzeroReserved) } ∧
      (Response.refused .nonzeroReserved).word = 0x0100

/-- Every word with `OP = 0x3F`, whatever `A` and `B`, is refused with `Unimplemented`: no event, `owsearch.last_id`
untouched, present 1-Wire engine or not (R46, R102). -/
def Obligations.SearchIsAlwaysRefused : Prop :=
  (∀ (s : State) (a b : Byte), s.Ready →
    exec (.owSearch a b) s = .next { s with response := some (.refused .unimplemented) }) ∧
  (∀ (s : State) (w : CmdWord) (rest : List CmdWord), s.Ready → s.cmds = w :: rest → opField w = 0x3F →
    step s = .next { s with cmds := rest, response := some (.refused .unimplemented) }) ∧
  (Response.refused .unimplemented).word = 0x0100

/-! ### The step -/

/-- When the next word the host issues decodes to a command, a step of a ready block is that command's meaning in the
state with the word taken (R5, R7). That one step performs the whole command is the model's choice (log entry 9). -/
def Obligations.StepRunsTheDecodedCommand : Prop :=
  ∀ (s : State) (w : CmdWord) (rest : List CmdWord) (i : Instr), s.Ready → s.cmds = w :: rest → decode w = .ok i →
    step s = exec i { s with cmds := rest }

/-- A ready block with no command issued waits (R115): the step leaves every field as it is. -/
def Obligations.ReadyBlockWaitsForACommand : Prop :=
  ∀ s : State, s.Ready → s.cmds = [] → step s = .next s

/-- With a command in flight a step is the next position of the sequencer (R20), and no command word is taken (R5); in a
`Delay` that never returns the machine is stuck (R118). -/
def Obligations.StepInFlightIsTheNextPosition : Prop :=
  ∀ s : State, s.cfg.WellFormed → s.busy = true →
    (s.blocked = false → step s = .next (tick s) ∧ (tick s).cmds = s.cmds) ∧
    (s.blocked = true → step s = .fault .timingSourceHung)

/-- An instance is refused exactly when one of the named checks fails. The checks are those of R11 and, as log entry 13
reads them, the ranges of R9 and R10; that a step and every command refuse the instance, before anything else, is the
model's choice (log entry 13). -/
def Obligations.IllFormedInstancesAreRefused : Prop :=
  ∀ s : State,
    (¬ ConfigOk s.cfg ↔ ∃ k, step s = .refused (.illFormedConfig k)) ∧
    (¬ ConfigOk s.cfg → ∀ i : Instr, ∃ k, exec i s = .refused (.illFormedConfig k))

/-- A command's meaning answers a next state exactly in a ready state: the next command is accepted only after the
response (R5), by a well-formed instance (R11). That a meaning asked for while another command is in flight refuses it by
the name `commandInFlight` is the model's (log entry 13); `step` never asks for one. -/
def Obligations.CommandsAreAcceptedExactlyWhenReady : Prop :=
  ∀ (i : Instr) (s : State),
    ((∃ t, exec i s = .next t) ↔ s.Ready) ∧
    (s.cfg.WellFormed → s.busy = true → exec i s = .refused .commandInFlight)

/-- After reset both engines are `Idle`, the history is empty and the block is ready (R23, R114, R115). That nothing
is issued and no response stands there is the model's choice (log entry 3). -/
def Obligations.ResetLeavesTheBlockReady : Prop :=
  State.reset.spi.phase = .idle ∧ State.reset.ow.phase = .idle ∧ State.reset.hist = [] ∧
    State.reset.inflight = none ∧ State.reset.Ready ∧ State.reset.cmds = [] ∧ State.reset.response = none

/-! ### Levels and bit order -/

/-- The conversions between levels, bytes and booleans (R4). -/
def Obligations.LevelsAndBytesConvert : Prop :=
  levelOfByte 0 = .low ∧ (∀ v : Byte, v ≠ 0 → levelOfByte v = .high) ∧
  byteOfLevel .low = 0 ∧ byteOfLevel .high = 1 ∧
  (∀ l : Level, levelOfByte (byteOfLevel l) = l) ∧
  (∀ v : Byte, byteOfLevel (levelOfByte v) = v ↔ v = 0 ∨ v = 1) ∧
  (∀ v : Byte, v ≠ 0 → byteOfLevel (levelOfByte v) = 1) ∧
  levelOfBool true = .high ∧ levelOfBool false = .low

/-- The four conversion functions, bit by bit (R62, R63, R64, R65). -/
def Obligations.ConversionFunctionsBitByBit : Prop :=
  ∀ (b : Byte) (v : LevelVec) (k : Nat) (hk : k < 8),
    ((decomposeMsb b)[k] = .high ↔ b.getLsbD (7 - k) = true) ∧
    ((decomposeLsb b)[k] = .high ↔ b.getLsbD k = true) ∧
    ((recomposeMsb v).getLsbD (7 - k) = true ↔ v[k] = .high) ∧
    ((recomposeLsb v).getLsbD k = true ↔ v[k] = .high)

/-- Round trips in both directions, and the mixed compositions are bit reversal (R66). -/
def Obligations.BitOrderRoundTrips : Prop :=
  (∀ b : Byte, recomposeMsb (decomposeMsb b) = b ∧ recomposeLsb (decomposeLsb b) = b) ∧
  (∀ v : LevelVec, decomposeMsb (recomposeMsb v) = v ∧ decomposeLsb (recomposeLsb v) = v) ∧
  (∀ b : Byte, recomposeLsb (decomposeMsb b) = b.reverse ∧ recomposeMsb (decomposeLsb b) = b.reverse)

/-- `decompose_msb(b)` reversed equals `decompose_lsb(b)` (R67). -/
def Obligations.DecompositionsMirrorEachOther : Prop :=
  ∀ b : Byte, (decomposeMsb b).toList.reverse = (decomposeLsb b).toList

/-- The ordered transform applies `f` eight times, element 0 first, each application in the state the one before it left;
the order is the decomposition's own (R68). -/
def Obligations.OrderedTransformRunsInOrder : Prop :=
  ∀ (α σ : Type) (b : Byte) (f : Level → σ → α × σ) (s : σ),
    (∃ st : Fin 9 → σ, st 0 = s ∧ (mapMsb b f s).2 = st 8 ∧
      ∀ (k : Nat) (hk : k < 8), f (bitLevel b (7 - k)) (st ⟨k, by omega⟩) = ((mapMsb b f s).1[k], st ⟨k + 1, by omega⟩)) ∧
    (∃ st : Fin 9 → σ, st 0 = s ∧ (mapLsb b f s).2 = st 8 ∧
      ∀ (k : Nat) (hk : k < 8), f (bitLevel b k) (st ⟨k, by omega⟩) = ((mapLsb b f s).1[k], st ⟨k + 1, by omega⟩))

/-- `BITS.DMSB` and `BITS.DLSB` complete in every ready state, for every byte, with no event and the vector packed
element `k` in bit `k` (R42, R70, R71). -/
def Obligations.DecomposeCommandsAnswer : Prop :=
  ∀ (s : State) (b : Byte), s.Ready →
    (∃ v : Byte, exec (.bitsDmsb b) s = .next { s with inflight := none, response := some (.ok v) } ∧
      ∀ k, k < 8 → v.getLsbD k = b.getLsbD (7 - k)) ∧
    exec (.bitsDlsb b) s = .next { s with inflight := none, response := some (.ok b) }

/-- `BITS.RMSB` and `BITS.RLSB` complete in every ready state, for every level vector, with no event (R72, R73). -/
def Obligations.RecomposeCommandsAnswer : Prop :=
  ∀ (s : State) (v : LevelVec), s.Ready →
    (∃ b : Byte, exec (.bitsRmsb v) s = .next { s with inflight := none, response := some (.ok b) } ∧
      ∀ (k : Nat) (hk : k < 8), levelOfBool (b.getLsbD (7 - k)) = v[k]) ∧
    (∃ b : Byte, exec (.bitsRlsb v) s = .next { s with inflight := none, response := some (.ok b) } ∧
      ∀ (k : Nat) (hk : k < 8), levelOfBool (b.getLsbD k) = v[k])

/-! ### Pins -/

/-- `PIN.HIGH`, `PIN.LOW` and `PIN.WRITE` on a free slot with the Output capability: the events of the drive (one with
the level negated once for each inversion where the leaf is a port, none on a `Dummy`), response 0x0000, and nothing
else (R52, R57, R58, R59). -/
def Obligations.PinDriveCommandsComplete : Prop :=
  ∀ (s : State) (slot : Nat) (l : Level), s.Ready → slot < s.cfg.nSlots → s.cfg.owned slot = false →
    (s.cfg.slot slot).has .out = true →
    exec (.pinHigh slot) s = .next { s with
      hist := s.hist ++ driveEvents (s.cfg.slot slot) .high, inflight := none, response := some (.ok 0) } ∧
    exec (.pinLow slot) s = .next { s with
      hist := s.hist ++ driveEvents (s.cfg.slot slot) .low, inflight := none, response := some (.ok 0) } ∧
    exec (.pinWrite slot l) s = .next { s with
      hist := s.hist ++ driveEvents (s.cfg.slot slot) l, inflight := none, response := some (.ok 0) }

/-- `PIN.READ` on a free slot with the Input capability: the event records the leaf's answer, the response carries it
negated once for each inversion, and nothing else changes but the environment's script (R53, R60). -/
def Obligations.PinReadCommandCompletes : Prop :=
  ∀ (s : State) (slot : Nat), s.Ready → slot < s.cfg.nSlots → s.cfg.owned slot = false →
    (s.cfg.slot slot).has .inp = true →
    exec (.pinRead slot) s = .next { s with
      hist := s.hist ++ sampleEvents (s.cfg.slot slot) (leafAnswer (s.cfg.slot slot) s),
      env := envAfter (s.cfg.slot slot) s, inflight := none,
      response := some (.ok (byteOfLevel (sampledLevel (s.cfg.slot slot) (leafAnswer (s.cfg.slot slot) s)))) }

/-- `check_pin`, for the four `PIN` commands: `BadSlot`, then `SlotOwned`, then `NoCapability`, and a refused command
leaves everything but the response as it was (R61). A slot is owned when an engine that is present has it in a role. -/
def Obligations.PinCommandsAreChecked : Prop :=
  (∀ (i : Instr) (slot : Nat) (need : Cap) (s : State), IsPin i slot need → s.Ready →
    (s.cfg.nSlots ≤ slot → exec i s = .next { s with response := some (.refused .badSlot) }) ∧
    (slot < s.cfg.nSlots → s.cfg.owned slot = true → exec i s = .next { s with response := some (.refused .slotOwned) }) ∧
    (slot < s.cfg.nSlots → s.cfg.owned slot = false → (s.cfg.slot slot).has need = false →
      exec i s = .next { s with response := some (.refused .noCapability) }) ∧
    (slot < s.cfg.nSlots → s.cfg.owned slot = false → (s.cfg.slot slot).has need = true →
      ∃ t v, exec i s = .next t ∧ t.response = some (.ok v))) ∧
  (∀ (c : Cfg) (slot : Nat), c.owned slot = true ↔
    (c.spiPresent = true ∧ (slot = c.spiClk ∨ slot = c.spiMosi ∨ slot = c.spiMiso ∨ (c.spiHasSs = true ∧ slot = c.spiSs))) ∨
      (c.owPresent = true ∧ slot = c.owLine))

/-- Two inversions act as none, for a drive and for a sample; `n` nested ones as one when `n` is odd and as none when
`n` is even (R54). -/
def Obligations.InversionIsAnInvolution : Prop :=
  ∀ (e : PinExpr) (l : Level) (s : State),
    drive (.inv (.inv e)) l s = drive e l s ∧ sample (.inv (.inv e)) s = sample e s ∧
    ∀ n : Nat,
      (n % 2 = 0 → drive (Nat.repeat PinExpr.inv n e) l s = drive e l s ∧
        sample (Nat.repeat PinExpr.inv n e) s = sample e s) ∧
      (n % 2 = 1 → drive (Nat.repeat PinExpr.inv n e) l s = drive (.inv e) l s ∧
        sample (Nat.repeat PinExpr.inv n e) s = sample (.inv e) s)

/-- The environments. Those R26 names: a stuck port always answers its level; a loopback answers the level last driven on its
source, whatever came in between; the presence environment answers `Low` after a release and a delay, samples left out,
and the level last driven right after a drive. That a port without a rule takes the next scripted answer is the model's
form (log entry 4) of the scripted environments of 95_test_vectors.md. -/
def Obligations.NamedEnvironmentsAnswer : Prop :=
  ∀ (e : Env) (h evs : List Event) (p po : Port) (l : Level) (us : Nat),
    (e.rules.lookup p = some (.stuck l) → e.answer h p = (l, e)) ∧
    (e.rules.lookup p = some (.loopback po) → (∀ k, Event.drive po k ∉ evs) →
      e.answer (h ++ [.drive po l] ++ evs) p = (l, e)) ∧
    (e.rules.lookup p = some .presenceAfterDelay → (∀ ev ∈ evs, ∃ q k, ev = Event.sample q k) →
      e.answer (h ++ [.drive p .high, .delay us] ++ evs) p = (.low, e) ∧
      e.answer (h ++ [.drive p l] ++ evs) p = (l, e)) ∧
    (∀ ls, e.rules.lookup p = none → e.script = l :: ls → e.answer h p = (l, { e with script := ls }))

/-- Constants and `Dummy` are inert (R56): any sequence of writes through a pin expression whose leaf is no port changes
nothing at all; a sample returns the leaf's fixed level, negated under an odd number of inversions, whatever the history,
the environment and the rest of the state, and neither adds an event nor consults the environment. A
write through a constant, which the spec never makes (R52), does nothing in the model (log entry 12); R56 says it of
`Dummy`. -/
def Obligations.ConstantsAndDummyAreInert : Prop :=
  (∀ (e : PinExpr) (s : State) (ls : List Level), e.port? = none → ls.foldl (fun t l => write e l t) s = s) ∧
  (∀ s : State, sample .constHigh s = (.high, s) ∧ sample .constLow s = (.low, s) ∧
    sample .dummy s = (s.cfg.dummyInLevel, s)) ∧
  (∀ (e : PinExpr) (s t : State), e.port? = none → s.cfg.dummyInLevel = t.cfg.dummyInLevel →
    (sample e s).1 = (sample e t).1 ∧ (sample e s).2 = s) ∧
  (∀ (e : PinExpr) (s : State), e.port? = none →
    (sample e s).1 = if e.inversions % 2 = 0 then (sample e.leaf s).1 else (sample e.leaf s).1.not)

/-- Frame of the `PIN` commands: a next state keeps the configuration, both engines' states, the search context, the
host's words, the timing source and the environment's rules; the events it adds are on the slot's own port; only a read
moves the environment's script. -/
def Obligations.PinCommandsFrame : Prop :=
  ∀ (i : Instr) (slot : Nat) (need : Cap) (s t : State), IsPin i slot need → exec i s = .next t →
    t.cfg = s.cfg ∧ t.spi = s.spi ∧ t.ow = s.ow ∧ t.owsearch = s.owsearch ∧ t.cmds = s.cmds ∧ t.timing = s.timing ∧
    (t.inflight = s.inflight ∨ t.inflight = none) ∧
    t.env.rules = s.env.rules ∧ t.env.script <:+ s.env.script ∧ (need = .out → t.env = s.env) ∧
    ∃ evs : List Event, t.hist = s.hist ++ evs ∧ evs.length ≤ 1 ∧
      ∀ ev ∈ evs, ∃ p, Event.onPort ev = some p ∧ (s.cfg.slot slot).port? = some p

/-- Frame of the `BITS` commands: a next state differs in the response, and in that no command is in flight, alone. -/
def Obligations.BitsCommandsFrame : Prop :=
  ∀ (i : Instr) (s t : State), IsBits i → exec i s = .next t →
    t = { s with inflight := none, response := t.response } ∧ ∃ v, t.response = some (.ok v)

/-! ### The SPI engine -/

/-- `SPI.XFER b` completes in every ready state with an SPI engine, and is `read_write(b)`: the sequencer's run ends in
the state the pseudocode of R75 and R76 ends in, the engine `Idle` again, the response the recomposed byte (R85). The
values the transient registers are left with are the model's (log entry 2). -/
def Obligations.SpiXferRefinesReadWrite : Prop :=
  ∀ (s : State) (b : Byte), s.Ready → s.cfg.spiPresent = true →
    let r := readWrite b s
    exec (.spiXfer b) s = .next { r.2 with
      spi := { phase := .idle, seq := spiLength s.cfg, tx := b, rx := r.1 }, inflight := none,
      response := some (.ok (recomposeMsb r.1)) }

/-- `SPI.WRITE b` is the same transfer with the received byte discarded: the state of `SPI.XFER b`, response 0x0000
(R86). -/
def Obligations.SpiWriteIsXferDiscarded : Prop :=
  ∀ (s : State) (b : Byte), s.Ready → s.cfg.spiPresent = true →
    ∃ t, exec (.spiXfer b) s = .next t ∧ exec (.spiWrite b) s = .next { t with response := some (.ok 0) }

/-- The sequencer table (R83). For every binding of the roles, a transfer appends exactly the events of the table, with
silent steps and negations as the pin expressions give them. The levels received are the leaf's answers to the eight
samples, each in the history and the environment it is taken in (a fixed level where data-in has no port), and the result
is the byte recomposed from them; with every role a plain port there are `32 + 2o` events, each at its position. -/
def Obligations.SpiTransferFollowsTheSequencerTable : Prop :=
  ∀ (s : State) (b : Byte), s.Ready → s.cfg.spiPresent = true →
    ∃ (t : State) (r : LevelVec),
      exec (.spiXfer b) s = .next t ∧ t.hist = s.hist ++ transferEvents s.cfg b r ∧
      AnswersInOrder (s.cfg.slot s.cfg.spiMiso) s (eventsBeforeSample s.cfg b r) r t.env ∧
      t.response = some (.ok (recomposeMsb (r.map (sampledLevel (s.cfg.slot s.cfg.spiMiso))))) ∧
      ∀ (clk mosi miso ss : Port) (c1 c2 c3 c4 : Caps),
        s.cfg.slot s.cfg.spiClk = .ext clk c1 → s.cfg.slot s.cfg.spiMosi = .ext mosi c2 →
        s.cfg.slot s.cfg.spiMiso = .ext miso c3 → (s.cfg.spiHasSs = true → s.cfg.slot s.cfg.spiSs = .ext ss c4) →
        let evs := transferEvents s.cfg b r
        let o := if s.cfg.spiHasSs then 1 else 0
        evs.length = 32 + 2 * o ∧
        (s.cfg.spiHasSs = true → evs[0]? = some (.drive ss .low) ∧ evs[33]? = some (.drive ss .high)) ∧
        (∀ (k : Nat) (hk : k < 8),
          evs[o + 4 * k]? = some (.drive clk .low) ∧ evs[o + 4 * k + 1]? = some (.drive mosi (bitLevel b (7 - k))) ∧
          evs[o + 4 * k + 2]? = some (.drive clk .high) ∧ evs[o + 4 * k + 3]? = some (.sample miso r[k])) ∧
        t.response = some (.ok (recomposeMsb r))

/-- A scripted device: where no rule governs data-in's port and the script begins with eight levels, those are the
samples of the transfer, in order, and the script is eight answers shorter after it (R26, R76; 95_test_vectors.md S2). The
script is the model's form of a scripted environment (log entry 4). -/
def Obligations.SpiReceivesTheScriptedByte : Prop :=
  ∀ (s : State) (b : Byte) (r : LevelVec) (rest : List Level) (p : Port), s.Ready → s.cfg.spiPresent = true →
    (s.cfg.slot s.cfg.spiMiso).port? = some p → s.env.rules.lookup p = none → s.env.script = r.toList ++ rest →
    ∃ t, exec (.spiXfer b) s = .next t ∧ t.hist = s.hist ++ transferEvents s.cfg b r ∧ t.env.script = rest ∧
      t.response = some (.ok (recomposeMsb (r.map (sampledLevel (s.cfg.slot s.cfg.spiMiso)))))

/-- Select bracketing (R77): with a select line on a port, the first event of a transfer drives that port low and the last
drives it high (levels negated once for each inversion), and no other event is on that port. -/
def Obligations.SpiSelectBracketsTheByte : Prop :=
  ∀ (i : Instr) (s t : State) (p : Port), IsSpi i → s.cfg.spiPresent = true → s.cfg.spiHasSs = true →
    (s.cfg.slot s.cfg.spiSs).port? = some p → exec i s = .next t →
    let n := (s.cfg.slot s.cfg.spiSs).inversions
    ∃ mid : List Event,
      t.hist = s.hist ++ ([.drive p (Level.low.notTimes n)] ++ mid ++ [.drive p (Level.high.notTimes n)]) ∧
      ∀ ev ∈ mid, Event.onPort ev ≠ some p

/-- Without a select line `SPI_SS` is not read, and a select bound to a pin expression without a port has the trace and
the response of the engine without one (R78). -/
def Obligations.SpiWithoutSelectHasNoBracket : Prop :=
  ∀ (s : State) (b : Byte) (n : Nat), s.Ready → s.cfg.spiPresent = true →
    (s.cfg.spiHasSs = false →
      ∃ t u, exec (.spiXfer b) s = .next t ∧
        exec (.spiXfer b) { s with cfg := { s.cfg with spiSs := n } } = .next u ∧
        u.hist = t.hist ∧ u.response = t.response) ∧
    (s.cfg.spiHasSs = true → (s.cfg.slot s.cfg.spiSs).port? = none →
      ∃ t u, exec (.spiXfer b) s = .next t ∧
        exec (.spiXfer b) { s with cfg := { s.cfg with spiHasSs := false } } = .next u ∧
        u.hist = t.hist ∧ u.response = t.response)

/-- The two variants emit the same events and return the same byte for the same operand and environment (R79). -/
def Obligations.SpiVariantsBehaveAlike : Prop :=
  ∀ (i : Instr) (s : State), IsSpi i → s.Ready →
    ∃ t u, exec i { s with cfg := { s.cfg with spiVariant := .master } } = .next t ∧
      exec i { s with cfg := { s.cfg with spiVariant := .serial } } = .next u ∧
      u.hist = t.hist ∧ u.response = t.response ∧ u.env = t.env

/-- Line levels after a transfer (R82): the clock is left at `High`, data-out at the level of bit 0 of the operand, the
select at `High`, each negated once for each inversion. -/
def Obligations.SpiLeavesTheClockHigh : Prop :=
  ∀ (s : State) (b : Byte), s.Ready → s.cfg.spiPresent = true →
    ∃ t, exec (.spiXfer b) s = .next t ∧
      (∀ p, (s.cfg.slot s.cfg.spiClk).port? = some p →
        lastDrive p t.hist = some (Level.high.notTimes (s.cfg.slot s.cfg.spiClk).inversions)) ∧
      (∀ p, (s.cfg.slot s.cfg.spiMosi).port? = some p →
        lastDrive p t.hist = some ((bitLevel b 0).notTimes (s.cfg.slot s.cfg.spiMosi).inversions)) ∧
      (∀ p, s.cfg.spiHasSs = true → (s.cfg.slot s.cfg.spiSs).port? = some p →
        lastDrive p t.hist = some (Level.high.notTimes (s.cfg.slot s.cfg.spiSs).inversions))

/-- Full-duplex fidelity (R84): in `Loopback(mosi, miso)` the result is the operand, or its complement where an odd number
of inversions stands on the two lines together; in `Stuck(miso, l)` it is 0xFF or 0x00 for every operand; with data-in
bound to `ConstHigh` it is 0xFF and the trace has no `Sample`. -/
def Obligations.SpiLoopbackReturnsTheOperand : Prop :=
  ∀ (s : State) (b : Byte), s.Ready → s.cfg.spiPresent = true →
    (∀ po pi, (s.cfg.slot s.cfg.spiMosi).port? = some po → (s.cfg.slot s.cfg.spiMiso).port? = some pi →
      s.env.rules.lookup pi = some (.loopback po) →
      ∃ t, exec (.spiXfer b) s = .next t ∧ t.response = some (.ok
        (if ((s.cfg.slot s.cfg.spiMosi).inversions + (s.cfg.slot s.cfg.spiMiso).inversions) % 2 = 0 then b
         else b ^^^ 0xFF))) ∧
    (∀ pi l, (s.cfg.slot s.cfg.spiMiso).port? = some pi → s.env.rules.lookup pi = some (.stuck l) →
      ∃ t, exec (.spiXfer b) s = .next t ∧ t.response = some (.ok
        (if sampledLevel (s.cfg.slot s.cfg.spiMiso) l = .high then 0xFF else 0x00))) ∧
    (s.cfg.slot s.cfg.spiMiso = .constHigh →
      ∃ t evs, exec (.spiXfer b) s = .next t ∧ t.hist = s.hist ++ evs ∧ t.response = some (.ok 0xFF) ∧
        ∀ p l, Event.sample p l ∉ evs)

/-- Frame of the `SPI` commands: a next state keeps the configuration, the 1-Wire engine, the search context, the host's
words, the timing source and the environment's rules, and adds events on the SPI engine's own ports alone (R18). -/
def Obligations.SpiCommandsFrame : Prop :=
  ∀ (i : Instr) (s t : State), IsSpi i → exec i s = .next t →
    t.cfg = s.cfg ∧ t.ow = s.ow ∧ t.owsearch = s.owsearch ∧ t.cmds = s.cmds ∧ t.timing = s.timing ∧
    t.env.rules = s.env.rules ∧ t.env.script <:+ s.env.script ∧
    (s.cfg.spiPresent = false → t.spi = s.spi ∧ t.env = s.env ∧ t.hist = s.hist) ∧
    ∃ evs : List Event, t.hist = s.hist ++ evs ∧
      ∀ ev ∈ evs, ∃ p, Event.onPort ev = some p ∧ p ∈ portsOf s.cfg s.cfg.spiRoles

/-- The SPI sequencer follows the chain `Idle → [SelectAsserted] → BitCycle ×8 → [SelectDeasserted] → Idle` (R20, R74,
R83). A command accepted in a ready state is the run of the sequencer from its issue; the issue leaves `Idle` for the first
phase of the chain at `seq = 0` with the operand latched, emits nothing and answers nothing. From then on one position
advances `seq` by one and keeps `tx`, and only the last position answers. That a silent position, of a role without a
port, counts as one is log entry 19's reading of R83. -/
def Obligations.SpiSequencerFollowsTheChain : Prop :=
  (∀ (s : State) (b : Byte), s.Ready → s.cfg.spiPresent = true →
    exec (.spiXfer b) s = .next (ticks (spiLength s.cfg) (spiIssue .xfer b s)) ∧
    exec (.spiWrite b) s = .next (ticks (spiLength s.cfg) (spiIssue .write b s))) ∧
  (∀ (s : State) (op : SpiOp) (b : Byte),
    let t := spiIssue op b s
    (s.cfg.spiHasSs = true → t.spi.phase = .selectAsserted) ∧ (s.cfg.spiHasSs = false → t.spi.phase = .bitCycle) ∧
    t.spi.seq = 0 ∧ t.spi.tx = b ∧ t.inflight = some (.spi op) ∧ t.response = none ∧ t.hist = s.hist ∧
    (s.Inv → s.inflight = none → s.cfg.spiPresent = true → t.Inv)) ∧
  ∀ (s : State) (op : SpiOp), s.Inv → s.inflight = some (.spi op) →
    let t := tick s
    let o := spiOffset s.cfg
    t.spi.seq = s.spi.seq + 1 ∧ t.spi.tx = s.spi.tx ∧
    (s.spi.phase = .selectAsserted → t.spi.phase = .bitCycle ∧ t.response = none) ∧
    (s.spi.phase = .bitCycle → s.spi.seq + 1 < o + 32 → t.spi.phase = .bitCycle ∧ t.response = none) ∧
    (s.spi.phase = .bitCycle → s.spi.seq + 1 = o + 32 → s.cfg.spiHasSs = true →
      t.spi.phase = .selectDeasserted ∧ t.response = none) ∧
    (s.spi.phase = .bitCycle → s.spi.seq + 1 = o + 32 → s.cfg.spiHasSs = false →
      t.spi.phase = .idle ∧ t.inflight = none ∧ ∃ v, t.response = some (.ok v)) ∧
    (s.spi.phase = .selectDeasserted → t.spi.phase = .idle ∧ t.inflight = none ∧ ∃ v, t.response = some (.ok v))

/-! ### The 1-Wire engine -/

/-- `OW.RESET` (R90, R91, R97): low, reset window, release, response window, one sample, and nothing after it; presence is
a sampled `Low`; both results are `OK`. Completes in every ready state with a 1-Wire engine whose timing source returns
from two calls. -/
def Obligations.OwResetCompletes : Prop :=
  ∀ s : State, s.Ready → s.cfg.owPresent = true → s.timing.allows 2 = true →
    let line := s.cfg.slot s.cfg.owLine
    let before := driveEvents line .low ++ [.delay (s.cfg.duration s.cfg.owClass.resetLow)] ++ driveEvents line .high ++
      [.delay (s.cfg.duration s.cfg.owClass.resetWait)]
    let r := leafAnswer line { s with hist := s.hist ++ before }
    ∃ t, exec .owReset s = .next t ∧ t.hist = s.hist ++ before ++ sampleEvents line r ∧
      t.Answered (.ok (if sampledLevel line r = .low then 1 else 0))

/-- `OW.WBIT l` (R92, R98): low, one delay whose class encodes the bit, release, nothing after it and no sample; the two
values of the bit are given two different durations. -/
def Obligations.OwWriteBitCompletes : Prop :=
  ∀ (s : State) (l : Level), s.Ready → s.cfg.owPresent = true → s.timing.allows 1 = true →
    (∃ t, exec (.owWbit l) s = .next t ∧ t.hist = s.hist ++ writeBitEvents s.cfg l ∧ t.Answered (.ok 0) ∧
      t.env = s.env) ∧
    s.cfg.duration s.cfg.owClass.w1Low ≠ s.cfg.duration s.cfg.owClass.w0Low

/-- `OW.RBIT` (R93, R99): low, a brief delay, release, a short window, one sample, and nothing after it; the response is
the sampled level. -/
def Obligations.OwReadBitCompletes : Prop :=
  ∀ s : State, s.Ready → s.cfg.owPresent = true → s.timing.allows 2 = true →
    let line := s.cfg.slot s.cfg.owLine
    let before := driveEvents line .low ++ [.delay (s.cfg.duration s.cfg.owClass.rLow)] ++ driveEvents line .high ++
      [.delay (s.cfg.duration s.cfg.owClass.rWait)]
    let r := leafAnswer line { s with hist := s.hist ++ before }
    ∃ t, exec .owRbit s = .next t ∧ t.hist = s.hist ++ before ++ sampleEvents line r ∧
      t.Answered (.ok (byteOfLevel (sampledLevel line r)))

/-- `OW.WBYTE b` (R94, R100): eight bit writes in a row in the configured order, no event between them, no sample. -/
def Obligations.OwWriteByteCompletes : Prop :=
  ∀ (s : State) (b : Byte), s.Ready → s.cfg.owPresent = true → s.timing.allows 8 = true →
    ∃ t, exec (.owWbyte b) s = .next t ∧ t.Answered (.ok 0) ∧ t.env = s.env ∧
      t.hist = s.hist ++
        (List.range 8).flatMap (fun k => writeBitEvents s.cfg (bitLevel b (bitOfSlot s.cfg.owByteOrder k)))

/-- `OW.RBYTE` (R94, R101): eight bit reads in a row; slot `k` carries the bit the configured order gives it. The
levels received are the leaf's answers to the eight samples, each in the history and the environment it is taken in (a
fixed level where the line has no port). Where no rule governs the line's port and the script begins with eight levels,
those are the samples (R26, 95_test_vectors.md W8); the script is the model's form of a scripted environment (log entry
4). -/
def Obligations.OwReadByteCompletes : Prop :=
  ∀ s : State, s.Ready → s.cfg.owPresent = true → s.timing.allows 16 = true →
    ∃ (t : State) (r : LevelVec) (v : Byte),
      exec .owRbyte s = .next t ∧ t.Answered (.ok v) ∧
      t.hist = s.hist ++ (List.range 8).flatMap (fun k => readBitEvents s.cfg (levelAt r k)) ∧
      AnswersInOrder (s.cfg.slot s.cfg.owLine) s (eventsBeforeReadSample s.cfg r) r t.env ∧
      (∀ (k : Nat) (hk : k < 8),
        levelOfBool (v.getLsbD (bitOfSlot s.cfg.owByteOrder k)) = sampledLevel (s.cfg.slot s.cfg.owLine) r[k]) ∧
      ∀ (q : LevelVec) (rest : List Level) (p : Port), (s.cfg.slot s.cfg.owLine).port? = some p →
        s.env.rules.lookup p = none → s.env.script = q.toList ++ rest → r = q ∧ t.env.script = rest

/-- The byte commands are the pseudocode of R94 over the bit operations: the same events, the same samples, the same
calls of the timing source, the same levels received. -/
def Obligations.OwByteCommandsRefinePseudocode : Prop :=
  ∀ (s : State) (b : Byte), s.Ready → s.cfg.owPresent = true →
    (s.timing.allows 8 = true → ∃ t, exec (.owWbyte b) s = .next t ∧ t.hist = (writeByte b s).hist ∧
      t.env = (writeByte b s).env ∧ t.timing = (writeByte b s).timing) ∧
    (s.timing.allows 16 = true → ∃ t, exec .owRbyte s = .next t ∧ t.hist = (readByte s).2.hist ∧
      t.env = (readByte s).2.env ∧ t.timing = (readByte s).2.timing ∧
      t.Answered (.ok (recompose s.cfg.owByteOrder (readByte s).1)))

/-- Presence detection (R26, R90): on a line bound to a plain port, in the environment that pulls the line down after the
release and a delay, `OW.RESET` answers `true`; on a line stuck at `High`, `false`. -/
def Obligations.OwResetDetectsPresence : Prop :=
  ∀ (s : State) (p : Port) (c : Caps), s.Ready → s.cfg.owPresent = true → s.timing.allows 2 = true →
    s.cfg.slot s.cfg.owLine = .ext p c →
    (s.env.rules.lookup p = some .presenceAfterDelay → ∃ t, exec .owReset s = .next t ∧ t.response = some (.ok 1)) ∧
    (s.env.rules.lookup p = some (.stuck .high) → ∃ t, exec .owReset s = .next t ∧ t.response = some (.ok 0))

/-- A timing source that never returns hangs the block for good (R118 (c)): the command stops in the first call that does
not return, answers no response, and from there on every step is the stuck fault. -/
def Obligations.HungTimingSourceHangsTheBlock : Prop :=
  ∀ (i : Instr) (d n : Nat) (s : State), IsOw i d → s.Ready → s.cfg.owPresent = true → s.timing = .hangsAfter n → n < d →
    ∃ t evs, exec i s = .next t ∧ t.hist = s.hist ++ evs ∧ (evs.filter Event.isDelay).length = n + 1 ∧
      t.response = none ∧ t.busy = true ∧ step t = .fault .timingSourceHung

/-- Frame of the 1-Wire commands: a next state keeps the configuration, the SPI engine, the search context, the host's
words and the environment's rules; the events it adds are delays and accesses of the line's own port (R18, R110). -/
def Obligations.OwCommandsFrame : Prop :=
  ∀ (i : Instr) (d : Nat) (s t : State), IsOw i d → exec i s = .next t →
    t.cfg = s.cfg ∧ t.spi = s.spi ∧ t.owsearch = s.owsearch ∧ t.cmds = s.cmds ∧ t.env.rules = s.env.rules ∧
    t.env.script <:+ s.env.script ∧
    (s.cfg.owPresent = false → t.ow = s.ow ∧ t.env = s.env ∧ t.hist = s.hist ∧ t.timing = s.timing) ∧
    ∃ evs : List Event, t.hist = s.hist ++ evs ∧
      ∀ ev ∈ evs, (∃ us, ev = .delay us ∧ us ∈ s.cfg.durations) ∨
        ∃ p, Event.onPort ev = some p ∧ (s.cfg.slot s.cfg.owLine).port? = some p

/-- The 1-Wire sequencer follows the table (R20, R87, R96). A command accepted in a ready state is the run of the sequencer
from its issue; the issue leaves `Idle` for the command's phase at `seq = 0`, a byte command's at `bitidx = 0`, with the
operand latched (a level as 0 or 1, log entry 7), emits nothing and answers nothing (R97 to R101). From then on, with a
timing source that returns from the position's call if it makes one: inside a bit-level sequence (of three
positions in a write, of five else) one position advances `seq` by one; at its end a byte command goes on to the next of
its eight bits at `seq = 0`, and any other end is `Idle` with the response. That a silent position, on a line without a
port, counts as one is log entry 19's reading, and that commands of one sequence leave `bitidx` alone is log entry 7's. -/
def Obligations.OwSequencerFollowsTheTable : Prop :=
  (∀ (s : State) (l : Level) (b : Byte), s.Ready → s.cfg.owPresent = true →
    exec .owReset s = .next (ticks 5 (owIssue .reset none s)) ∧
    exec (.owWbit l) s = .next (ticks 3 (owIssue .wbit (some (byteOfLevel l)) s)) ∧
    exec .owRbit s = .next (ticks 5 (owIssue .rbit none s)) ∧
    exec (.owWbyte b) s = .next (ticks 24 (owIssue .wbyte (some b) s)) ∧
    exec .owRbyte s = .next (ticks 40 (owIssue .rbyte none s))) ∧
  (∀ (s : State) (op : OwOp) (operand : Option Byte),
    let t := owIssue op operand s
    (op = .reset → t.ow.phase = .reset) ∧ (op = .wbit ∨ op = .rbit → t.ow.phase = .bitOp) ∧
    (op = .wbyte ∨ op = .rbyte → t.ow.phase = .byteOp ∧ t.ow.bitidx = 0) ∧
    t.ow.seq = 0 ∧ (∀ v, operand = some v → t.ow.tx = v) ∧ t.inflight = some (.ow op) ∧ t.response = none ∧
    t.hist = s.hist ∧ (s.Inv → s.inflight = none → s.cfg.owPresent = true → t.Inv)) ∧
  ∀ (s : State) (op : OwOp), s.Inv → s.inflight = some (.ow op) → s.timing.allows 1 = true →
    let t := tick s
    let len := if op = .wbit ∨ op = .wbyte then 3 else 5
    let byte := op = .wbyte ∨ op = .rbyte
    t.ow.tx = s.ow.tx ∧
    (s.ow.seq + 1 < len →
      t.ow.seq = s.ow.seq + 1 ∧ t.ow.bitidx = s.ow.bitidx ∧ t.ow.phase = s.ow.phase ∧ t.response = none) ∧
    (s.ow.seq + 1 = len → byte → s.ow.bitidx + 1 < 8 →
      t.ow.seq = 0 ∧ t.ow.bitidx = s.ow.bitidx + 1 ∧ t.ow.phase = s.ow.phase ∧ t.response = none) ∧
    (s.ow.seq + 1 = len → (byte → s.ow.bitidx + 1 = 8) →
      t.ow.phase = .idle ∧ t.inflight = none ∧ ∃ v, t.response = some (.ok v))

/-! ### Refusals and responses -/

/-- A command of an engine the instance does not have is refused with `NoEngine`, with no event and no state change (R85,
R86, R97 to R101). -/
def Obligations.AbsentEnginesRefuse : Prop :=
  ∀ (i : Instr) (s : State), s.Ready →
    (IsSpi i → s.cfg.spiPresent = false → exec i s = .next { s with response := some (.refused .noEngine) }) ∧
    (∀ d, IsOw i d → s.cfg.owPresent = false → exec i s = .next { s with response := some (.refused .noEngine) })

/-- A refused command changes nothing but the response, whose word is 0x0100, and leaves the block ready (R104). -/
def Obligations.RefusedCommandsChangeNothing : Prop :=
  ∀ (i : Instr) (s t : State) (r : RefuseReason), exec i s = .next t → t.response = some (.refused r) →
    t = { s with response := some (.refused r) } ∧ t.Ready ∧ (Response.refused r).word = 0x0100

/-- Every refusal is decided from the command and `CFG` alone: not from the history, a sampled level, the environment or
an earlier command (R104). -/
def Obligations.RefusalDependsOnCommandAndConfigAlone : Prop :=
  ∀ (i : Instr) (s t : State) (r : RefuseReason), s.Ready → t.Ready → s.cfg = t.cfg →
    (exec i s = .next { s with response := some (.refused r) } ↔
      exec i t = .next { t with response := some (.refused r) })

/-- The response word (R40): `STATUS` is 0x00 or 0x01 and no other value; `VALUE` is the result, or 0x00 when refused. -/
def Obligations.ResponseWordsHaveTwoStatuses : Prop :=
  ∀ r : Response,
    (r.word.extractLsb' 8 8 = 0x00 ∨ r.word.extractLsb' 8 8 = 0x01) ∧
    (∀ v, r = .ok v → r.word.extractLsb' 8 8 = 0x00 ∧ r.word.extractLsb' 0 8 = v) ∧
    (∀ q, r = .refused q → r.word = 0x0100)

/-! ### The whole machine -/

/-- The invariant holds after reset. -/
def Obligations.ResetMeetsTheInvariant : Prop := State.reset.Inv

/-- Every step keeps the invariant: a well-formed instance, engines, positions and the command in flight that agree, one
command in flight at most and no response while it is, only the four durations in the history (R5, R11, R14, R16, R20,
R88). -/
def Obligations.StepKeepsTheInvariant : Prop :=
  ∀ s t : State, s.Inv → step s = .next t → t.Inv

/-- No step changes `CFG` (R9) or the search context (R17), and the history only grows (R22): nothing is removed from it
or reordered. The environment's rules stay too. -/
def Obligations.StepKeepsConfigurationAndGrowsHistory : Prop :=
  ∀ s t : State, step s = .next t →
    t.cfg = s.cfg ∧ t.owsearch = s.owsearch ∧ s.hist <+: t.hist ∧ t.env.rules = s.env.rules

/-- One position of the sequencer emits at most one event (R20, R25, R83, R96). -/
def Obligations.OnePositionOneEvent : Prop :=
  ∀ s : State, ∃ evs : List Event, (tick s).hist = s.hist ++ evs ∧ evs.length ≤ 1

/-- A command always completes (R5, R6, R103): in a ready state whose timing source returns, the meaning of every command
answers a next state that is ready again, with a response and none of the host's words taken. -/
def Obligations.CommandsRunToCompletion : Prop :=
  ∀ (i : Instr) (s : State), s.Ready → s.inflight = none → s.timing = .returns →
    ∃ t, exec i s = .next t ∧ t.Ready ∧ t.inflight = none ∧ t.response ≠ none ∧ t.cmds = s.cmds ∧ t.timing = .returns

/-- A command in flight reaches its response within forty steps, where the timing source returns (R5, R81, R117): it
cannot be stopped on the way. That a step from such a state is one position of the sequencer, which the number forty
counts, is the model's choice (log entry 9). -/
def Obligations.CommandInFlightReachesItsResponse : Prop :=
  ∀ s : State, s.Inv → s.busy = true → s.timing = .returns →
    ∃ n, n ≤ 40 ∧ ∃ t v, core.run n s = .next t ∧ t.Answered (.ok v) ∧ t.cmds = s.cmds

/-- The block performs no `Delay` and calls no timing source outside the 1-Wire engine (R80, R110). -/
def Obligations.OnlyTheOneWireEngineDelays : Prop :=
  ∀ (i : Instr) (s t : State), (∀ d, ¬ IsOw i d) → exec i s = .next t →
    t.timing = s.timing ∧ ∃ evs : List Event, t.hist = s.hist ++ evs ∧ ∀ us, Event.delay us ∉ evs

/-- Every command behaves the same whatever came before (R14, R16, R87): in two ready states of one instance, with the
same scripted answers for the whole command and timing sources that return, it appends the same events, takes the same
answers and gives the same response, whatever the histories, the engines' left-over registers, the search contexts and
the earlier responses are. -/
def Obligations.CommandsDoNotDependOnThePast : Prop :=
  ∀ (i : Instr) (s t : State), s.Ready → t.Ready → s.cfg = t.cfg → s.env = t.env → s.env.rules = [] →
    8 ≤ s.env.script.length → s.timing = .returns → t.timing = .returns →
    ∃ u v evs, exec i s = .next u ∧ exec i t = .next v ∧ u.hist = s.hist ++ evs ∧ v.hist = t.hist ++ evs ∧
      u.response = v.response ∧ u.env = v.env
end

