-- ==== Sys2Proof/Laws/Levels.lean ====
section
/-! SUPPORT. Levels, level vectors, bits and bytes: the small lemmas of Machine/Operands.lean and Machine/BitOrder.lean. -/

namespace Sys2Proof

@[simp] theorem Level.not_low : Level.not .low = .high := rfl
@[simp] theorem Level.not_high : Level.not .high = .low := rfl
@[simp] theorem Level.not_not (l : Level) : l.not.not = l := by cases l <;> rfl

@[simp] theorem Level.notTimes_zero (l : Level) : l.notTimes 0 = l := rfl
@[simp] theorem Level.notTimes_succ (n : Nat) (l : Level) : l.notTimes (n + 1) = (l.notTimes n).not := rfl

theorem Level.notTimes_not (n : Nat) (l : Level) : l.not.notTimes n = (l.notTimes n).not := by
  induction n with
  | zero => rfl
  | succ n ih => simp [ih]

/-- Only the parity of the inversions matters (R54). -/
theorem Level.notTimes_eq (n : Nat) (l : Level) : l.notTimes n = if n % 2 = 0 then l else l.not := by
  induction n with
  | zero => rfl
  | succ n ih =>
    rw [Level.notTimes_succ, ih]
    by_cases h : n % 2 = 0
    · have h1 : ¬ (n + 1) % 2 = 0 := by omega
      simp [h, h1]
    · have h1 : (n + 1) % 2 = 0 := by omega
      simp [h, h1]

@[simp] theorem levelOfByte_byteOfLevel (l : Level) : levelOfByte (byteOfLevel l) = l := by cases l <;> decide

theorem bitOfLevel_le (l : Level) : bitOfLevel l ≤ 1 := by cases l <;> decide

/-- A level vector is its eight elements: a statement about every vector is one about every eight levels. -/
theorem LevelVec.forall_iff {P : LevelVec → Prop} :
    (∀ v, P v) ↔ ∀ a b c d e f g h : Level, P #v[a, b, c, d, e, f, g, h] := by
  constructor
  · intro hp a b c d e f g h
    exact hp _
  · intro hp v
    have hv : v = #v[v[0], v[1], v[2], v[3], v[4], v[5], v[6], v[7]] := by
      ext i hi
      have : i = 0 ∨ i = 1 ∨ i = 2 ∨ i = 3 ∨ i = 4 ∨ i = 5 ∨ i = 6 ∨ i = 7 := by omega
      rcases this with rfl | rfl | rfl | rfl | rfl | rfl | rfl | rfl <;> rfl
    rw [hv]
    exact hp _ _ _ _ _ _ _ _

/-- Bit `k` of a byte made of levels is element `k`. -/
theorem byteOfBits_getLsbD : ∀ (v : LevelVec) (k : Fin 8),
    levelOfBool ((byteOfBits v).getLsbD k) = v[k] := by
  rw [LevelVec.forall_iff]
  intro a b c d e f g h k
  cases a <;> cases b <;> cases c <;> cases d <;> cases e <;> cases f <;> cases g <;> cases h <;> revert k <;> decide

@[simp] theorem unpackVec_packVec : ∀ v : LevelVec, unpackVec (packVec v) = v := by
  rw [LevelVec.forall_iff]
  intro a b c d e f g h
  cases a <;> cases b <;> cases c <;> cases d <;> cases e <;> cases f <;> cases g <;> cases h <;> decide

/-- `map_msb` as the chain of its eight applications (R68). -/
theorem Machine.mapMsb_chain {α σ : Type} {b : Byte} {f : Level → σ → α × σ} {s : σ} {r0 r1 r2 r3 r4 r5 r6 r7 : α × σ}
    (h0 : f (bitLevel b 7) s = r0) (h1 : f (bitLevel b 6) r0.2 = r1) (h2 : f (bitLevel b 5) r1.2 = r2) (h3 : f (bitLevel b 4) r2.2 = r3)
    (h4 : f (bitLevel b 3) r3.2 = r4) (h5 : f (bitLevel b 2) r4.2 = r5) (h6 : f (bitLevel b 1) r5.2 = r6) (h7 : f (bitLevel b 0) r6.2 = r7) :
    Machine.mapMsb b f s = (#v[r0.1, r1.1, r2.1, r3.1, r4.1, r5.1, r6.1, r7.1], r7.2) := by
  subst h0 h1 h2 h3 h4 h5 h6 h7
  rfl

/-- `map_lsb` as the chain of its eight applications (R68). -/
theorem Machine.mapLsb_chain {α σ : Type} {b : Byte} {f : Level → σ → α × σ} {s : σ} {r0 r1 r2 r3 r4 r5 r6 r7 : α × σ}
    (h0 : f (bitLevel b 0) s = r0) (h1 : f (bitLevel b 1) r0.2 = r1) (h2 : f (bitLevel b 2) r1.2 = r2) (h3 : f (bitLevel b 3) r2.2 = r3)
    (h4 : f (bitLevel b 4) r3.2 = r4) (h5 : f (bitLevel b 5) r4.2 = r5) (h6 : f (bitLevel b 6) r5.2 = r6) (h7 : f (bitLevel b 7) r6.2 = r7) :
    Machine.mapLsb b f s = (#v[r0.1, r1.1, r2.1, r3.1, r4.1, r5.1, r6.1, r7.1], r7.2) := by
  subst h0 h1 h2 h3 h4 h5 h6 h7
  rfl

end Sys2Proof
end

