-- ==== Sys2Proof/Laws/State.lean ====
section
/-! SUPPORT. One lemma per field per update of the state, so that no proof unfolds a record update. -/

namespace Sys2Proof.Machine

variable (s : State)

@[simp] theorem State.emit_cfg (ev : Event) : (s.emit ev).cfg = s.cfg := rfl
@[simp] theorem State.emit_spi (ev : Event) : (s.emit ev).spi = s.spi := rfl
@[simp] theorem State.emit_ow (ev : Event) : (s.emit ev).ow = s.ow := rfl
@[simp] theorem State.emit_owsearch (ev : Event) : (s.emit ev).owsearch = s.owsearch := rfl
@[simp] theorem State.emit_inflight (ev : Event) : (s.emit ev).inflight = s.inflight := rfl
@[simp] theorem State.emit_response (ev : Event) : (s.emit ev).response = s.response := rfl
@[simp] theorem State.emit_hist (ev : Event) : (s.emit ev).hist = s.hist ++ [ev] := rfl
@[simp] theorem State.emit_cmds (ev : Event) : (s.emit ev).cmds = s.cmds := rfl
@[simp] theorem State.emit_env (ev : Event) : (s.emit ev).env = s.env := rfl
@[simp] theorem State.emit_timing (ev : Event) : (s.emit ev).timing = s.timing := rfl

@[simp] theorem State.setEnv_cfg (x : Env) : (s.setEnv x).cfg = s.cfg := rfl
@[simp] theorem State.setEnv_spi (x : Env) : (s.setEnv x).spi = s.spi := rfl
@[simp] theorem State.setEnv_ow (x : Env) : (s.setEnv x).ow = s.ow := rfl
@[simp] theorem State.setEnv_owsearch (x : Env) : (s.setEnv x).owsearch = s.owsearch := rfl
@[simp] theorem State.setEnv_inflight (x : Env) : (s.setEnv x).inflight = s.inflight := rfl
@[simp] theorem State.setEnv_response (x : Env) : (s.setEnv x).response = s.response := rfl
@[simp] theorem State.setEnv_hist (x : Env) : (s.setEnv x).hist = s.hist := rfl
@[simp] theorem State.setEnv_cmds (x : Env) : (s.setEnv x).cmds = s.cmds := rfl
@[simp] theorem State.setEnv_env (x : Env) : (s.setEnv x).env = x := rfl
@[simp] theorem State.setEnv_timing (x : Env) : (s.setEnv x).timing = s.timing := rfl

@[simp] theorem State.setTiming_cfg (x : Timing) : (s.setTiming x).cfg = s.cfg := rfl
@[simp] theorem State.setTiming_spi (x : Timing) : (s.setTiming x).spi = s.spi := rfl
@[simp] theorem State.setTiming_ow (x : Timing) : (s.setTiming x).ow = s.ow := rfl
@[simp] theorem State.setTiming_owsearch (x : Timing) : (s.setTiming x).owsearch = s.owsearch := rfl
@[simp] theorem State.setTiming_inflight (x : Timing) : (s.setTiming x).inflight = s.inflight := rfl
@[simp] theorem State.setTiming_response (x : Timing) : (s.setTiming x).response = s.response := rfl
@[simp] theorem State.setTiming_hist (x : Timing) : (s.setTiming x).hist = s.hist := rfl
@[simp] theorem State.setTiming_cmds (x : Timing) : (s.setTiming x).cmds = s.cmds := rfl
@[simp] theorem State.setTiming_env (x : Timing) : (s.setTiming x).env = s.env := rfl
@[simp] theorem State.setTiming_timing (x : Timing) : (s.setTiming x).timing = x := rfl

@[simp] theorem State.setSpi_cfg (x : SpiState) : (s.setSpi x).cfg = s.cfg := rfl
@[simp] theorem State.setSpi_spi (x : SpiState) : (s.setSpi x).spi = x := rfl
@[simp] theorem State.setSpi_ow (x : SpiState) : (s.setSpi x).ow = s.ow := rfl
@[simp] theorem State.setSpi_owsearch (x : SpiState) : (s.setSpi x).owsearch = s.owsearch := rfl
@[simp] theorem State.setSpi_inflight (x : SpiState) : (s.setSpi x).inflight = s.inflight := rfl
@[simp] theorem State.setSpi_response (x : SpiState) : (s.setSpi x).response = s.response := rfl
@[simp] theorem State.setSpi_hist (x : SpiState) : (s.setSpi x).hist = s.hist := rfl
@[simp] theorem State.setSpi_cmds (x : SpiState) : (s.setSpi x).cmds = s.cmds := rfl
@[simp] theorem State.setSpi_env (x : SpiState) : (s.setSpi x).env = s.env := rfl
@[simp] theorem State.setSpi_timing (x : SpiState) : (s.setSpi x).timing = s.timing := rfl

@[simp] theorem State.setOw_cfg (x : OwState) : (s.setOw x).cfg = s.cfg := rfl
@[simp] theorem State.setOw_spi (x : OwState) : (s.setOw x).spi = s.spi := rfl
@[simp] theorem State.setOw_ow (x : OwState) : (s.setOw x).ow = x := rfl
@[simp] theorem State.setOw_owsearch (x : OwState) : (s.setOw x).owsearch = s.owsearch := rfl
@[simp] theorem State.setOw_inflight (x : OwState) : (s.setOw x).inflight = s.inflight := rfl
@[simp] theorem State.setOw_response (x : OwState) : (s.setOw x).response = s.response := rfl
@[simp] theorem State.setOw_hist (x : OwState) : (s.setOw x).hist = s.hist := rfl
@[simp] theorem State.setOw_cmds (x : OwState) : (s.setOw x).cmds = s.cmds := rfl
@[simp] theorem State.setOw_env (x : OwState) : (s.setOw x).env = s.env := rfl
@[simp] theorem State.setOw_timing (x : OwState) : (s.setOw x).timing = s.timing := rfl

@[simp] theorem State.setInflight_cfg (x : Option EngineOp) : (s.setInflight x).cfg = s.cfg := rfl
@[simp] theorem State.setInflight_spi (x : Option EngineOp) : (s.setInflight x).spi = s.spi := rfl
@[simp] theorem State.setInflight_ow (x : Option EngineOp) : (s.setInflight x).ow = s.ow := rfl
@[simp] theorem State.setInflight_owsearch (x : Option EngineOp) : (s.setInflight x).owsearch = s.owsearch := rfl
@[simp] theorem State.setInflight_inflight (x : Option EngineOp) : (s.setInflight x).inflight = x := rfl
@[simp] theorem State.setInflight_response (x : Option EngineOp) : (s.setInflight x).response = s.response := rfl
@[simp] theorem State.setInflight_hist (x : Option EngineOp) : (s.setInflight x).hist = s.hist := rfl
@[simp] theorem State.setInflight_cmds (x : Option EngineOp) : (s.setInflight x).cmds = s.cmds := rfl
@[simp] theorem State.setInflight_env (x : Option EngineOp) : (s.setInflight x).env = s.env := rfl
@[simp] theorem State.setInflight_timing (x : Option EngineOp) : (s.setInflight x).timing = s.timing := rfl

@[simp] theorem State.setResponse_cfg (x : Option Response) : (s.setResponse x).cfg = s.cfg := rfl
@[simp] theorem State.setResponse_spi (x : Option Response) : (s.setResponse x).spi = s.spi := rfl
@[simp] theorem State.setResponse_ow (x : Option Response) : (s.setResponse x).ow = s.ow := rfl
@[simp] theorem State.setResponse_owsearch (x : Option Response) : (s.setResponse x).owsearch = s.owsearch := rfl
@[simp] theorem State.setResponse_inflight (x : Option Response) : (s.setResponse x).inflight = s.inflight := rfl
@[simp] theorem State.setResponse_response (x : Option Response) : (s.setResponse x).response = x := rfl
@[simp] theorem State.setResponse_hist (x : Option Response) : (s.setResponse x).hist = s.hist := rfl
@[simp] theorem State.setResponse_cmds (x : Option Response) : (s.setResponse x).cmds = s.cmds := rfl
@[simp] theorem State.setResponse_env (x : Option Response) : (s.setResponse x).env = s.env := rfl
@[simp] theorem State.setResponse_timing (x : Option Response) : (s.setResponse x).timing = s.timing := rfl

@[simp] theorem State.setCmds_cfg (x : List CmdWord) : (s.setCmds x).cfg = s.cfg := rfl
@[simp] theorem State.setCmds_spi (x : List CmdWord) : (s.setCmds x).spi = s.spi := rfl
@[simp] theorem State.setCmds_ow (x : List CmdWord) : (s.setCmds x).ow = s.ow := rfl
@[simp] theorem State.setCmds_owsearch (x : List CmdWord) : (s.setCmds x).owsearch = s.owsearch := rfl
@[simp] theorem State.setCmds_inflight (x : List CmdWord) : (s.setCmds x).inflight = s.inflight := rfl
@[simp] theorem State.setCmds_response (x : List CmdWord) : (s.setCmds x).response = s.response := rfl
@[simp] theorem State.setCmds_hist (x : List CmdWord) : (s.setCmds x).hist = s.hist := rfl
@[simp] theorem State.setCmds_cmds (x : List CmdWord) : (s.setCmds x).cmds = x := rfl
@[simp] theorem State.setCmds_env (x : List CmdWord) : (s.setCmds x).env = s.env := rfl
@[simp] theorem State.setCmds_timing (x : List CmdWord) : (s.setCmds x).timing = s.timing := rfl

end Sys2Proof.Machine
end

