-- ==== Sys2Proof/Laws/Pins.lean ====
section
/-! SUPPORT. What the pin primitives and the timing source do, said once: `drive` only appends its events, `sample` only
appends its event and takes the environment's answer, `delay` appends its event and calls the timing source. -/

namespace Sys2Proof.Machine

@[simp] theorem driveEvents_inv (e : PinExpr) (l : Level) : driveEvents (.inv e) l = driveEvents e l.not := by
  simp only [driveEvents, PinExpr.port?, PinExpr.inversions]
  cases e.port? <;> simp [Level.notTimes_not]

/-- Everything `drive` does (R52). -/
theorem drive_eq (e : PinExpr) (l : Level) (s : State) :
    drive e l s = { s with hist := s.hist ++ driveEvents e l } := by
  induction e generalizing l with
  | ext p c => rfl
  | inv e ih => simp [drive, ih]
  | constHigh => simp [drive, driveEvents, PinExpr.port?]
  | constLow => simp [drive, driveEvents, PinExpr.port?]
  | dummy => simp [drive, driveEvents, PinExpr.port?]

@[simp] theorem drive_cfg (e : PinExpr) (l : Level) (s : State) : (drive e l s).cfg = s.cfg := by rw [drive_eq]
@[simp] theorem drive_spi (e : PinExpr) (l : Level) (s : State) : (drive e l s).spi = s.spi := by rw [drive_eq]
@[simp] theorem drive_ow (e : PinExpr) (l : Level) (s : State) : (drive e l s).ow = s.ow := by rw [drive_eq]
@[simp] theorem drive_owsearch (e : PinExpr) (l : Level) (s : State) : (drive e l s).owsearch = s.owsearch := by rw [drive_eq]
@[simp] theorem drive_inflight (e : PinExpr) (l : Level) (s : State) : (drive e l s).inflight = s.inflight := by rw [drive_eq]
@[simp] theorem drive_response (e : PinExpr) (l : Level) (s : State) : (drive e l s).response = s.response := by rw [drive_eq]
@[simp] theorem drive_cmds (e : PinExpr) (l : Level) (s : State) : (drive e l s).cmds = s.cmds := by rw [drive_eq]
@[simp] theorem drive_env (e : PinExpr) (l : Level) (s : State) : (drive e l s).env = s.env := by rw [drive_eq]
@[simp] theorem drive_timing (e : PinExpr) (l : Level) (s : State) : (drive e l s).timing = s.timing := by rw [drive_eq]
@[simp] theorem drive_hist (e : PinExpr) (l : Level) (s : State) : (drive e l s).hist = s.hist ++ driveEvents e l := by
  rw [drive_eq]

theorem low_eq_drive (e : PinExpr) (s : State) : low e s = drive e .low s := rfl
theorem high_eq_drive (e : PinExpr) (s : State) : high e s = drive e .high s := rfl
theorem read_eq_sample (e : PinExpr) (s : State) : read e s = sample e s := rfl

/-- `write(e, l) = drive(e, l)` (R50). -/
theorem write_eq_drive (e : PinExpr) (l : Level) (s : State) : write e l s = drive e l s := by
  cases l <;> simp [write, high, low]

/-- Everything `sample` does (R53). -/
theorem sample_eq (e : PinExpr) (s : State) :
    sample e s = (sampledLevel e (leafAnswer e s),
      { s with env := envAfter e s, hist := s.hist ++ sampleEvents e (leafAnswer e s) }) := by
  induction e with
  | ext p c => rfl
  | inv e ih => rw [sample, ih]; rfl
  | constHigh => simp [sample, sampledLevel, leafAnswer, PinExpr.leaf, PinExpr.inversions, envAfter, sampleEvents, PinExpr.port?]
  | constLow => simp [sample, sampledLevel, leafAnswer, PinExpr.leaf, PinExpr.inversions, envAfter, sampleEvents, PinExpr.port?]
  | dummy => simp [sample, sampledLevel, leafAnswer, PinExpr.leaf, PinExpr.inversions, envAfter, sampleEvents, PinExpr.port?]

@[simp] theorem sample_cfg (e : PinExpr) (s : State) : (sample e s).2.cfg = s.cfg := by rw [sample_eq]
@[simp] theorem sample_spi (e : PinExpr) (s : State) : (sample e s).2.spi = s.spi := by rw [sample_eq]
@[simp] theorem sample_ow (e : PinExpr) (s : State) : (sample e s).2.ow = s.ow := by rw [sample_eq]
@[simp] theorem sample_owsearch (e : PinExpr) (s : State) : (sample e s).2.owsearch = s.owsearch := by rw [sample_eq]
@[simp] theorem sample_inflight (e : PinExpr) (s : State) : (sample e s).2.inflight = s.inflight := by rw [sample_eq]
@[simp] theorem sample_response (e : PinExpr) (s : State) : (sample e s).2.response = s.response := by rw [sample_eq]
@[simp] theorem sample_cmds (e : PinExpr) (s : State) : (sample e s).2.cmds = s.cmds := by rw [sample_eq]
@[simp] theorem sample_timing (e : PinExpr) (s : State) : (sample e s).2.timing = s.timing := by rw [sample_eq]
@[simp] theorem sample_env (e : PinExpr) (s : State) : (sample e s).2.env = envAfter e s := by rw [sample_eq]
@[simp] theorem sample_hist (e : PinExpr) (s : State) :
    (sample e s).2.hist = s.hist ++ sampleEvents e (leafAnswer e s) := by rw [sample_eq]
@[simp] theorem sample_level (e : PinExpr) (s : State) : (sample e s).1 = sampledLevel e (leafAnswer e s) := by rw [sample_eq]

/-- Everything `delay` does (R110). -/
theorem delay_eq (c : TimeClass) (s : State) :
    delay c s = { s with hist := s.hist ++ [.delay (s.cfg.duration c)], timing := s.timing.call } := rfl

/-- A sample with the same configuration, environment and history has the same answer. -/
theorem leafAnswer_congr {e : PinExpr} {s t : State} (hc : s.cfg = t.cfg) (he : s.env = t.env) (hh : s.hist = t.hist) :
    leafAnswer e s = leafAnswer e t := by
  simp only [leafAnswer, hc, he, hh]

/-- Each duration of a class is one of the four (R88). -/
theorem duration_mem (c : Cfg) (k : TimeClass) : c.duration k ∈ c.durations := by
  cases k <;> simp [Cfg.duration, Cfg.durations]

/-- A history after one more event: the last level driven on a port (R26). -/
theorem lastDrive_append_drive (p q : Port) (l : Level) (h : List Event) :
    lastDrive p (h ++ [.drive q l]) = if q = p then some l else lastDrive p h := by
  simp [lastDrive, List.foldl_append]

theorem lastDrive_append_sample (p q : Port) (l : Level) (h : List Event) :
    lastDrive p (h ++ [.sample q l]) = lastDrive p h := by
  simp [lastDrive, List.foldl_append]

theorem lastDrive_append_delay (p : Port) (us : Nat) (h : List Event) :
    lastDrive p (h ++ [.delay us]) = lastDrive p h := by
  simp [lastDrive, List.foldl_append]

/-- A timing source that allows a call returns from it, and allows one call fewer after (R110, R118). -/
theorem Timing.allows_call {d : Nat} {t : Timing} (h : t.allows (d + 1) = true) : t.call.allows d = true := by
  cases t with
  | returns => rfl
  | hangsAfter n =>
    cases n with
    | zero => simp [Timing.allows] at h
    | succ n => simpa [Timing.allows, Timing.call] using h
  | hung => simp [Timing.allows] at h

theorem Timing.not_hung_of_allows {d : Nat} {t : Timing} (h : t.allows d = true) : t ≠ .hung := by
  rintro rfl
  simp [Timing.allows] at h

end Sys2Proof.Machine
end

