-- ==== Sys2Proof/Laws/Commands.lean ====
section
/-! SUPPORT. The admission of a command, the response, the refusal and the run of the sequencer, each said once. -/

namespace Sys2Proof.Machine

/-- Everything `accept` can answer. -/
theorem accept_cases (s : State) (body : State → State) :
    (∃ c, s.cfg.firstFailure = some c ∧ accept s body = .refused (.illFormedConfig c)) ∨
    (s.cfg.WellFormed ∧ s.busy = true ∧ accept s body = .refused .commandInFlight) ∨
    (s.cfg.WellFormed ∧ s.busy = false ∧ accept s body = .next (body s)) := by
  unfold accept
  cases h : s.cfg.firstFailure with
  | some c => exact .inl ⟨c, rfl, rfl⟩
  | none =>
    cases hb : s.busy with
    | true => exact .inr (.inl ⟨h, rfl, rfl⟩)
    | false => exact .inr (.inr ⟨h, rfl, rfl⟩)

/-- A ready state accepts a command. -/
theorem accept_ready {s : State} (h : s.Ready) (body : State → State) : accept s body = .next (body s) := by
  have hw : s.cfg.firstFailure = none := h.wellFormed
  simp [accept, hw, h.idle]

/-- A command that answers a next state was accepted. -/
theorem accept_next {s t : State} {body : State → State} (h : accept s body = .next t) : s.Ready ∧ t = body s := by
  rcases accept_cases s body with ⟨c, -, h1⟩ | ⟨-, -, h1⟩ | ⟨hw, hb, h1⟩
  · rw [h1] at h
    cases h
  · rw [h1] at h
    cases h
  · rw [h1] at h
    exact ⟨⟨hw, hb⟩, (Host.Outcome.next.inj h).symm⟩

/-- Everything `checkPin` can answer, in the order of R61. -/
theorem checkPin_cases (c : Cfg) (slot : Nat) (need : Cap) :
    (c.nSlots ≤ slot ∧ checkPin c slot need = .error .badSlot) ∨
    (slot < c.nSlots ∧ c.owned slot = true ∧ checkPin c slot need = .error .slotOwned) ∨
    (slot < c.nSlots ∧ c.owned slot = false ∧ (c.slot slot).has need = false ∧
      checkPin c slot need = .error .noCapability) ∨
    (slot < c.nSlots ∧ c.owned slot = false ∧ (c.slot slot).has need = true ∧
      checkPin c slot need = .ok (c.slot slot)) := by
  unfold checkPin
  by_cases h1 : c.nSlots ≤ slot
  · exact .inl ⟨h1, if_pos h1⟩
  · have h1' : slot < c.nSlots := by omega
    rw [if_neg h1]
    by_cases h2 : c.owned slot = true
    · exact .inr (.inl ⟨h1', h2, if_pos h2⟩)
    · have h2' : c.owned slot = false := by simpa using h2
      rw [if_neg h2]
      by_cases h3 : (c.slot slot).has need = true
      · exact .inr (.inr (.inr ⟨h1', h2', h3, if_pos h3⟩))
      · exact .inr (.inr (.inl ⟨h1', h2', by simpa using h3, if_neg h3⟩))

@[simp] theorem respond_cfg (v : Byte) (s : State) : (respond v s).cfg = s.cfg := rfl
@[simp] theorem respond_spi (v : Byte) (s : State) : (respond v s).spi = s.spi := rfl
@[simp] theorem respond_ow (v : Byte) (s : State) : (respond v s).ow = s.ow := rfl
@[simp] theorem respond_owsearch (v : Byte) (s : State) : (respond v s).owsearch = s.owsearch := rfl
@[simp] theorem respond_inflight (v : Byte) (s : State) : (respond v s).inflight = none := rfl
@[simp] theorem respond_response (v : Byte) (s : State) : (respond v s).response = some (.ok v) := rfl
@[simp] theorem respond_hist (v : Byte) (s : State) : (respond v s).hist = s.hist := rfl
@[simp] theorem respond_cmds (v : Byte) (s : State) : (respond v s).cmds = s.cmds := rfl
@[simp] theorem respond_env (v : Byte) (s : State) : (respond v s).env = s.env := rfl
@[simp] theorem respond_timing (v : Byte) (s : State) : (respond v s).timing = s.timing := rfl

@[simp] theorem refuse_eq (r : RefuseReason) (s : State) : refuse r s = { s with response := some (.refused r) } := rfl

/-! ### The sequencer -/

theorem ticks_add (m n : Nat) (s : State) : ticks (m + n) s = ticks n (ticks m s) := by
  induction m generalizing s with
  | zero => simp [ticks]
  | succ m ih =>
    rw [Nat.succ_add]
    simp only [ticks]
    exact ih (tick s)

/-- With no command in flight nothing happens. -/
theorem tick_of_none {s : State} (h : s.inflight = none) : tick s = s := by simp [tick, h]

theorem tick_spi {s : State} {op : SpiOp} (h : s.inflight = some (.spi op)) : tick s = spiTick op s := by simp [tick, h]

theorem tick_ow {s : State} {op : OwOp} (h : s.inflight = some (.ow op)) : tick s = owTick op s := by simp [tick, h]

/-- Busy, or idle with both phases `Idle`. -/
theorem busy_eq_false {s : State} : s.busy = false ↔ s.spi.phase = .idle ∧ s.ow.phase = .idle := by
  simp [State.busy]

end Sys2Proof.Machine
end

