-- ==== Sys2Proof/Laws/PerInstr.lean ====
section
/-! SUPPORT. Per-instruction laws. `TableRow`: the encoded word of a well-formed command matches its own row of the
opcode map (30_encoding.md R43). -/

namespace Sys2Proof.Laws.TableRow

/-- The command's word, under its row's mask, is its row's pattern. -/
def Statement (i : Instr) : Prop := i.wellFormed = true → i.row.covers (encode i) = true

/-- A word made of an opcode and two bytes, under the masks of the four formats. -/
theorem mkWord_mask_S (op a : Byte) : mkWord op a 0 &&& 0xFF00FF = mkWord op 0 0 := by
  apply BitVec.eq_of_getLsbD_eq
  intro i hi
  simp only [mkWord, BitVec.getLsbD_and, BitVec.getLsbD_append]
  interval_cases i <;> simp

theorem mkWord_mask_SB (op a b : Byte) : mkWord op a b &&& 0xFF0000 = mkWord op 0 0 := by
  apply BitVec.eq_of_getLsbD_eq
  intro i hi
  simp only [mkWord, BitVec.getLsbD_and, BitVec.getLsbD_append]
  interval_cases i <;> simp

theorem mkWord_mask_B (op b : Byte) : mkWord op 0 b &&& 0xFFFF00 = mkWord op 0 0 := by
  apply BitVec.eq_of_getLsbD_eq
  intro i hi
  simp only [mkWord, BitVec.getLsbD_and, BitVec.getLsbD_append]
  interval_cases i <;> simp

theorem pinHigh (slot : Nat) : Statement (.pinHigh slot) := by
  intro _
  simp only [OpRow.covers, encode, Instr.row, mkWord_mask_S]
  decide

theorem pinLow (slot : Nat) : Statement (.pinLow slot) := by
  intro _
  simp only [OpRow.covers, encode, Instr.row, mkWord_mask_S]
  decide

theorem pinWrite (slot : Nat) (l : Level) : Statement (.pinWrite slot l) := by
  intro _
  simp only [OpRow.covers, encode, Instr.row, mkWord_mask_SB]
  decide

theorem pinRead (slot : Nat) : Statement (.pinRead slot) := by
  intro _
  simp only [OpRow.covers, encode, Instr.row, mkWord_mask_S]
  decide

theorem bitsDmsb (b : Byte) : Statement (.bitsDmsb b) := by
  intro _
  simp only [OpRow.covers, encode, Instr.row, mkWord_mask_B]
  decide

theorem bitsDlsb (b : Byte) : Statement (.bitsDlsb b) := by
  intro _
  simp only [OpRow.covers, encode, Instr.row, mkWord_mask_B]
  decide

theorem bitsRmsb (v : LevelVec) : Statement (.bitsRmsb v) := by
  intro _
  simp only [OpRow.covers, encode, Instr.row, mkWord_mask_B]
  decide

theorem bitsRlsb (v : LevelVec) : Statement (.bitsRlsb v) := by
  intro _
  simp only [OpRow.covers, encode, Instr.row, mkWord_mask_B]
  decide

theorem spiXfer (b : Byte) : Statement (.spiXfer b) := by
  intro _
  simp only [OpRow.covers, encode, Instr.row, mkWord_mask_B]
  decide

theorem spiWrite (b : Byte) : Statement (.spiWrite b) := by
  intro _
  simp only [OpRow.covers, encode, Instr.row, mkWord_mask_B]
  decide

theorem owReset : Statement .owReset := by
  intro _
  decide

theorem owWbit (l : Level) : Statement (.owWbit l) := by
  intro _
  simp only [OpRow.covers, encode, Instr.row, mkWord_mask_B]
  decide

theorem owRbit : Statement .owRbit := by
  intro _
  decide

theorem owWbyte (b : Byte) : Statement (.owWbyte b) := by
  intro _
  simp only [OpRow.covers, encode, Instr.row, mkWord_mask_B]
  decide

theorem owRbyte : Statement .owRbyte := by
  intro _
  decide

theorem owSearch (a b : Byte) : Statement (.owSearch a b) := by
  intro _
  simp only [OpRow.covers, encode, Instr.row, mkWord_mask_SB]
  decide

end Sys2Proof.Laws.TableRow
end

