-- ==== Sys2Proof/Laws/Sequencer.lean ====
section
/-! SUPPORT. The sequencer block by block: the four positions of an SPI bit cycle are `bit_cycle` of the pseudocode, the
positions of a 1-Wire bit-level sequence are `reset`, `write_bit` and `read_bit`. Runs of whole commands are put together
from these with `ticks_add`. -/

namespace Sys2Proof.Machine

/-! ### SPI -/

/-- Both SPI variants drive the same level (R79). -/
theorem spiOutLevel_eq (c : Cfg) (b : Byte) (k : Nat) : spiOutLevel c b k = bitLevel b (7 - k) := by
  unfold spiOutLevel bitLevel
  cases c.spiVariant <;> simp

theorem spiAdvance_eq (ph : SpiPhase) (s : State) :
    spiAdvance ph s = { s with spi := { s.spi with phase := ph, seq := s.spi.seq + 1 } } := rfl

/-- A state in the bit cycles of a transfer of `b`, at position `seq`, with the levels `rx` received so far. -/
def inTransfer (op : SpiOp) (b : Byte) (seq : Nat) (rx : LevelVec) (s : State) : State :=
  { s with spi := { phase := .bitCycle, seq := seq, tx := b, rx := rx }, inflight := some (.spi op), response := none }

/-- A bit cycle neither reads nor writes the SPI registers and the port. -/
theorem bitCycle_over (l : Level) (s : State) (x : SpiState) (i : Option EngineOp) (p : Option Response) :
    bitCycle l { s with spi := x, inflight := i, response := p } =
      ((bitCycle l s).1, { (bitCycle l s).2 with spi := x, inflight := i, response := p }) := by
  simp [bitCycle, low, high, read, write_eq_drive, drive_eq, sample_eq, leafAnswer, envAfter]

/-- A bit cycle appends its four events and takes the leaf's answer (R75). -/
theorem bitCycle_eq (l : Level) (s : State) :
    let h := s.hist ++ (driveEvents (s.cfg.slot s.cfg.spiClk) .low ++ driveEvents (s.cfg.slot s.cfg.spiMosi) l ++
      driveEvents (s.cfg.slot s.cfg.spiClk) .high)
    let r := leafAnswer (s.cfg.slot s.cfg.spiMiso) { s with hist := h }
    bitCycle l s = (sampledLevel (s.cfg.slot s.cfg.spiMiso) r,
      { s with env := envAfter (s.cfg.slot s.cfg.spiMiso) { s with hist := h }, hist := s.hist ++ bitCycleEvents s.cfg l r }) := by
  simp [bitCycle, low, high, read, write_eq_drive, drive_eq, sample_eq, bitCycleEvents]

@[simp] theorem bitCycle_cfg (l : Level) (s : State) : (bitCycle l s).2.cfg = s.cfg := by
  simp [bitCycle, low, high, read, write_eq_drive]

/-- The four positions of bit cycle `k`, before the last one. -/
theorem ticks_bitCycle (op : SpiOp) (b : Byte) (k : Nat) (hk : k < 7) (rx : LevelVec) (s : State) :
    ticks 4 (inTransfer op b (spiOffset s.cfg + 4 * k) rx s) =
      inTransfer op b (spiOffset s.cfg + 4 * (k + 1)) (rx.setIfInBounds k (bitCycle (bitLevel b (7 - k)) s).1)
        (bitCycle (bitLevel b (7 - k)) s).2 := by
  have e1 : (spiOffset s.cfg + 4 * k + 1 - spiOffset s.cfg) % 4 = 1 := by omega
  have d1 : (spiOffset s.cfg + 4 * k + 1 - spiOffset s.cfg) / 4 = k := by omega
  have e2 : (spiOffset s.cfg + 4 * k + 1 + 1 - spiOffset s.cfg) % 4 = 2 := by omega
  have e3 : (spiOffset s.cfg + 4 * k + 1 + 1 + 1 - spiOffset s.cfg) % 4 = 3 := by omega
  have d3 : (spiOffset s.cfg + 4 * k + 1 + 1 + 1 - spiOffset s.cfg) / 4 = k := by omega
  simp [inTransfer, spiAdvance_eq, ticks, tick, spiTick, e1, d1, e2, e3, d3, hk, low, high, read, write_eq_drive,
    drive_eq, bitCycle, spiOutLevel_eq, spiReceive, State.setSpi, sample_eq, leafAnswer, envAfter]
  omega

/-- The four positions of bit cycle 7: the phase after it is the select's, or the transfer is answered. -/
theorem ticks_lastBitCycle (op : SpiOp) (b : Byte) (rx : LevelVec) (s : State) :
    ticks 4 (inTransfer op b (spiOffset s.cfg + 28) rx s) =
      let r := bitCycle (bitLevel b 0) s
      let rx' := rx.setIfInBounds 7 r.1
      if s.cfg.spiHasSs then
        { r.2 with spi := { phase := .selectDeasserted, seq := spiOffset s.cfg + 32, tx := b, rx := rx' },
                   inflight := some (.spi op), response := none }
      else { r.2 with spi := { phase := .idle, seq := spiOffset s.cfg + 32, tx := b, rx := rx' }, inflight := none,
                      response := some (.ok (spiResult op rx')) } := by
  have e1 : (spiOffset s.cfg + 28 + 1 - spiOffset s.cfg) % 4 = 1 := by omega
  have d1 : (spiOffset s.cfg + 28 + 1 - spiOffset s.cfg) / 4 = 7 := by omega
  have e2 : (spiOffset s.cfg + 28 + 1 + 1 - spiOffset s.cfg) % 4 = 2 := by omega
  have e3 : (spiOffset s.cfg + 28 + 1 + 1 + 1 - spiOffset s.cfg) % 4 = 3 := by omega
  have d3 : (spiOffset s.cfg + 28 + 1 + 1 + 1 - spiOffset s.cfg) / 4 = 7 := by omega
  by_cases hs : s.cfg.spiHasSs <;>
    simp [inTransfer, spiAdvance_eq, ticks, tick, spiTick, e1, d1, e2, e3, d3, hs, low, high, read, write_eq_drive,
      drive_eq, bitCycle, spiOutLevel_eq, spiReceive, State.setSpi, sample_eq, leafAnswer, envAfter, spiFinish, respond,
      State.setInflight, State.setResponse]

/-- Writing all eight elements leaves nothing of the vector before. -/
theorem setIfInBounds_all (a b c d e f g h : Level) (v : LevelVec) :
    (((((((v.setIfInBounds 0 a).setIfInBounds 1 b).setIfInBounds 2 c).setIfInBounds 3 d).setIfInBounds 4 e).setIfInBounds
      5 f).setIfInBounds 6 g).setIfInBounds 7 h = #v[a, b, c, d, e, f, g, h] := by
  revert v
  rw [LevelVec.forall_iff]
  intros
  rfl

/-- The thirty-two positions of the eight bit cycles are the ordered transform of `bit_cycle` (R76, R83). -/
theorem ticks_bitCycles (op : SpiOp) (b : Byte) (rx : LevelVec) (s : State) :
    ticks 32 (inTransfer op b (spiOffset s.cfg) rx s) =
      let r := mapMsb b bitCycle s
      if s.cfg.spiHasSs then
        { r.2 with spi := { phase := .selectDeasserted, seq := spiOffset s.cfg + 32, tx := b, rx := r.1 },
                   inflight := some (.spi op), response := none }
      else { r.2 with spi := { phase := .idle, seq := spiOffset s.cfg + 32, tx := b, rx := r.1 }, inflight := none,
                      response := some (.ok (spiResult op r.1)) } := by
  have h : ∀ (k : Nat) (hk : k < 7) (rx : LevelVec) (t : State), t.cfg = s.cfg →
    ticks 4 (inTransfer op b (spiOffset s.cfg + 4 * k) rx t) =
      inTransfer op b (spiOffset s.cfg + 4 * (k + 1)) (rx.setIfInBounds k (bitCycle (bitLevel b (7 - k)) t).1)
        (bitCycle (bitLevel b (7 - k)) t).2 := by
    intro k hk rx t ht
    rw [← ht]
    exact ticks_bitCycle op b k hk rx t
  obtain ⟨r0, h0⟩ : ∃ r, bitCycle (bitLevel b 7) s = r := ⟨_, rfl⟩
  obtain ⟨r1, h1⟩ : ∃ r, bitCycle (bitLevel b 6) r0.2 = r := ⟨_, rfl⟩
  obtain ⟨r2, h2⟩ : ∃ r, bitCycle (bitLevel b 5) r1.2 = r := ⟨_, rfl⟩
  obtain ⟨r3, h3⟩ : ∃ r, bitCycle (bitLevel b 4) r2.2 = r := ⟨_, rfl⟩
  obtain ⟨r4, h4⟩ : ∃ r, bitCycle (bitLevel b 3) r3.2 = r := ⟨_, rfl⟩
  obtain ⟨r5, h5⟩ : ∃ r, bitCycle (bitLevel b 2) r4.2 = r := ⟨_, rfl⟩
  obtain ⟨r6, h6⟩ : ∃ r, bitCycle (bitLevel b 1) r5.2 = r := ⟨_, rfl⟩
  obtain ⟨r7, h7⟩ : ∃ r, bitCycle (bitLevel b 0) r6.2 = r := ⟨_, rfl⟩
  have c0 : r0.2.cfg = s.cfg := by rw [← h0, bitCycle_cfg]
  have c1 : r1.2.cfg = s.cfg := by rw [← h1, bitCycle_cfg, c0]
  have c2 : r2.2.cfg = s.cfg := by rw [← h2, bitCycle_cfg, c1]
  have c3 : r3.2.cfg = s.cfg := by rw [← h3, bitCycle_cfg, c2]
  have c4 : r4.2.cfg = s.cfg := by rw [← h4, bitCycle_cfg, c3]
  have c5 : r5.2.cfg = s.cfg := by rw [← h5, bitCycle_cfg, c4]
  have c6 : r6.2.cfg = s.cfg := by rw [← h6, bitCycle_cfg, c5]
  have hm := mapMsb_chain h0 h1 h2 h3 h4 h5 h6 h7
  rw [show (32 : Nat) = 4 + (4 + (4 + (4 + (4 + (4 + (4 + 4)))))) from rfl]
  simp only [ticks_add]
  have g0 := h 0 (by omega) rx s rfl
  simp only [Nat.mul_zero, Nat.add_zero, Nat.sub_zero, h0] at g0
  rw [g0]
  have g1 := fun rx => h 1 (by omega) rx r0.2 c0
  simp only [Nat.reduceSub, h1] at g1
  rw [g1]
  have g2 := fun rx => h 2 (by omega) rx r1.2 c1
  simp only [Nat.reduceSub, h2] at g2
  rw [g2]
  have g3 := fun rx => h 3 (by omega) rx r2.2 c2
  simp only [Nat.reduceSub, h3] at g3
  rw [g3]
  have g4 := fun rx => h 4 (by omega) rx r3.2 c3
  simp only [Nat.reduceSub, h4] at g4
  rw [g4]
  have g5 := fun rx => h 5 (by omega) rx r4.2 c4
  simp only [Nat.reduceSub, h5] at g5
  rw [g5]
  have g6 := fun rx => h 6 (by omega) rx r5.2 c5
  simp only [Nat.reduceSub, h6] at g6
  rw [g6]
  have gl := fun rx => ticks_lastBitCycle op b rx r6.2
  simp only [c6, h7] at gl
  rw [gl, hm, setIfInBounds_all]

/-! ### 1-Wire -/

theorem blocked_eq_false {s : State} (h : s.timing ≠ .hung) : s.blocked = false := by simp [State.blocked, h]

theorem Timing.call_not_hung {d : Nat} {t : Timing} (h : t.allows (d + 1) = true) : t.call ≠ .hung :=
  Timing.not_hung_of_allows (Timing.allows_call h)

/-- The sequence of a command does not depend on the position in it. -/
theorem owSequence_seq (op : OwOp) (c : Cfg) (x : OwState) (q : Nat) :
    owSequence op c { x with seq := q } = owSequence op c x := by
  cases op <;> rfl

/-- A 1-Wire operation neither reads nor writes the 1-Wire registers and the port. -/
theorem owReset_over (s : State) (x : OwState) (i : Option EngineOp) (p : Option Response) :
    owReset { s with ow := x, inflight := i, response := p } =
      ((owReset s).1, { (owReset s).2 with ow := x, inflight := i, response := p }) := by
  simp [owReset, low, high, read, drive_eq, delay_eq, sample_eq, leafAnswer, envAfter, Cfg.duration]

theorem writeBit_over (l : Level) (s : State) (x : OwState) (i : Option EngineOp) (p : Option Response) :
    writeBit l { s with ow := x, inflight := i, response := p } =
      { writeBit l s with ow := x, inflight := i, response := p } := by
  simp [writeBit, low, high, drive_eq, delay_eq, Cfg.duration]

theorem readBit_over (s : State) (x : OwState) (i : Option EngineOp) (p : Option Response) :
    readBit { s with ow := x, inflight := i, response := p } =
      ((readBit s).1, { (readBit s).2 with ow := x, inflight := i, response := p }) := by
  simp [readBit, low, high, read, drive_eq, delay_eq, sample_eq, leafAnswer, envAfter, Cfg.duration]

/-- The three positions of a write slot, where the timing source returns from its call (R92). -/
theorem ticks_writeSlot (op : OwOp) (l : Level) (s : State) (hi : s.inflight = some (.ow op)) (hq : s.ow.seq = 0)
    (ha : owSequence op s.cfg s.ow = owWriteSequence s.cfg.owClass l) (ht : s.timing.allows 1 = true) :
    ticks 3 s = owAdvance op 3 { writeBit l s with ow := { s.ow with seq := 2 } } := by
  have h0 := Timing.not_hung_of_allows ht
  have h1 := Timing.call_not_hung ht
  simp [ticks, tick, owTick, hi, ha, owSequence_seq, hq, owWriteSequence, blocked_eq_false, h0, h1, owPerform, owAdvance,
    low, high, drive_eq, delay_eq, State.setOw, writeBit]

/-- The five positions of a read slot, where the timing source returns from its two calls (R93). -/
theorem ticks_readSlot (op : OwOp) (s : State) (hi : s.inflight = some (.ow op)) (hq : s.ow.seq = 0)
    (ha : owSequence op s.cfg s.ow = owReadSequence s.cfg.owClass) (ht : s.timing.allows 2 = true) :
    ticks 5 s = owAdvance op 5 { (readBit s).2 with
      ow := { s.ow with seq := 4, rx := s.ow.rx.setIfInBounds (owRxIndex op s.ow) (readBit s).1 } } := by
  have h0 := Timing.not_hung_of_allows ht
  have h1 := Timing.call_not_hung ht
  have h2 := Timing.call_not_hung (Timing.allows_call ht)
  have hx : ∀ q, owRxIndex op { s.ow with seq := q } = owRxIndex op s.ow := fun q => rfl
  simp [ticks, tick, owTick, hi, ha, owSequence_seq, hq, owReadSequence, blocked_eq_false, h0, h1, h2, owPerform,
    owAdvance, low, high, read, drive_eq, delay_eq, State.setOw, readBit, sample_eq, owReceive, leafAnswer, envAfter, hx,
    Cfg.duration]

/-- The five positions of a reset, where the timing source returns from its two calls (R90). -/
theorem ticks_resetSlot (s : State) (hi : s.inflight = some (.ow .reset)) (hq : s.ow.seq = 0)
    (ht : s.timing.allows 2 = true) :
    ticks 5 s = owAdvance .reset 5 { (owReset s).2 with
      ow := { s.ow with seq := 4, rx := s.ow.rx.setIfInBounds 0 (owReset s).1 } } := by
  have h0 := Timing.not_hung_of_allows ht
  have h1 := Timing.call_not_hung ht
  have h2 := Timing.call_not_hung (Timing.allows_call ht)
  simp [ticks, tick, owTick, hi, owSequence, hq, owResetSequence, blocked_eq_false, h0, h1, h2, owPerform,
    owAdvance, low, high, read, drive_eq, delay_eq, State.setOw, owReset, sample_eq, owReceive, leafAnswer, envAfter,
    owRxIndex, OwOp.isByte, Cfg.duration]

/-- Everything `write_bit` does (R92). -/
theorem writeBit_eq (l : Level) (s : State) :
    writeBit l s = { s with hist := s.hist ++ writeBitEvents s.cfg l, timing := s.timing.call } := by
  cases l <;> simp [writeBit, low, high, drive_eq, delay_eq, writeBitEvents, Cfg.line]

/-- Everything `read_bit` does (R93). -/
theorem readBit_eq (s : State) :
    let line := s.cfg.slot s.cfg.owLine
    let h := s.hist ++ (driveEvents line .low ++ [.delay (s.cfg.duration s.cfg.owClass.rLow)] ++ driveEvents line .high ++
      [.delay (s.cfg.duration s.cfg.owClass.rWait)])
    let r := leafAnswer line { s with hist := h }
    readBit s = (sampledLevel line r, { s with
      env := envAfter line { s with hist := h }, hist := s.hist ++ readBitEvents s.cfg r, timing := s.timing.call.call }) := by
  simp [readBit, low, high, Machine.read, drive_eq, delay_eq, sample_eq, readBitEvents, Cfg.line, leafAnswer, envAfter,
    Cfg.duration]

/-- Everything `reset` does (R90). -/
theorem owReset_eq (s : State) :
    let line := s.cfg.slot s.cfg.owLine
    let h := s.hist ++ (driveEvents line .low ++ [.delay (s.cfg.duration s.cfg.owClass.resetLow)] ++
      driveEvents line .high ++ [.delay (s.cfg.duration s.cfg.owClass.resetWait)])
    let r := leafAnswer line { s with hist := h }
    owReset s = (sampledLevel line r, { s with
      env := envAfter line { s with hist := h }, hist := s.hist ++ owResetEvents s.cfg r, timing := s.timing.call.call }) := by
  simp [owReset, low, high, Machine.read, drive_eq, delay_eq, sample_eq, owResetEvents, Cfg.line, leafAnswer, envAfter,
    Cfg.duration]

/-- A state at the first position of bit `k` of a byte command with operand `b`, with the levels `rx` received so far. -/
def inByte (op : OwOp) (k : Nat) (b : Byte) (rx : LevelVec) (s : State) : State :=
  { s with ow := { phase := .byteOp, seq := 0, bitidx := k, tx := b, rx := rx }, inflight := some (.ow op), response := none }

/-- A state after a byte command whose last bit-level sequence has `q` positions. -/
def afterByte (op : OwOp) (q : Nat) (b : Byte) (rx : LevelVec) (s : State) : State :=
  { s with ow := { phase := .idle, seq := q, bitidx := 8, tx := b, rx := rx }, inflight := none,
           response := some (.ok (owResult op s.cfg rx)) }

/-- One bit of `OW.WBYTE`, where the timing source returns from its call (R94, R100). -/
theorem ticks_writeByteBit (k : Nat) (b : Byte) (rx : LevelVec) (s : State) (ht : s.timing.allows 1 = true) :
    ticks 3 (inByte .wbyte k b rx s) =
      let t := writeBit (levelAt (decompose s.cfg.owByteOrder b) k) s
      if k < 7 then inByte .wbyte (k + 1) b rx t else afterByte .wbyte 3 b rx t := by
  rw [ticks_writeSlot .wbyte (levelAt (decompose s.cfg.owByteOrder b) k) (inByte .wbyte k b rx s) rfl rfl rfl ht]
  simp only [inByte, writeBit_over]
  rcases Nat.lt_or_ge k 7 with h | h
  · simp [owAdvance, OwOp.isByte, h, State.setOw]
  · simp [owAdvance, OwOp.isByte, Nat.not_lt.2 h, h, State.setOw, owFinish, respond, State.setInflight, State.setResponse,
      afterByte]

/-- One bit of `OW.RBYTE`, where the timing source returns from its two calls (R94, R101). -/
theorem ticks_readByteBit (k : Nat) (b : Byte) (rx : LevelVec) (s : State) (ht : s.timing.allows 2 = true) :
    ticks 5 (inByte .rbyte k b rx s) =
      let t := readBit s
      if k < 7 then inByte .rbyte (k + 1) b (rx.setIfInBounds k t.1) t.2
      else afterByte .rbyte 5 b (rx.setIfInBounds k t.1) t.2 := by
  rw [ticks_readSlot .rbyte (inByte .rbyte k b rx s) rfl rfl rfl ht]
  have hx : owRxIndex .rbyte (inByte .rbyte k b rx s).ow = k := rfl
  rw [hx]
  simp only [inByte, readBit_over]
  rcases Nat.lt_or_ge k 7 with h | h
  · simp [owAdvance, OwOp.isByte, h, State.setOw]
  · simp [owAdvance, OwOp.isByte, Nat.not_lt.2 h, h, State.setOw, owFinish, respond, State.setInflight, State.setResponse,
      afterByte]

/-! ### Eight samples in order -/

/-- Eight accesses in a row, each of which appends `pre l` for its level `l` and then samples a pin expression: the events
in order, the levels the leaf answered, and each answer in the history and the environment it is taken in (R68, R94). -/
theorem mapLevels_sampling (v : LevelVec) (f : Level → State → Level × State) (e : PinExpr) (pre : Level → List Event)
    (call : Timing → Timing) (s : State)
    (hf : ∀ (l : Level) (t : State), t.cfg = s.cfg →
      f l t = (sampledLevel e (leafAnswer e { t with hist := t.hist ++ pre l }), { t with
        env := envAfter e { t with hist := t.hist ++ pre l }
        hist := t.hist ++ (pre l ++ sampleEvents e (leafAnswer e { t with hist := t.hist ++ pre l }))
        timing := call t.timing })) :
    ∃ (r : LevelVec) (last : Env),
      mapLevels v f s = (r.map (sampledLevel e), { s with
        env := last
        hist := s.hist ++ (List.range 8).flatMap (fun k => pre (levelAt v k) ++ sampleEvents e (levelAt r k))
        timing := call^[8] s.timing }) ∧
      AnswersInOrder e s (fun k => (List.range k).flatMap (fun j => pre (levelAt v j) ++ sampleEvents e (levelAt r j)) ++
        pre (levelAt v k)) r last := by
  -- one access from a state `s` with another environment, history and timing source
  have key : ∀ (l : Level) (env : Env) (h : List Event) (tm : Timing), ∃ (a : Level) (env' : Env),
      f l { s with env := env, hist := h, timing := tm } = (sampledLevel e a,
        { s with env := env', hist := h ++ (pre l ++ sampleEvents e a), timing := call tm }) ∧
      a = leafAnswer e { s with env := env, hist := h ++ pre l } ∧
      env' = envAfter e { s with env := env, hist := h ++ pre l } :=
    fun l env h tm => ⟨_, _, hf l { s with env := env, hist := h, timing := tm } rfl, rfl, rfl⟩
  obtain ⟨a0, e0, h0, g0⟩ := key v[0] s.env s.hist s.timing
  obtain ⟨x1, y1⟩ : ∃ x, x = s.hist ++ (pre v[0] ++ sampleEvents e a0) := ⟨_, rfl⟩
  obtain ⟨a1, e1, h1, g1⟩ := key v[1] e0 x1 (call^[1] s.timing)
  obtain ⟨x2, y2⟩ : ∃ x, x = x1 ++ (pre v[1] ++ sampleEvents e a1) := ⟨_, rfl⟩
  obtain ⟨a2, e2, h2, g2⟩ := key v[2] e1 x2 (call^[2] s.timing)
  obtain ⟨x3, y3⟩ : ∃ x, x = x2 ++ (pre v[2] ++ sampleEvents e a2) := ⟨_, rfl⟩
  obtain ⟨a3, e3, h3, g3⟩ := key v[3] e2 x3 (call^[3] s.timing)
  obtain ⟨x4, y4⟩ : ∃ x, x = x3 ++ (pre v[3] ++ sampleEvents e a3) := ⟨_, rfl⟩
  obtain ⟨a4, e4, h4, g4⟩ := key v[4] e3 x4 (call^[4] s.timing)
  obtain ⟨x5, y5⟩ : ∃ x, x = x4 ++ (pre v[4] ++ sampleEvents e a4) := ⟨_, rfl⟩
  obtain ⟨a5, e5, h5, g5⟩ := key v[5] e4 x5 (call^[5] s.timing)
  obtain ⟨x6, y6⟩ : ∃ x, x = x5 ++ (pre v[5] ++ sampleEvents e a5) := ⟨_, rfl⟩
  obtain ⟨a6, e6, h6, g6⟩ := key v[6] e5 x6 (call^[6] s.timing)
  obtain ⟨x7, y7⟩ : ∃ x, x = x6 ++ (pre v[6] ++ sampleEvents e a6) := ⟨_, rfl⟩
  obtain ⟨a7, e7, h7, g7⟩ := key v[7] e6 x7 (call^[7] s.timing)
  subst y7 y6 y5 y4 y3 y2 y1
  refine ⟨#v[a0, a1, a2, a3, a4, a5, a6, a7], e7, ?_,
    fun k => [s.env, e0, e1, e2, e3, e4, e5, e6, e7].getD k e7, rfl, rfl, ?_⟩
  · simp only [Function.iterate_succ_apply', Function.iterate_zero, id] at h1 h2 h3 h4 h5 h6 h7
    simp only [mapLevels, h0, h1, h2, h3, h4, h5, h6, h7]
    simp [List.range, List.range.loop, levelAt]
  · intro k hk
    have hk' : k = 0 ∨ k = 1 ∨ k = 2 ∨ k = 3 ∨ k = 4 ∨ k = 5 ∨ k = 6 ∨ k = 7 := by omega
    rcases hk' with rfl | rfl | rfl | rfl | rfl | rfl | rfl | rfl
    · simpa [levelAt, List.range, List.range.loop] using g0
    · simpa [levelAt, List.range, List.range.loop] using g1
    · simpa [levelAt, List.range, List.range.loop] using g2
    · simpa [levelAt, List.range, List.range.loop] using g3
    · simpa [levelAt, List.range, List.range.loop] using g4
    · simpa [levelAt, List.range, List.range.loop] using g5
    · simpa [levelAt, List.range, List.range.loop] using g6
    · simpa [levelAt, List.range, List.range.loop] using g7

/-- The eight bit cycles of a transfer (R76, R83). -/
theorem mapMsb_bitCycle (b : Byte) (s : State) :
    ∃ (r : LevelVec) (last : Env),
      mapMsb b bitCycle s = (r.map (sampledLevel (s.cfg.slot s.cfg.spiMiso)), { s with
        env := last
        hist := s.hist ++ (List.range 8).flatMap (fun k => bitCycleEvents s.cfg (bitLevel b (7 - k)) (levelAt r k)) }) ∧
      AnswersInOrder (s.cfg.slot s.cfg.spiMiso) s (fun k =>
        (List.range k).flatMap (fun j => bitCycleEvents s.cfg (bitLevel b (7 - j)) (levelAt r j)) ++
          (driveEvents (s.cfg.slot s.cfg.spiClk) .low ++ driveEvents (s.cfg.slot s.cfg.spiMosi) (bitLevel b (7 - k)) ++
            driveEvents (s.cfg.slot s.cfg.spiClk) .high)) r last := by
  have hl : ∀ k, k < 8 → levelAt (decomposeMsb b) k = bitLevel b (7 - k) := by
    intro k hk
    have hk' : k = 0 ∨ k = 1 ∨ k = 2 ∨ k = 3 ∨ k = 4 ∨ k = 5 ∨ k = 6 ∨ k = 7 := by omega
    rcases hk' with rfl | rfl | rfl | rfl | rfl | rfl | rfl | rfl <;> rfl
  obtain ⟨r, last, h, env, h0, h8, ha⟩ := mapLevels_sampling (decomposeMsb b) bitCycle (s.cfg.slot s.cfg.spiMiso)
    (fun l => driveEvents (s.cfg.slot s.cfg.spiClk) .low ++ driveEvents (s.cfg.slot s.cfg.spiMosi) l ++
      driveEvents (s.cfg.slot s.cfg.spiClk) .high) id s (by
      intro l t ht
      have h := bitCycle_eq l t
      simp only [ht] at h
      rw [h, ← ht]
      rfl)
  have hm : ∀ n, n ≤ 8 → (List.range n).flatMap (fun k =>
      driveEvents (s.cfg.slot s.cfg.spiClk) .low ++ driveEvents (s.cfg.slot s.cfg.spiMosi) (levelAt (decomposeMsb b) k) ++
        driveEvents (s.cfg.slot s.cfg.spiClk) .high ++ sampleEvents (s.cfg.slot s.cfg.spiMiso) (levelAt r k)) =
      (List.range n).flatMap (fun k => bitCycleEvents s.cfg (bitLevel b (7 - k)) (levelAt r k)) := fun n hn =>
    List.flatMap_congr fun k hk => by
      rw [hl k (Nat.lt_of_lt_of_le (List.mem_range.1 hk) hn)]
      rfl
  refine ⟨r, last, ?_, env, h0, h8, fun k hk => ?_⟩
  · rw [mapMsb, h, hm 8 (Nat.le_refl 8)]
    rfl
  · have hak := ha k hk
    beta_reduce at hak
    rw [hl k hk, hm k (Nat.le_of_lt hk)] at hak
    exact hak

/-- `read_byte` (R94, R101). -/
theorem readByte_eq (s : State) :
    ∃ (r : LevelVec) (last : Env),
      readByte s = (r.map (sampledLevel (s.cfg.slot s.cfg.owLine)), { s with
        env := last
        hist := s.hist ++ (List.range 8).flatMap (fun k => readBitEvents s.cfg (levelAt r k))
        timing := (fun t => t.call.call)^[8] s.timing }) ∧
      AnswersInOrder (s.cfg.slot s.cfg.owLine) s (eventsBeforeReadSample s.cfg r) r last := by
  refine mapLevels_sampling _ _ (s.cfg.slot s.cfg.owLine) (fun _ => driveEvents (Cfg.line s.cfg) .low ++
    [.delay (s.cfg.duration s.cfg.owClass.rLow)] ++ driveEvents (Cfg.line s.cfg) .high ++
      [.delay (s.cfg.duration s.cfg.owClass.rWait)]) (fun t => t.call.call) s ?_
  intro l t ht
  have h := readBit_eq t
  simp only [ht] at h
  rw [h, ← ht]
  rfl

end Sys2Proof.Machine
end

