-- ==== Sys2Proof/Machine/Assembly.lean ====
section
/-! DEFINITION. The assembler's spelling of a command (30_encoding.md R47): one line, the mnemonic and its operands. The
block executes none of it; a line stands for the command it spells. -/

namespace Sys2Proof

/-- A hexadecimal digit in capitals. -/
def hexDigit (n : Nat) : Char :=
  ['0', '1', '2', '3', '4', '5', '6', '7', '8', '9', 'A', 'B', 'C', 'D', 'E', 'F'].getD n '0'

/-- A byte: `0x` and two hexadecimal digits. -/
def byteText (b : Byte) : List Char := ['0', 'x', hexDigit (b.toNat / 16), hexDigit (b.toNat % 16)]

/-- A slot: `s` and its decimal number. -/
def slotText (s : Nat) : List Char := 's' :: Nat.toDigits 10 s

/-- A level: `High` or `Low`. -/
def levelText : Level → List Char
  | .high => ['H', 'i', 'g', 'h']
  | .low => ['L', 'o', 'w']

/-- A level's letter inside a vector. -/
def levelLetter : Level → Char
  | .high => 'H'
  | .low => 'L'

/-- A level vector: eight letters in square brackets, the first element first. -/
def vecText (v : LevelVec) : List Char := ['['] ++ v.toList.map levelLetter ++ [']']

/-- The operands of a command, in the order R47 and R38 write them. -/
def Instr.operandTexts : Instr → List (List Char)
  | .pinHigh s => [slotText s]
  | .pinLow s => [slotText s]
  | .pinWrite s l => [slotText s, levelText l]
  | .pinRead s => [slotText s]
  | .bitsDmsb b => [byteText b]
  | .bitsDlsb b => [byteText b]
  | .bitsRmsb v => [vecText v]
  | .bitsRlsb v => [vecText v]
  | .spiXfer b => [byteText b]
  | .spiWrite b => [byteText b]
  | .owReset => []
  | .owWbit l => [levelText l]
  | .owRbit => []
  | .owWbyte b => [byteText b]
  | .owRbyte => []
  | .owSearch _ _ => []

end Sys2Proof
end

