-- ==== Sys2Proof/Tests/Slice0.lean ====
section
/-! SUPPORT. Tests. Expected values are those of spec/95_test_vectors.md (the vector is named before each group) or are
worked out by hand from the rule named; none was taken from the model. After them, the witnesses: for each obligation with
hypotheses, a state and operands that meet them. -/

namespace Sys2Proof.Tests

open Sys2Proof Sys2Proof.Machine

/-! ### Reference configurations (95_test_vectors.md section 0). The ports of `CFG_A` and `CFG_B` are numbered
clk 0, mosi 1, miso 2, ss 3, p4 4, p5 5; those of `CFG_C` ow 0, p1 1; those of `CFG_D` as they are named. -/

def outp (p : Port) : PinExpr := .ext p ⟨true, false⟩
def inpp (p : Port) : PinExpr := .ext p ⟨false, true⟩
def both (p : Port) : PinExpr := .ext p ⟨true, true⟩

def cfgA : Cfg := { resetCfg with
  pinCfg := [outp 0, outp 1, inpp 2, outp 3, outp 4, .inv (inpp 5), .dummy, .constHigh]
  spiClk := 0, spiMosi := 1, spiMiso := 2, spiSs := 3, owPresent := false }

def cfgB : Cfg := { resetCfg with
  pinCfg := [outp 0, .inv (outp 1), inpp 2]
  spiClk := 0, spiMosi := 1, spiMiso := 2, spiHasSs := false, owPresent := false }

def cfgC : Cfg := { resetCfg with pinCfg := [both 0, outp 1], spiPresent := false, owLine := 0 }

def cfgD : Cfg := { resetCfg with
  pinCfg := [outp 0, .inv (.inv (outp 1)), .inv (.inv (inpp 2)), .dummy, .constHigh, .inv .constHigh]
  spiPresent := false, owPresent := false }

/-- An instance right after reset, with scripted answers. -/
def scripted (c : Cfg) (ls : List Level) : State := { State.reset with cfg := c, env := ⟨[], ls⟩ }

/-- An instance right after reset, with one named environment. -/
def ruled (c : Cfg) (p : Port) (r : PortRule) : State := { State.reset with cfg := c, env := ⟨[(p, r)], []⟩ }

/-- The instance with one word issued. -/
def issuing (s : State) (w : CmdWord) : State := { s with cmds := [w] }

/-- The trace and the response word of an outcome; a reset state's history is empty. -/
def seen (o : Host.Outcome State Fault Refusal) : Option (List Event × Option RespWord) :=
  match o with
  | .next t => some (t.hist, t.response.map Response.word)
  | .fault _ => none
  | .refused _ => none

/-- The refusal reason of an outcome's response. -/
def reasonOf (o : Host.Outcome State Fault Refusal) : Option RefuseReason :=
  match o with
  | .next t => match t.response with
    | some (.refused r) => some r
    | some (.ok _) => none
    | none => none
  | .fault _ => none
  | .refused _ => none

/-- The response word alone. -/
def answered (o : Host.Outcome State Fault Refusal) : Option RespWord := (seen o).bind Prod.snd

/-- The durations of a trace. -/
def delaysOf (o : Host.Outcome State Fault Refusal) : List Nat :=
  ((seen o).map Prod.fst).getD [] |>.filterMap fun ev =>
    match ev with
    | .drive _ _ => none
    | .sample _ _ => none
    | .delay us => some us

/-- The number of events of a trace. -/
def countOf (o : Host.Outcome State Fault Refusal) : Nat := (((seen o).map Prod.fst).getD []).length

/-! ### Well-formedness: each check refuses an ill-formed term -/

theorem test_wf_pinHigh : (Instr.pinHigh 256).wellFormed = false := by decide
theorem test_wf_pinLow : (Instr.pinLow 256).wellFormed = false := by decide
theorem test_wf_pinWrite : (Instr.pinWrite 256 .low).wellFormed = false := by decide
theorem test_wf_pinRead : (Instr.pinRead 300).wellFormed = false := by decide
theorem test_wf_reference : cfgA.firstFailure = none ∧ cfgB.firstFailure = none ∧ cfgC.firstFailure = none ∧
    cfgD.firstFailure = none ∧ resetCfg.firstFailure = none := by decide
theorem test_wf_slotCount : { cfgD with pinCfg := [] }.firstFailure = some .slotCount := by decide
theorem test_wf_capsNonempty : { cfgD with pinCfg := [.ext 0 ⟨false, false⟩] }.firstFailure = some .capsNonempty := by decide
theorem test_wf_slotsInRange : { cfgC with owLine := 2 }.firstFailure = some .slotsInRange := by decide
theorem test_wf_spiCaps : { cfgA with spiClk := 2, spiMiso := 0 }.firstFailure = some .spiCaps := by decide
theorem test_wf_owCaps : { cfgC with owLine := 1 }.firstFailure = some .owCaps := by decide
theorem test_wf_rolesDistinct : { cfgA with spiSs := 0 }.firstFailure = some .rolesDistinct := by decide
theorem test_wf_portsDistinct : { cfgC with pinCfg := [both 0, outp 0] }.firstFailure = some .portsDistinct := by decide
theorem test_wf_durationsDistinct : { cfgC with tLong := 1 }.firstFailure = some .durationsDistinct := by decide
theorem test_wf_writeClassesDistinct :
    { cfgC with owClass := { defaultOwClass with w0Low := .short } }.firstFailure = some .writeClassesDistinct := by decide

/-! ### Decoding: words written out from R39, R41, R43 -/

theorem test_decode_pinHigh : decode 0b000000010000010000000000 = .ok (.pinHigh 4) := by decide
theorem test_decode_pinLow : decode 0b000000101111111100000000 = .ok (.pinLow 255) := by decide
theorem test_decode_pinWrite : decode 0b000000110000010010000000 = .ok (.pinWrite 4 .high) := by decide
theorem test_decode_pinRead : decode 0b000001000000010100000000 = .ok (.pinRead 5) := by decide
theorem test_decode_bitsDmsb : decode 0b000100000000000010010110 = .ok (.bitsDmsb 0x96) := by decide
theorem test_decode_bitsDlsb : decode 0b000100010000000010010110 = .ok (.bitsDlsb 0x96) := by decide
theorem test_decode_bitsRmsb :
    decode 0b000100100000000001101001 = .ok (.bitsRmsb #v[.high, .low, .low, .high, .low, .high, .high, .low]) := by decide
theorem test_decode_bitsRlsb :
    decode 0b000100110000000010000000 = .ok (.bitsRlsb #v[.low, .low, .low, .low, .low, .low, .low, .high]) := by decide
theorem test_decode_spiXfer : decode 0b001000000000000010100101 = .ok (.spiXfer 0xA5) := by decide
theorem test_decode_spiWrite : decode 0b001000010000000010100101 = .ok (.spiWrite 0xA5) := by decide
theorem test_decode_owReset : decode 0b001100000000000000000000 = .ok .owReset := by decide
theorem test_decode_owWbit : decode 0b001100010000000011111111 = .ok (.owWbit .high) := by decide
theorem test_decode_owRbit : decode 0b001100100000000000000000 = .ok .owRbit := by decide
theorem test_decode_owWbyte : decode 0b001100110000000011001100 = .ok (.owWbyte 0xCC) := by decide
theorem test_decode_owRbyte : decode 0b001101000000000000000000 = .ok .owRbyte := by decide
theorem test_decode_owSearch : decode 0b001111111010101111001101 = .ok (.owSearch 0xAB 0xCD) := by decide
/-- X1 to X6, S18, W29. -/
theorem test_decode_unknownOp : decode 0x000000 = .error .unknownOp ∧ decode 0xFFFFFF = .error .unknownOp ∧
    decode 0x050000 = .error .unknownOp ∧ decode 0x140000 = .error .unknownOp ∧ decode 0x3E0000 = .error .unknownOp ∧
    decode 0x400000 = .error .unknownOp ∧ decode 0x220000 = .error .unknownOp ∧ decode 0x350000 = .error .unknownOp :=
  ⟨rfl, rfl, rfl, rfl, rfl, rfl, rfl, rfl⟩
/-- P-18, P-19, B-1 to B-4, S14, W20 to W23. -/
theorem test_decode_nonzeroReserved : decode 0x010401 = .error .nonzeroReserved ∧ decode 0x0405FF = .error .nonzeroReserved ∧
    decode 0x100196 = .error .nonzeroReserved ∧ decode 0x11FF00 = .error .nonzeroReserved ∧
    decode 0x120169 = .error .nonzeroReserved ∧ decode 0x138000 = .error .nonzeroReserved ∧
    decode 0x2001A5 = .error .nonzeroReserved ∧ decode 0x300001 = .error .nonzeroReserved ∧
    decode 0x320100 = .error .nonzeroReserved ∧ decode 0x310101 = .error .nonzeroReserved ∧
    decode 0x3401FF = .error .nonzeroReserved :=
  ⟨rfl, rfl, rfl, rfl, rfl, rfl, rfl, rfl, rfl, rfl, rfl⟩
theorem test_decodeTableWord : decodeTableWord 24 0x3300CC = some (.owWbyte 0xCC) := by decide

/-! ### Assembly (R47) -/

theorem test_asm_vector : (Instr.bitsRmsb (unpackVec 0xA5)).operandTexts = ["[HLHLLHLH]".toList] := by decide
theorem test_asm_slot_level : (Instr.pinWrite 25 .high).operandTexts = ["s25".toList, "High".toList] := by decide
theorem test_asm_byte : (Instr.spiXfer 0xA5).operandTexts = ["0xA5".toList] := by decide

/-! ### Pins -/

/-- P-1. -/
theorem test_pinHigh : seen (exec (.pinHigh 4) (scripted cfgA [])) = some ([.drive 4 .high], some 0x0000) := by decide
/-- P-12, P-14, P-16. -/
theorem test_pinHigh_refused : [7, 0, 8].map (fun n => reasonOf (exec (.pinHigh n) (scripted cfgA []))) =
    [some .noCapability, some .slotOwned, some .badSlot] := by decide
/-- P-2; R58 on an inverted pin. -/
theorem test_pinLow : seen (exec (.pinLow 4) (scripted cfgA [])) = some ([.drive 4 .low], some 0x0000) := by decide
theorem test_pinWrite_inverted :
    seen (exec (.pinWrite 1 .high) (scripted { cfgD with pinCfg := [.dummy, .inv (outp 2)] } [])) =
      some ([.drive 2 .low], some 0x0000) := by decide
/-- P4 steps 9 and 11: a `Dummy` discards writes and reads its fixed level. -/
theorem test_pinWrite_dummy : seen (exec (.pinWrite 3 .high) (scripted cfgD [])) = some ([], some 0x0000) := by decide
/-- P-6. -/
theorem test_pinRead_inverted : seen (exec (.pinRead 5) (scripted cfgA [.high])) = some ([.sample 5 .high], some 0x0000) := by
  decide
/-- P-10, P-9, P-11. -/
theorem test_pinRead_fixed : (answered (exec (.pinRead 7) (scripted cfgA [])), answered (exec (.pinRead 6) (scripted cfgA [])),
    answered (exec (.pinRead 5) (scripted cfgD []))) = (some 0x0001, some 0x0000, some 0x0000) := by decide

/-! ### Bit order (95_test_vectors.md section 2.2) -/

theorem test_bitsDmsb : seen (exec (.bitsDmsb 0xCC) (scripted cfgD [])) = some ([], some 0x0033) := by decide
theorem test_bitsDlsb : seen (exec (.bitsDlsb 0xBE) (scripted cfgD [])) = some ([], some 0x00BE) := by decide
theorem test_bitsRmsb : seen (exec (.bitsRmsb (unpackVec 0x69)) (scripted cfgD [])) = some ([], some 0x0096) := by decide
theorem test_bitsRlsb : seen (exec (.bitsRlsb (unpackVec 0xF0)) (scripted cfgD [])) = some ([], some 0x00F0) := by decide

/-! ### SPI -/

/-- S1. -/
theorem test_spiXfer_loopback : seen (exec (.spiXfer 0xA5) (ruled cfgA 2 (.loopback 1))) = some (
    [.drive 3 .low,
     .drive 0 .low, .drive 1 .high, .drive 0 .high, .sample 2 .high, .drive 0 .low, .drive 1 .low, .drive 0 .high, .sample 2 .low,
     .drive 0 .low, .drive 1 .high, .drive 0 .high, .sample 2 .high, .drive 0 .low, .drive 1 .low, .drive 0 .high, .sample 2 .low,
     .drive 0 .low, .drive 1 .low, .drive 0 .high, .sample 2 .low, .drive 0 .low, .drive 1 .high, .drive 0 .high, .sample 2 .high,
     .drive 0 .low, .drive 1 .low, .drive 0 .high, .sample 2 .low, .drive 0 .low, .drive 1 .high, .drive 0 .high, .sample 2 .high,
     .drive 3 .high], some 0x00A5) := by decide
/-- `CFG_A` with data-in bound to `ConstHigh`, and with the select bound to a `Dummy`. -/
def cfgAHigh : Cfg := { cfgA with pinCfg := cfgA.pinCfg.set 2 .constHigh }
def cfgADummy : Cfg := { cfgA with pinCfg := cfgA.pinCfg.set 3 .dummy }

/-- S3 (data-out inverted, no select): 32 events, result 0x5A; S11 (data-in `ConstHigh`): 26 events, 0xFF. -/
theorem test_spiXfer_variants :
    (countOf (exec (.spiXfer 0xA5) (ruled cfgB 2 (.loopback 1))), answered (exec (.spiXfer 0xA5) (ruled cfgB 2 (.loopback 1)))) =
      (32, some 0x005A) ∧
    (countOf (exec (.spiXfer 0xA5) (scripted cfgAHigh [])), answered (exec (.spiXfer 0xA5) (scripted cfgAHigh []))) =
      (26, some 0x00FF) := by decide
/-- S2's samples under S9's command: the trace has them, the result is discarded. -/
theorem test_spiWrite : (countOf (exec (.spiWrite 0xA5) (scripted cfgA [.low, .low, .high, .high, .high, .high, .low, .low])),
    answered (exec (.spiWrite 0xA5) (scripted cfgA [.low, .low, .high, .high, .high, .high, .low, .low]))) =
      (34, some 0x0000) := by decide
/-- S15: no SPI engine. -/
theorem test_spiWrite_noEngine : reasonOf (exec (.spiWrite 0xA5) (scripted cfgC [])) = some .noEngine := by decide

/-! ### 1-Wire, with T_SHORT, T_MEDIUM, T_LONG, T_RESET = 1, 2, 3, 4 -/

/-- W1. -/
theorem test_owReset_presence : seen (exec .owReset (scripted cfgC [.low])) = some (
    [.drive 0 .low, .delay 4, .drive 0 .high, .delay 2, .sample 0 .low], some 0x0001) := by decide
/-- W19: an inverting bus driver. -/
theorem test_owReset_inverted :
    seen (exec .owReset (scripted { cfgC with pinCfg := [.inv (both 0), outp 1] } [.high])) = some (
      [.drive 0 .high, .delay 4, .drive 0 .low, .delay 2, .sample 0 .high], some 0x0001) := by decide
/-- W3. -/
theorem test_owWbit_high : seen (exec (.owWbit .high) (scripted cfgC [])) = some (
    [.drive 0 .low, .delay 1, .drive 0 .high], some 0x0000) := by decide
/-- W4. -/
theorem test_owWbit_low : seen (exec (.owWbit .low) (scripted cfgC [])) = some (
    [.drive 0 .low, .delay 3, .drive 0 .high], some 0x0000) := by decide
/-- W5. -/
theorem test_owRbit : seen (exec .owRbit (scripted cfgC [.high])) = some (
    [.drive 0 .low, .delay 1, .drive 0 .high, .delay 1, .sample 0 .high], some 0x0001) := by decide
/-- W7. -/
theorem test_owWbyte_lsb : (countOf (exec (.owWbyte 0xCC) (scripted cfgC [])), delaysOf (exec (.owWbyte 0xCC) (scripted cfgC []))) =
    (24, [3, 3, 1, 1, 3, 3, 1, 1]) := by decide
/-- W16. -/
theorem test_owWbyte_msb : delaysOf (exec (.owWbyte 0xCC) (scripted { cfgC with owByteOrder := .msb } [])) =
    [1, 1, 3, 3, 1, 1, 3, 3] := by decide
/-- W8. -/
theorem test_owRbyte_lsb :
    let s := scripted cfgC [.low, .low, .low, .high, .low, .high, .low, .low]
    (countOf (exec .owRbyte s), answered (exec .owRbyte s)) = (40, some 0x0028) := by decide
/-- W17. -/
theorem test_owRbyte_msb : answered (exec .owRbyte
    (scripted { cfgC with owByteOrder := .msb } [.low, .low, .low, .high, .low, .high, .low, .low])) = some 0x0014 := by decide
/-- W26, W28. -/
theorem test_owSearch : (reasonOf (exec (.owSearch 0xAB 0xCD) (scripted cfgC [])), answered (exec (.owSearch 0 0) (scripted cfgA []))) =
    (some .unimplemented, some 0x0100) := by decide

/-! ### The step -/

/-- P-20: `NonzeroReserved` before `BadSlot`. -/
theorem test_step_refusal_order : reasonOf (step (issuing (scripted cfgA []) 0x010901)) = some .nonzeroReserved := by decide
/-- X1: the all-zero word is not a no-op. -/
theorem test_step_zero_word : answered (step (issuing (scripted cfgA []) 0x000000)) = some 0x0100 := by decide
theorem test_step_withFetchWord : answered (step (State.reset.withFetchWord 24 0x100096)) = some 0x0069 := by decide
/-- R110, R118: the second delay of a reset never returns, so the second release is followed by no sample and no response. -/
theorem test_step_hung : seen (exec .owReset { scripted cfgC [.low] with timing := .hangsAfter 1 }) = some (
    [.drive 0 .low, .delay 4, .drive 0 .high, .delay 2], none) := by decide

/-! ### Witnesses: states and operands that meet the hypotheses of the obligations -/

/-- An instance of `CFG_A` with data-out looped to data-in. -/
def sA : State := ruled cfgA 2 (.loopback 1)
/-- An instance of `CFG_C` with eight scripted answers and one more. -/
def sC : State := scripted cfgC [.low, .low, .low, .high, .low, .high, .low, .low, .high]
/-- An instance of `CFG_D`. -/
def sD : State := scripted cfgD [.high]

theorem ready_sA : sA.Ready := ⟨by decide, by decide⟩
theorem ready_sC : sC.Ready := ⟨by decide, by decide⟩
theorem ready_sD : sD.Ready := ⟨by decide, by decide⟩

theorem ready_issuing {s : State} (h : s.Ready) (w : CmdWord) : (issuing s w).Ready := ⟨h.wellFormed, h.idle⟩

theorem wit_DecodeOfEncodeIsIdentity : (Instr.pinHigh 255).wellFormed = true ∧ (Instr.owSearch 255 0).wellFormed = true := by decide

theorem wit_WordsDecodeByTheirRow : decode 0x01FF00 = .ok (.pinHigh 255) ∧ (Instr.pinHigh 0).row ∈ opcodeMap ∧
    (Instr.pinHigh 0).row.covers 0x01FF00 = true := by decide

/-- The boundaries of every gap of the opcode map. -/
theorem wit_UnassignedOpcodesAreRefused : (issuing sA 0x05FFFF).Ready ∧ (issuing sA 0x05FFFF).cmds = 0x05FFFF :: [] ∧
    UnassignedOp (opField 0x05FFFF).toNat ∧ UnassignedOp 0x00 ∧ UnassignedOp 0x05 ∧ UnassignedOp 0x0F ∧ UnassignedOp 0x14 ∧
    UnassignedOp 0x1F ∧ UnassignedOp 0x22 ∧ UnassignedOp 0x2F ∧ UnassignedOp 0x35 ∧ UnassignedOp 0x3E ∧ UnassignedOp 0x40 ∧
    UnassignedOp 0xFF := by
  refine ⟨ready_issuing ready_sA _, rfl, ?_, ?_, ?_, ?_, ?_, ?_, ?_, ?_, ?_, ?_, ?_, ?_⟩ <;> (unfold UnassignedOp; decide)

theorem wit_NonzeroReservedFieldsAreRefused : (issuing sC 0x300001).Ready ∧ (issuing sC 0x300001).cmds = 0x300001 :: [] ∧
    Instr.owReset.row ∈ opcodeMap ∧ opField 0x300001 = opField Instr.owReset.row.pattern ∧
    (0x300001 : CmdWord) &&& Instr.owReset.row.mask &&& 0x00FFFF ≠ 0 :=
  ⟨ready_issuing ready_sC _, rfl, by decide, by decide, by decide⟩

theorem wit_SearchIsAlwaysRefused : sA.Ready ∧ (issuing sA 0x3FABCD).Ready ∧ (issuing sA 0x3FABCD).cmds = 0x3FABCD :: [] ∧
    opField 0x3FABCD = 0x3F :=
  ⟨ready_sA, ready_issuing ready_sA _, rfl, by decide⟩

theorem wit_StepRunsTheDecodedCommand : (issuing sA 0x2000A5).Ready ∧ (issuing sA 0x2000A5).cmds = 0x2000A5 :: [] ∧
    decode 0x2000A5 = .ok (.spiXfer 0xA5) :=
  ⟨ready_issuing ready_sA _, rfl, by decide⟩

theorem wit_ReadyBlockWaitsForACommand : sA.Ready ∧ sA.cmds = [] := ⟨ready_sA, rfl⟩

/-- An SPI transfer in its last bit cycle, one position before the select's; and the same at its last position. -/
def sSpi : State := { sA with
  spi := { phase := .bitCycle, seq := 32, tx := 0xA5, rx := State.noLevels }, inflight := some (.spi .xfer) }
def sSpiEnd : State := { sA with
  spi := { phase := .selectDeasserted, seq := 33, tx := 0xA5, rx := State.noLevels }, inflight := some (.spi .write) }
def sSpiStart : State := spiIssue .xfer 0xA5 sA
def sSpiNoSs : State := { ruled cfgB 2 (.loopback 1) with
  spi := { phase := .bitCycle, seq := 31, tx := 0xA5, rx := State.noLevels }, inflight := some (.spi .xfer) }

/-- A 1-Wire byte read at the last position of bit 6, of bit 7, and at its first position; and one whose `Delay` never returns. -/
def sOw (k q : Nat) : State := { sC with
  ow := { phase := .byteOp, seq := q, bitidx := k, tx := 0, rx := State.noLevels }, inflight := some (.ow .rbyte) }
def sHung : State := { sOw 0 1 with timing := .hung }

theorem wit_StepInFlightIsTheNextPosition : sSpi.cfg.WellFormed ∧ sSpi.busy = true ∧ sSpi.blocked = false ∧
    sHung.cfg.WellFormed ∧ sHung.busy = true ∧ sHung.blocked = true := by decide

/-- For each of the nine checks, a configuration that fails it. -/
theorem wit_IllFormedInstancesAreRefused :
    ¬ ConfigOk { cfgC with pinCfg := [] } ∧ ¬ ConfigOk { cfgD with pinCfg := [.ext 0 ⟨false, false⟩] } ∧
    ¬ ConfigOk { cfgC with owLine := 2 } ∧ ¬ ConfigOk { cfgA with spiClk := 2, spiMiso := 0 } ∧
    ¬ ConfigOk { cfgC with owLine := 1 } ∧ ¬ ConfigOk { cfgA with spiSs := 0 } ∧
    ¬ ConfigOk { cfgC with pinCfg := [both 0, outp 0] } ∧ ¬ ConfigOk { cfgC with tLong := 1 } ∧
    ¬ ConfigOk { cfgC with owClass := { defaultOwClass with w0Low := .short } } :=
  ⟨fun h => absurd h.slotCount.1 (by decide), fun h => absurd h.capsNonempty (by decide),
    fun h => absurd (h.slotsInRange.2 rfl) (by decide), fun h => absurd (h.spiCaps rfl).1 (by decide),
    fun h => absurd (h.owCaps rfl).2 (by decide), fun h => absurd h.rolesDistinct (by decide),
    fun h => absurd rfl (h.portsDistinct 0 1 (both 0) (outp 0) 0 (by decide) rfl rfl rfl),
    fun h => absurd rfl h.durationsDistinct.2.1, fun h => absurd rfl h.writeClassesDistinct⟩

theorem wit_CommandsAreAcceptedExactlyWhenReady : sA.Ready ∧ sSpi.cfg.WellFormed ∧ sSpi.busy = true :=
  ⟨ready_sA, by decide, by decide⟩

theorem wit_BitsCommands : sD.Ready ∧ IsBits (.bitsRmsb (unpackVec 0x69)) ∧
    ∃ t, exec (.bitsRmsb (unpackVec 0x69)) sD = .next t :=
  ⟨ready_sD, .rmsb _, _, rfl⟩

theorem wit_PinDriveCommandsComplete : sD.Ready ∧ 3 < sD.cfg.nSlots ∧ sD.cfg.owned 3 = false ∧ (sD.cfg.slot 3).has .out = true ∧
    1 < sD.cfg.nSlots ∧ sD.cfg.owned 1 = false ∧ (sD.cfg.slot 1).has .out = true :=
  ⟨ready_sD, by decide⟩

theorem wit_PinReadCommandCompletes : sD.Ready ∧ 2 < sD.cfg.nSlots ∧ sD.cfg.owned 2 = false ∧ (sD.cfg.slot 2).has .inp = true ∧
    5 < sD.cfg.nSlots ∧ sD.cfg.owned 5 = false ∧ (sD.cfg.slot 5).has .inp = true :=
  ⟨ready_sD, by decide⟩

/-- Each clause of `check_pin`, the first at its boundary `s = N_SLOTS`. -/
theorem wit_PinCommandsAreChecked : sA.Ready ∧ IsPin (.pinHigh 8) 8 .out ∧ sA.cfg.nSlots ≤ 8 ∧
    IsPin (.pinRead 2) 2 .inp ∧ 2 < sA.cfg.nSlots ∧ sA.cfg.owned 2 = true ∧
    IsPin (.pinWrite 7 .low) 7 .out ∧ 7 < sA.cfg.nSlots ∧ sA.cfg.owned 7 = false ∧ (sA.cfg.slot 7).has .out = false ∧
    IsPin (.pinLow 4) 4 .out ∧ sA.cfg.owned 4 = false ∧ (sA.cfg.slot 4).has .out = true :=
  ⟨ready_sA, .high 8, by decide, .read 2, by decide, by decide, .write 7 _, by decide, by decide, by decide, .low 4,
    by decide, by decide⟩

theorem wit_InversionIsAnInvolution : 2 % 2 = 0 ∧ 3 % 2 = 1 := by decide

theorem wit_ConstantsAndDummyAreInert : (PinExpr.inv .constHigh).port? = none ∧ PinExpr.dummy.port? = none := by decide

theorem wit_NamedEnvironmentsAnswer :
    (⟨[(2, .stuck .high)], []⟩ : Env).rules.lookup 2 = some (.stuck .high) ∧
    (⟨[(2, .loopback 1)], []⟩ : Env).rules.lookup 2 = some (.loopback 1) ∧
    (∀ k, Event.drive 1 k ∉ [Event.drive 0 .high]) ∧
    (⟨[(0, .presenceAfterDelay)], []⟩ : Env).rules.lookup 0 = some .presenceAfterDelay ∧
    (∀ ev ∈ [Event.sample 0 .low], ∃ q k, ev = Event.sample q k) ∧
    (⟨[], [.low]⟩ : Env).rules.lookup 0 = none ∧ (⟨[], [.low]⟩ : Env).script = .low :: [] := by
  refine ⟨by decide, by decide, ?_, by decide, ?_, by decide, by decide⟩
  · intro k hk
    simp at hk
  · intro ev h
    exact ⟨0, .low, by simpa using h⟩

theorem wit_PinCommandsFrame : IsPin (.pinWrite 4 .high) 4 .out ∧ (∃ t, exec (.pinWrite 4 .high) sA = .next t) ∧
    IsPin (.pinRead 2) 2 .inp ∧ ∃ t, exec (.pinRead 2) sD = .next t :=
  ⟨.write 4 .high, ⟨_, rfl⟩, .read 2, ⟨_, rfl⟩⟩

/-- A ready instance with an SPI engine on plain ports, with a select line, and one without. -/
theorem wit_SpiTransfer : sA.Ready ∧ sA.cfg.spiPresent = true ∧ sA.cfg.spiHasSs = true ∧
    sA.cfg.slot sA.cfg.spiClk = outp 0 ∧ sA.cfg.slot sA.cfg.spiMosi = outp 1 ∧ sA.cfg.slot sA.cfg.spiMiso = inpp 2 ∧
    sA.cfg.slot sA.cfg.spiSs = outp 3 ∧ (sA.cfg.slot sA.cfg.spiSs).port? = some 3 ∧
    IsSpi (.spiWrite 0) ∧ ∃ t, exec (.spiWrite 0) sA = .next t :=
  ⟨ready_sA, by decide, by decide, by decide, by decide, by decide, by decide, by decide, .write 0, _, rfl⟩

/-- Plain ports without a select line, and a data-in without a port. -/
theorem wit_SpiTransferFollowsTheSequencerTable :
    let c : Cfg := { cfgB with pinCfg := [outp 0, outp 1, inpp 2] }
    (scripted c []).Ready ∧ c.spiPresent = true ∧ c.slot c.spiClk = outp 0 ∧ c.slot c.spiMosi = outp 1 ∧
      c.slot c.spiMiso = inpp 2 ∧ (c.spiHasSs = true → c.slot c.spiSs = outp 3) ∧
      (scripted cfgAHigh []).Ready ∧ cfgAHigh.spiPresent = true ∧ (cfgAHigh.slot cfgAHigh.spiMiso).port? = none :=
  ⟨⟨by decide, by decide⟩, by decide, by decide, by decide, by decide, by decide, ⟨by decide, by decide⟩, by decide,
    by decide⟩

theorem wit_SpiReceivesTheScriptedByte :
    let s := scripted cfgA ((unpackVec 0x3C).toList ++ [.high])
    s.Ready ∧ s.cfg.spiPresent = true ∧ (s.cfg.slot s.cfg.spiMiso).port? = some 2 ∧ s.env.rules.lookup 2 = none ∧
      s.env.script = (unpackVec 0x3C).toList ++ [.high] :=
  ⟨⟨by decide, by decide⟩, by decide, by decide, by decide, rfl⟩

theorem wit_SpiWithoutSelectHasNoBracket : (ruled cfgB 2 (.loopback 1)).Ready ∧ cfgB.spiPresent = true ∧ cfgB.spiHasSs = false ∧
    (scripted cfgADummy []).Ready ∧ cfgADummy.spiHasSs = true ∧ (cfgADummy.slot cfgADummy.spiSs).port? = none :=
  ⟨⟨by decide, by decide⟩, by decide, by decide, ⟨by decide, by decide⟩, by decide, by decide⟩

theorem wit_SpiVariantsBehaveAlike : IsSpi (.spiXfer 0xA5) ∧ sA.Ready := ⟨.xfer _, ready_sA⟩

theorem wit_SpiLoopbackReturnsTheOperand :
    sA.Ready ∧ sA.cfg.spiPresent = true ∧ (sA.cfg.slot sA.cfg.spiMosi).port? = some 1 ∧
      (sA.cfg.slot sA.cfg.spiMiso).port? = some 2 ∧ sA.env.rules.lookup 2 = some (.loopback 1) ∧
      (ruled cfgA 2 (.stuck .high)).Ready ∧ (ruled cfgA 2 (.stuck .high)).env.rules.lookup 2 = some (.stuck .high) ∧
      (scripted cfgAHigh []).Ready ∧ cfgAHigh.slot cfgAHigh.spiMiso = .constHigh :=
  ⟨ready_sA, by decide, by decide, by decide, by decide, ⟨by decide, by decide⟩, by decide, ⟨by decide, by decide⟩, by decide⟩

/-- The odd parity: data-out under one inversion. -/
theorem wit_SpiLoopbackInverted : (ruled cfgB 2 (.loopback 1)).Ready ∧ cfgB.spiPresent = true ∧
    (cfgB.slot cfgB.spiMosi).port? = some 1 ∧ (cfgB.slot cfgB.spiMiso).port? = some 2 ∧
    (ruled cfgB 2 (.loopback 1)).env.rules.lookup 2 = some (.loopback 1) ∧
    ((cfgB.slot cfgB.spiMosi).inversions + (cfgB.slot cfgB.spiMiso).inversions) % 2 = 1 :=
  ⟨⟨by decide, by decide⟩, by decide, by decide, by decide, by decide, by decide⟩

theorem wit_SpiCommandsFrame : IsSpi (.spiXfer 0xA5) ∧ (∃ t, exec (.spiXfer 0xA5) sA = .next t) ∧ sC.cfg.spiPresent = false ∧
    ∃ t, exec (.spiXfer 0xA5) sC = .next t :=
  ⟨.xfer _, ⟨_, rfl⟩, by decide, ⟨_, rfl⟩⟩

/-- The invariant of an instance right after reset whose SPI engine is in flight. -/
theorem inv_of_spi {s : State} {op : SpiOp} (hw : s.cfg.WellFormed) (hi : s.inflight = some (.spi op))
    (hp : s.cfg.spiPresent = true) (ho : s.ow = State.reset.ow) (ha : SpiAt s.cfg s.spi) (hq : s.spi.seq ≤ 34)
    (hr : s.response = none) (hh : s.hist = []) (ht : s.timing = .returns) (hl : s.owsearch.lastId = 0) : s.Inv where
  wellFormed := hw
  sequencer := by
    simp only [State.SequencerOk, hi]
    exact ⟨hp, by rw [ho]; rfl, ha⟩
  spiSeq := hq
  owSeq := by rw [ho]; decide
  owBitidx := by rw [ho]; decide
  noResponse := fun _ => hr
  delays := by simp [hh]
  waiting := by simp [ht]
  lastId := by rw [hl]; positivity

/-- One state for each clause of the chain. -/
theorem wit_SpiSequencerFollowsTheChain :
    (sA.Ready ∧ sA.cfg.spiPresent = true ∧ sA.cfg.spiHasSs = true ∧ cfgB.spiHasSs = false) ∧
    (sSpiStart.Inv ∧ sSpiStart.inflight = some (.spi .xfer) ∧ sSpiStart.spi.phase = .selectAsserted) ∧
    ((tick sSpiStart).spi.phase = .bitCycle ∧ (tick sSpiStart).spi.seq + 1 < spiOffset (tick sSpiStart).cfg + 32) ∧
    (sSpi.Inv ∧ sSpi.inflight = some (.spi .xfer) ∧ sSpi.spi.phase = .bitCycle ∧
      sSpi.spi.seq + 1 = spiOffset sSpi.cfg + 32 ∧ sSpi.cfg.spiHasSs = true) ∧
    (sSpiNoSs.Inv ∧ sSpiNoSs.inflight = some (.spi .xfer) ∧ sSpiNoSs.spi.phase = .bitCycle ∧
      sSpiNoSs.spi.seq + 1 = spiOffset sSpiNoSs.cfg + 32 ∧ sSpiNoSs.cfg.spiHasSs = false) ∧
    (sSpiEnd.Inv ∧ sSpiEnd.inflight = some (.spi .write) ∧ sSpiEnd.spi.phase = .selectDeasserted) := by
  refine ⟨⟨ready_sA, rfl, rfl, rfl⟩, ⟨inv_of_spi (op := .xfer) ?_ rfl ?_ rfl ⟨?_, ?_⟩ ?_ rfl rfl rfl rfl, rfl, ?_⟩, ⟨?_, ?_⟩,
    ⟨inv_of_spi (op := .xfer) ?_ rfl ?_ rfl ⟨?_, ?_⟩ ?_ rfl rfl rfl rfl, rfl, rfl, ?_, ?_⟩,
    ⟨inv_of_spi (op := .xfer) ?_ rfl ?_ rfl ⟨?_, ?_⟩ ?_ rfl rfl rfl rfl, rfl, rfl, ?_, ?_⟩,
    ⟨inv_of_spi (op := .write) ?_ rfl ?_ rfl ⟨?_, ?_⟩ ?_ rfl rfl rfl rfl, rfl, rfl⟩⟩ <;> decide

/-- The invariant of an instance right after reset whose 1-Wire engine is in flight. -/
theorem inv_of_ow {s : State} {op : OwOp} (hw : s.cfg.WellFormed) (hi : s.inflight = some (.ow op))
    (hp : s.cfg.owPresent = true) (hs : s.spi = State.reset.spi) (ha : OwAt op s.ow) (hq : s.ow.seq ≤ 5)
    (hb : s.ow.bitidx ≤ 8) (hr : s.response = none) (hh : s.hist = []) (ht : s.timing.allows 1 = true)
    (hl : s.owsearch.lastId = 0) : s.Inv where
  wellFormed := hw
  sequencer := by
    simp only [State.SequencerOk, hi]
    exact ⟨hp, by rw [hs]; rfl, ha⟩
  spiSeq := by rw [hs]; decide
  owSeq := hq
  owBitidx := hb
  noResponse := fun _ => hr
  delays := by simp [hh]
  waiting := fun h => absurd h (Timing.not_hung_of_allows ht)
  lastId := by rw [hl]; positivity

/-- The invariant of a byte read in flight. -/
theorem inv_sOw {k q : Nat} (hk : k < 8) (hq : q < 5) : (sOw k q).Inv :=
  inv_of_ow (op := .rbyte) ready_sC.wellFormed rfl rfl rfl ⟨rfl, hq, hk⟩ (Nat.le_of_lt hq) (Nat.le_of_lt hk) rfl rfl rfl rfl

/-- A 1-Wire command in flight at position `q` of bit `k`, whose timing source returns from one more call and no other. -/
def sOwOnce (op : OwOp) (k q : Nat) : State := { sC with
  ow := { phase := owPhaseOf op, seq := q, bitidx := k, tx := 0xCC, rx := State.noLevels }, inflight := some (.ow op),
  timing := .hangsAfter 1 }

/-- One state for each clause. Byte read: inside a bit, at the end of bit 6, at the end of bit 7. Byte write, with a timing
source that returns once more: at its delay, at the end of bit 6, at the end of bit 7. The ends of the other commands. And
ready states for the issue. -/
theorem wit_OwSequencerFollowsTheTable :
    (sC.Ready ∧ sC.cfg.owPresent = true) ∧
    ((sOw 0 0).Inv ∧ (sOw 0 0).inflight = some (.ow .rbyte) ∧ (sOw 0 0).timing.allows 1 = true ∧ (sOw 0 0).ow.seq + 1 < 5) ∧
    ((sOw 6 4).Inv ∧ (sOw 6 4).ow.seq + 1 = 5 ∧ (sOw 6 4).ow.bitidx + 1 < 8) ∧
    ((sOw 7 4).Inv ∧ (sOw 7 4).ow.seq + 1 = 5 ∧ (sOw 7 4).ow.bitidx + 1 = 8) ∧
    ((sOwOnce .wbyte 0 1).Inv ∧ (sOwOnce .wbyte 0 1).inflight = some (.ow .wbyte) ∧
      (sOwOnce .wbyte 0 1).timing.allows 1 = true ∧ (sOwOnce .wbyte 0 1).ow.seq + 1 < 3) ∧
    ((sOwOnce .wbyte 6 2).Inv ∧ (sOwOnce .wbyte 6 2).ow.seq + 1 = 3 ∧ (sOwOnce .wbyte 6 2).ow.bitidx + 1 < 8) ∧
    ((sOwOnce .wbyte 7 2).Inv ∧ (sOwOnce .wbyte 7 2).ow.seq + 1 = 3 ∧ (sOwOnce .wbyte 7 2).ow.bitidx + 1 = 8) ∧
    ((sOwOnce .wbit 0 2).Inv ∧ (sOwOnce .wbit 0 2).inflight = some (.ow .wbit) ∧ (sOwOnce .wbit 0 2).ow.seq + 1 = 3) ∧
    ((sOwOnce .rbit 0 4).Inv ∧ (sOwOnce .rbit 0 4).inflight = some (.ow .rbit) ∧ (sOwOnce .rbit 0 4).ow.seq + 1 = 5) ∧
    ((sOwOnce .reset 0 4).Inv ∧ (sOwOnce .reset 0 4).inflight = some (.ow .reset) ∧
      (sOwOnce .reset 0 4).ow.seq + 1 = 5) := by
  have h : ∀ {op k q}, OwAt op (sOwOnce op k q).ow → q ≤ 5 → k ≤ 8 → (sOwOnce op k q).Inv := fun ha hq hk =>
    inv_of_ow ready_sC.wellFormed rfl rfl rfl ha hq hk rfl rfl rfl rfl
  exact ⟨⟨ready_sC, rfl⟩, ⟨inv_sOw (by decide) (by decide), rfl, rfl, by decide⟩,
    ⟨inv_sOw (by decide) (by decide), rfl, by decide⟩, ⟨inv_sOw (by decide) (by decide), rfl, rfl⟩,
    ⟨h ⟨rfl, by decide, by decide⟩ (by decide) (by decide), rfl, rfl, by decide⟩,
    ⟨h ⟨rfl, by decide, by decide⟩ (by decide) (by decide), rfl, by decide⟩,
    ⟨h ⟨rfl, by decide, by decide⟩ (by decide) (by decide), rfl, rfl⟩,
    ⟨h ⟨rfl, by decide⟩ (by decide) (by decide), rfl, rfl⟩, ⟨h ⟨rfl, by decide⟩ (by decide) (by decide), rfl, rfl⟩,
    ⟨h ⟨rfl, by decide⟩ (by decide) (by decide), rfl, rfl⟩⟩

/-- The hypotheses of the 1-Wire completions, with a timing source that returns and with one that returns just often enough. -/
theorem wit_OwCommandsComplete : sC.Ready ∧ sC.cfg.owPresent = true ∧ sC.timing.allows 16 = true ∧
    (Timing.hangsAfter 2).allows 2 = true ∧ (Timing.hangsAfter 8).allows 8 = true ∧ (Timing.hangsAfter 16).allows 16 = true :=
  ⟨ready_sC, by decide, by decide, by decide, by decide, by decide⟩

theorem wit_OwReadByteCompletes : (sC.cfg.slot sC.cfg.owLine).port? = some 0 ∧ sC.env.rules.lookup 0 = none ∧
    sC.env.script = (unpackVec 0x28).toList ++ [.high] := by decide

/-- A byte read on a line without a port. -/
theorem wit_OwReadByteOnDummy :
    let c : Cfg := { cfgC with pinCfg := [.dummy, outp 1] }
    (scripted c []).Ready ∧ c.owPresent = true ∧ (scripted c []).timing.allows 16 = true ∧
      (c.slot c.owLine).port? = none :=
  ⟨⟨by decide, by decide⟩, by decide, by decide, by decide⟩

theorem wit_OwResetDetectsPresence :
    (ruled cfgC 0 .presenceAfterDelay).Ready ∧ (ruled cfgC 0 (.stuck .high)).Ready ∧ cfgC.owPresent = true ∧
    cfgC.slot cfgC.owLine = both 0 ∧ (ruled cfgC 0 .presenceAfterDelay).env.rules.lookup 0 = some .presenceAfterDelay ∧
    (ruled cfgC 0 (.stuck .high)).env.rules.lookup 0 = some (.stuck .high) :=
  ⟨⟨by decide, by decide⟩, ⟨by decide, by decide⟩, by decide, by decide, by decide, by decide⟩

theorem wit_HungTimingSourceHangsTheBlock : IsOw .owRbyte 16 ∧ ({ sC with timing := .hangsAfter 15 } : State).Ready ∧
    sC.cfg.owPresent = true ∧ 15 < 16 :=
  ⟨.rbyte, ⟨by decide, by decide⟩, by decide, by decide⟩

theorem wit_OwCommandsFrame : IsOw (.owWbyte 0xCC) 8 ∧ (∃ t, exec (.owWbyte 0xCC) sC = .next t) ∧ sA.cfg.owPresent = false ∧
    ∃ t, exec (.owWbyte 0xCC) sA = .next t :=
  ⟨.wbyte _, ⟨_, rfl⟩, by decide, ⟨_, rfl⟩⟩

theorem wit_AbsentEnginesRefuse : sD.Ready ∧ IsSpi (.spiXfer 0xBE) ∧ sD.cfg.spiPresent = false ∧ IsOw .owReset 2 ∧
    sD.cfg.owPresent = false :=
  ⟨ready_sD, .xfer _, by decide, .reset, by decide⟩

theorem wit_RefusedCommandsChangeNothing : ∃ t, exec (.pinHigh 8) sA = .next t ∧ t.response = some (.refused .badSlot) :=
  ⟨_, rfl, by decide⟩

theorem wit_RefusalDependsOnCommandAndConfigAlone : sA.Ready ∧ (scripted cfgA [.high]).Ready ∧ sA.cfg = (scripted cfgA [.high]).cfg :=
  ⟨ready_sA, ⟨by decide, by decide⟩, rfl⟩

theorem wit_StepKeepsTheInvariant : (sOw 6 4).Inv ∧ ∃ t, step (sOw 6 4) = .next t :=
  ⟨inv_sOw (by decide) (by decide), _, rfl⟩

theorem wit_CommandsRunToCompletion : sC.Ready ∧ sC.inflight = none ∧ sC.timing = .returns := ⟨ready_sC, rfl, rfl⟩

theorem wit_CommandInFlightReachesItsResponse : (sOw 0 0).Inv ∧ (sOw 0 0).busy = true ∧ (sOw 0 0).timing = .returns :=
  ⟨inv_sOw (by decide) (by decide), by decide, rfl⟩

theorem wit_OnlyTheOneWireEngineDelays : (∀ d, ¬ IsOw (.spiXfer 0) d) ∧ ∃ t, exec (.spiXfer 0) sA = .next t :=
  ⟨fun _ => nofun, ⟨_, rfl⟩⟩

theorem wit_CommandsDoNotDependOnThePast :
    let t : State := { sC with hist := [.drive 1 .high], spi := { sC.spi with tx := 7 } }
    sC.Ready ∧ t.Ready ∧ sC.cfg = t.cfg ∧ sC.env = t.env ∧ sC.env.rules = [] ∧ 8 ≤ sC.env.script.length ∧
      sC.timing = .returns ∧ t.timing = .returns :=
  ⟨ready_sC, ⟨by decide, by decide⟩, rfl, rfl, rfl, by decide, rfl, rfl⟩

end Sys2Proof.Tests
end

section
/-! SUPPORT. One position of the sequencer, said once: the access it makes, and where it leaves the engine (10_state.md
R20; 42_spi.md R74, R83; 43_onewire.md R96). -/

namespace Sys2Proof.Machine

/-! ### One access -/

/-- `u` is `s` after at most one access of a pin or of the timing source (R20, R25): at most one event more, of one of the
four durations if it is a `Delay`, and nothing else moved but the environment's script and the timing source. -/
structure State.Accessed (s u : State) : Prop where
  cfg : u.cfg = s.cfg
  spi : u.spi = s.spi
  ow : u.ow = s.ow
  owsearch : u.owsearch = s.owsearch
  inflight : u.inflight = s.inflight
  response : u.response = s.response
  cmds : u.cmds = s.cmds
  rules : u.env.rules = s.env.rules
  timing : u.timing = s.timing ∨ u.timing = s.timing.call
  events : ∃ evs : List Event, u.hist = s.hist ++ evs ∧ evs.length ≤ 1 ∧
    ∀ us, Event.delay us ∈ evs → us ∈ s.cfg.durations

theorem Env.answer_rules (e : Env) (h : List Event) (p : Port) : (e.answer h p).2.rules = e.rules := by
  unfold Env.answer
  split
  · rfl
  · split <;> rfl

/-- No sample changes the rules of the environment (R26). -/
theorem envAfter_rules (e : PinExpr) (s : State) : (envAfter e s).rules = s.env.rules := by
  unfold envAfter
  split
  · exact Env.answer_rules _ _ _
  · rfl

theorem State.Accessed.refl (s : State) : s.Accessed s where
  cfg := rfl
  spi := rfl
  ow := rfl
  owsearch := rfl
  inflight := rfl
  response := rfl
  cmds := rfl
  rules := rfl
  timing := .inl rfl
  events := ⟨[], by simp⟩

theorem accessed_drive (e : PinExpr) (l : Level) (s : State) : s.Accessed (drive e l s) where
  cfg := drive_cfg e l s
  spi := drive_spi e l s
  ow := drive_ow e l s
  owsearch := drive_owsearch e l s
  inflight := drive_inflight e l s
  response := drive_response e l s
  cmds := drive_cmds e l s
  rules := by rw [drive_env]
  timing := .inl (drive_timing e l s)
  events := ⟨driveEvents e l, drive_hist e l s, by unfold driveEvents; cases e.port? <;> simp⟩

theorem accessed_sample (e : PinExpr) (s : State) : s.Accessed (sample e s).2 where
  cfg := sample_cfg e s
  spi := sample_spi e s
  ow := sample_ow e s
  owsearch := sample_owsearch e s
  inflight := sample_inflight e s
  response := sample_response e s
  cmds := sample_cmds e s
  rules := by rw [sample_env, envAfter_rules]
  timing := .inl (sample_timing e s)
  events := ⟨sampleEvents e (leafAnswer e s), sample_hist e s, by unfold sampleEvents; cases e.port? <;> simp⟩

theorem accessed_delay (c : TimeClass) (s : State) : s.Accessed (delay c s) where
  cfg := rfl
  spi := rfl
  ow := rfl
  owsearch := rfl
  inflight := rfl
  response := rfl
  cmds := rfl
  rules := rfl
  timing := .inr rfl
  events := ⟨[.delay (s.cfg.duration c)], rfl, by simp, by simp [duration_mem]⟩

/-- A timing source that returns from every call goes on returning from every call (R110). -/
theorem State.Accessed.returns {s u : State} (a : s.Accessed u) (ht : s.timing = .returns) : u.timing = .returns := by
  rcases a.timing with h | h <;> rw [h, ht]
  rfl

/-- An access adds no `Delay` but one of the four durations (R88, R110). -/
theorem State.Accessed.delays {s u : State} (a : s.Accessed u)
    (h : ∀ us, Event.delay us ∈ s.hist → us ∈ s.cfg.durations) : ∀ us, Event.delay us ∈ u.hist → us ∈ u.cfg.durations := by
  obtain ⟨evs, hh, -, hd⟩ := a.events
  intro us hus
  rw [a.cfg]
  rw [hh, List.mem_append] at hus
  exact hus.elim (h us) (hd us)

/-! ### One position of the SPI engine -/

/-- `w` is `s` after at most one access of a pin, with the levels received so far set anew. -/
def SpiAccess (s w : State) : Prop :=
  ∃ (u : State) (rx : LevelVec), s.Accessed u ∧ u.timing = s.timing ∧ w = u.setSpi { s.spi with rx := rx }

/-- What one position of a transfer leaves (R20, R74, R83): after an access, the engine at the next position of the
sequence, or idle with the response after the last one. -/
inductive SpiPosition (s : State) : State → Prop where
  | next {u : State} {x : SpiState} (access : s.Accessed u) (timing : u.timing = s.timing) (seq : x.seq = s.spi.seq + 1)
      (within : SpiAt s.cfg s.spi → SpiAt s.cfg x) : SpiPosition s (u.setSpi x)
  | last {u : State} {x : SpiState} (v : Byte) (access : s.Accessed u) (timing : u.timing = s.timing)
      (seq : x.seq = s.spi.seq + 1) (idle : x.phase = .idle) (ended : SpiAt s.cfg s.spi → x.seq = spiLength s.cfg) :
      SpiPosition s (respond v (u.setSpi x))

theorem spiAccess_drive (e : PinExpr) (l : Level) (s : State) : SpiAccess s (drive e l s) :=
  ⟨_, s.spi.rx, accessed_drive e l s, drive_timing e l s, by rw [drive_eq]; rfl⟩

theorem spiAccess_receive (e : PinExpr) (k : Nat) (s : State) :
    SpiAccess s (spiReceive k (sample e s).1 (sample e s).2) :=
  ⟨_, _, accessed_sample e s, sample_timing e s, by rw [spiReceive, sample_spi]⟩

theorem SpiPosition.of_advance {s w : State} {ph : SpiPhase} (a : SpiAccess s w)
    (within : SpiAt s.cfg s.spi → ∀ rx, SpiAt s.cfg { s.spi with phase := ph, seq := s.spi.seq + 1, rx := rx }) :
    SpiPosition s (spiAdvance ph w) := by
  obtain ⟨u, rx, access, timing, rfl⟩ := a
  exact .next (u := u) (x := { s.spi with phase := ph, seq := s.spi.seq + 1, rx := rx }) access timing rfl (within · rx)

theorem SpiPosition.of_finish {s w : State} {op : SpiOp} (a : SpiAccess s w)
    (ended : SpiAt s.cfg s.spi → s.spi.seq + 1 = spiLength s.cfg) : SpiPosition s (spiFinish op w) := by
  obtain ⟨u, rx, access, timing, rfl⟩ := a
  exact .last (u := u) (x := { s.spi with phase := .idle, seq := s.spi.seq + 1, rx := rx }) (spiResult op rx) access timing
    rfl rfl ended

/-- Inside the bit cycles a position that is not the last of them is followed by another (R83). -/
theorem spiAt_bitCycle_next {c : Cfg} {x : SpiState} (hph : x.phase = .bitCycle)
    (hk : (x.seq - spiOffset c) % 4 ≠ 3 ∨ (x.seq - spiOffset c) / 4 < 7) (h : SpiAt c x) (rx : LevelVec) :
    SpiAt c { x with phase := .bitCycle, seq := x.seq + 1, rx := rx } := by
  simp only [SpiAt, hph] at h ⊢
  omega

/-- Where the bit cycles end: at the select's position, or at the end of the sequence (R83). -/
theorem bitCycle_last {c : Cfg} {x : SpiState} (hph : x.phase = .bitCycle) (h3 : (x.seq - spiOffset c) % 4 = 3)
    (hk : ¬ (x.seq - spiOffset c) / 4 < 7) (h : SpiAt c x) : x.seq + 1 = spiOffset c + 32 := by
  simp only [SpiAt, hph] at h
  omega

/-- Every position of a transfer, by its phase and, in a bit cycle, by its four steps (R74, R75). -/
theorem spiPosition_spiTick (op : SpiOp) {s : State} (hp : s.spi.phase ≠ .idle) : SpiPosition s (spiTick op s) := by
  cases hph : s.spi.phase with
  | idle => exact absurd hph hp
  | selectAsserted =>
    simp only [spiTick, hph, low_eq_drive]
    refine .of_advance (spiAccess_drive _ _ s) ?_
    simp only [SpiAt, hph, spiOffset]
    rintro ⟨hs, hq⟩
    simp [hs, hq]
  | selectDeasserted =>
    simp only [spiTick, hph, high_eq_drive]
    refine .of_finish (spiAccess_drive _ _ s) ?_
    simp only [SpiAt, hph, spiLength, spiOffset]
    rintro ⟨hs, hq⟩
    simp [hs, hq]
  | bitCycle =>
    simp only [spiTick, hph, low_eq_drive, high_eq_drive, write_eq_drive, read_eq_sample]
    have hn : (s.spi.seq - spiOffset s.cfg) % 4 < 4 := Nat.mod_lt _ (by omega)
    split
    next h => exact .of_advance (spiAccess_drive _ _ s) (spiAt_bitCycle_next hph (.inl (by omega)))
    next h => exact .of_advance (spiAccess_drive _ _ s) (spiAt_bitCycle_next hph (.inl (by omega)))
    next h => exact .of_advance (spiAccess_drive _ _ s) (spiAt_bitCycle_next hph (.inl (by omega)))
    next h0 h1 h2 =>
      have h3 : (s.spi.seq - spiOffset s.cfg) % 4 = 3 := by
        change _ ≠ _ at h0 h1 h2
        omega
      have ha := spiAccess_receive (s.cfg.slot s.cfg.spiMiso) ((s.spi.seq - spiOffset s.cfg) / 4) s
      split
      next hk => exact .of_advance ha (spiAt_bitCycle_next hph (.inr hk))
      next hk =>
        split
        next hs =>
          refine .of_advance ha fun h _ => ⟨hs, ?_⟩
          simpa [spiOffset, hs] using bitCycle_last hph h3 hk h
        next hs =>
          refine .of_finish ha fun h => ?_
          simpa [spiOffset, spiLength, hs] using bitCycle_last hph h3 hk h

/-! ### One position of the 1-Wire engine -/

/-- The number of positions of the bit-level sequences of a command (R96). -/
def owSlotLength : OwOp → Nat
  | .reset => 5
  | .wbit => 3
  | .rbit => 5
  | .wbyte => 3
  | .rbyte => 5

theorem owSequence_length (op : OwOp) (c : Cfg) (x : OwState) : (owSequence op c x).length = owSlotLength op := by
  cases op <;> rfl

/-- The bits a byte command still has to begin; none for any other command. -/
def owBitsLeft (op : OwOp) (x : OwState) : Nat := if op.isByte then 7 - x.bitidx else 0

/-- The positions a 1-Wire command still has to perform (R96). -/
def owRemaining (op : OwOp) (x : OwState) : Nat := owBitsLeft op x * owSlotLength op + (owSlotLength op - x.seq)

theorem owSlotLength_le (op : OwOp) : owSlotLength op ≤ 5 := by cases op <;> decide

theorem owPhaseOf_ne_idle (op : OwOp) : owPhaseOf op ≠ .idle := by cases op <;> decide

/-- Where the 1-Wire sequencer may stand, for all commands at once. -/
theorem owAt_iff (op : OwOp) (x : OwState) :
    OwAt op x ↔ x.phase = owPhaseOf op ∧ x.seq < owSlotLength op ∧ (op.isByte = true → x.bitidx < 8) := by
  cases op <;> simp [OwAt, owPhaseOf, owSlotLength, OwOp.isByte]

/-- What one position of a 1-Wire command leaves (R20, R96, R118): after an access, the engine where it was, if the access
is a call that does not return; else at the next position, or idle with the response after the last one. -/
inductive OwPosition (op : OwOp) (s : State) : State → Prop where
  | waits {u : State} {rx : LevelVec} (access : s.Accessed u) (hung : OwAt op s.ow → u.timing = .hung) :
      OwPosition op s (u.setOw { s.ow with rx := rx })
  | next {u : State} {x : OwState} (access : s.Accessed u) (returned : u.timing ≠ .hung)
      (bitidx : x.bitidx ≤ 8 ∨ x.bitidx = s.ow.bitidx)
      (within : OwAt op s.ow → OwAt op x ∧ owRemaining op x + 1 = owRemaining op s.ow) : OwPosition op s (u.setOw x)
  | last {u : State} {x : OwState} (v : Byte) (access : s.Accessed u) (returned : u.timing ≠ .hung)
      (idle : x.phase = .idle) (seq : x.seq = owSlotLength op) (bitidx : x.bitidx ≤ 8 ∨ x.bitidx = s.ow.bitidx)
      (ended : OwAt op s.ow → owRemaining op s.ow = 1) : OwPosition op s (respond v (u.setOw x))

theorem setOw_ow {u : State} {x : OwState} (h : u.ow = x) : u.setOw x = u := by
  subst h
  rfl

/-- A position is one access, and what it received. -/
theorem owPerform_eq (op : OwOp) (a : OwAction) (s : State) :
    ∃ (u : State) (rx : LevelVec), s.Accessed u ∧ owPerform op a s = u.setOw { s.ow with rx := rx } := by
  cases a with
  | pull => exact ⟨_, s.ow.rx, accessed_drive _ .low s, (setOw_ow (drive_ow _ _ s)).symm⟩
  | release => exact ⟨_, s.ow.rx, accessed_drive _ .high s, (setOw_ow (drive_ow _ _ s)).symm⟩
  | hold c => exact ⟨_, s.ow.rx, accessed_delay c s, rfl⟩
  | sample =>
    refine ⟨_, s.ow.rx.setIfInBounds (owRxIndex op s.ow) (sample (s.cfg.slot s.cfg.owLine) s).1,
      accessed_sample (s.cfg.slot s.cfg.owLine) s, ?_⟩
    simp only [owPerform, owReceive, read_eq_sample, sample_ow]

/-- One position further in a bit-level sequence. -/
theorem owAt_next {op : OwOp} {x : OwState} (hq : x.seq + 1 < owSlotLength op) (h : OwAt op x) (rx : LevelVec) :
    OwAt op { x with seq := x.seq + 1, rx := rx } ∧
      owRemaining op { x with seq := x.seq + 1, rx := rx } + 1 = owRemaining op x := by
  rw [owAt_iff] at h ⊢
  obtain ⟨hp, -, hk⟩ := h
  refine ⟨⟨hp, hq, hk⟩, ?_⟩
  simp only [owRemaining, owBitsLeft]
  omega

/-- From the end of one bit of a byte command to the beginning of the next. -/
theorem owAt_nextBit {op : OwOp} {x : OwState} (hq : ¬ x.seq + 1 < owSlotLength op) (hb : op.isByte = true)
    (hk : x.bitidx + 1 < 8) (h : OwAt op x) (rx : LevelVec) :
    OwAt op { x with seq := 0, bitidx := x.bitidx + 1, rx := rx } ∧
      owRemaining op { x with seq := 0, bitidx := x.bitidx + 1, rx := rx } + 1 = owRemaining op x := by
  rw [owAt_iff] at h ⊢
  obtain ⟨hp, hq', -⟩ := h
  refine ⟨⟨hp, Nat.zero_lt_of_lt hq', fun _ => hk⟩, ?_⟩
  have hl : 7 - x.bitidx = 7 - (x.bitidx + 1) + 1 := by omega
  simp only [owRemaining, owBitsLeft, hb, if_true, hl, Nat.succ_mul]
  omega

/-- At the end of the last bit-level sequence one position is left. -/
theorem owRemaining_last {op : OwOp} {x : OwState} (hq : ¬ x.seq + 1 < owSlotLength op)
    (hb : op.isByte = true → ¬ x.bitidx + 1 < 8) (h : OwAt op x) : owRemaining op x = 1 := by
  rw [owAt_iff] at h
  have hl : owBitsLeft op x = 0 := by
    unfold owBitsLeft
    split
    next h8 =>
      have := hb h8
      omega
    next => rfl
  rw [owRemaining, hl]
  omega

/-- Going on from a position, where the engine's registers are those of `s` but for what it received. -/
theorem OwPosition.of_advance {op : OwOp} {s u : State} {rx : LevelVec} (access : s.Accessed u)
    (returned : u.timing ≠ .hung) :
    OwPosition op s (owAdvance op (owSlotLength op) (u.setOw { s.ow with rx := rx })) := by
  unfold owAdvance
  split
  next hq =>
    exact .next (u := u) (x := { s.ow with seq := s.ow.seq + 1, rx := rx }) access returned (.inr rfl)
      (owAt_next hq · rx)
  next hq =>
    split
    next hb =>
      split
      next hk =>
        exact .next (u := u) (x := { s.ow with seq := 0, bitidx := s.ow.bitidx + 1, rx := rx }) access returned
          (.inl (Nat.le_of_lt hk)) (owAt_nextBit hq hb hk · rx)
      next hk =>
        exact .last (u := u) (x := { s.ow with phase := .idle, seq := owSlotLength op, bitidx := 8, rx := rx }) _ access
          returned rfl rfl (.inl (Nat.le_refl 8)) (owRemaining_last hq fun _ => hk)
    next hb =>
      exact .last (u := u) (x := { s.ow with phase := .idle, seq := owSlotLength op, rx := rx }) _ access returned rfl rfl
        (.inr rfl) (owRemaining_last hq fun h => absurd h hb)

/-- Every position of a 1-Wire command: blocked, past the sequence, or performed. -/
theorem owPosition_owTick (op : OwOp) (s : State) : OwPosition op s (owTick op s) := by
  unfold owTick
  split
  next hb =>
    exact .waits (u := s) (rx := s.ow.rx) (.refl s) fun _ => (by simpa [State.blocked] using hb : _ ∧ _).2
  next hb =>
    split
    next hn =>
      refine .waits (u := s) (rx := s.ow.rx) (.refl s) fun h => ?_
      rw [owAt_iff] at h
      rw [List.getElem?_eq_none_iff, owSequence_length] at hn
      omega
    next a ha =>
      obtain ⟨u, rx, access, hu⟩ := owPerform_eq op a s
      rw [owSequence_length, hu]
      dsimp only
      split
      next hh => exact .waits access fun _ => hh
      next hh => exact .of_advance access hh

end Sys2Proof.Machine
end

section
/-! SUPPORT. The invariant of the machine, kept by the sequencer, by every command and by every step, and the run of a
command in flight to its response (00_scope.md R5; 10_state.md R14, R16; 60_exceptions.md R110). -/

namespace Sys2Proof.Machine

/-! ### The sequencer and the command in flight -/

theorem spiAt_ne_idle {c : Cfg} {x : SpiState} (h : SpiAt c x) : x.phase ≠ .idle := by
  intro hp
  simp [SpiAt, hp] at h

theorem spiAt_seq_lt {c : Cfg} {x : SpiState} (h : SpiAt c x) : x.seq < spiLength c := by
  unfold spiLength
  cases hp : x.phase with
  | idle => exact absurd hp (spiAt_ne_idle h)
  | selectAsserted =>
    simp only [SpiAt, hp] at h
    omega
  | bitCycle =>
    simp only [SpiAt, hp] at h
    omega
  | selectDeasserted =>
    simp only [SpiAt, hp] at h
    simp [spiOffset, h]

theorem spiLength_le (c : Cfg) : spiLength c ≤ 34 := by
  unfold spiLength spiOffset
  split <;> omega

theorem owAt_ne_idle {op : OwOp} {x : OwState} (h : OwAt op x) : x.phase ≠ .idle := by
  rw [((owAt_iff op x).1 h).1]
  exact owPhaseOf_ne_idle op

theorem sequencerOk_none {s : State} (hi : s.inflight = none) : s.SequencerOk ↔ s.busy = false := by
  simp only [State.SequencerOk, hi, busy_eq_false]

theorem sequencerOk_spi {s : State} {op : SpiOp} (hi : s.inflight = some (.spi op)) :
    s.SequencerOk ↔ s.cfg.spiPresent = true ∧ s.ow.phase = .idle ∧ SpiAt s.cfg s.spi := by
  simp only [State.SequencerOk, hi]

theorem sequencerOk_ow {s : State} {op : OwOp} (hi : s.inflight = some (.ow op)) :
    s.SequencerOk ↔ s.cfg.owPresent = true ∧ s.spi.phase = .idle ∧ OwAt op s.ow := by
  simp only [State.SequencerOk, hi]

/-- The block is busy exactly while a command is in flight (R5). -/
theorem busy_iff_inflight {s : State} (h : s.SequencerOk) : s.busy = true ↔ s.inflight ≠ none := by
  cases hi : s.inflight with
  | none => simp [(sequencerOk_none hi).1 h]
  | some e =>
    cases e with
    | spi op => simp [State.busy, spiAt_ne_idle ((sequencerOk_spi hi).1 h).2.2]
    | ow op => simp [State.busy, owAt_ne_idle ((sequencerOk_ow hi).1 h).2.2]

theorem tick_spiPosition {s : State} {op : SpiOp} (h : s.SequencerOk) (hi : s.inflight = some (.spi op)) :
    SpiPosition s (tick s) := by
  rw [tick_spi hi]
  exact spiPosition_spiTick op (spiAt_ne_idle ((sequencerOk_spi hi).1 h).2.2)

theorem tick_owPosition {s : State} {op : OwOp} (hi : s.inflight = some (.ow op)) : OwPosition op s (tick s) := by
  rw [tick_ow hi]
  exact owPosition_owTick op s

/-! ### The invariant -/

theorem State.Inv.accessed {s u : State} (h : s.Inv) (a : s.Accessed u)
    (waiting : u.timing = .hung → u.ow.phase ≠ .idle) : u.Inv where
  wellFormed := a.cfg ▸ h.wellFormed
  sequencer := by
    have := h.sequencer
    simpa only [State.SequencerOk, a.inflight, a.spi, a.ow, a.cfg] using this
  spiSeq := a.spi ▸ h.spiSeq
  owSeq := a.ow ▸ h.owSeq
  owBitidx := a.ow ▸ h.owBitidx
  noResponse := by
    rw [a.inflight, a.response]
    exact h.noResponse
  delays := a.delays h.delays
  waiting := waiting
  lastId := by
    rw [a.owsearch, a.cfg]
    exact h.lastId

/-- A pin access keeps the invariant: it does not call the timing source. -/
theorem State.Inv.accessed_pin {s u : State} (h : s.Inv) (a : s.Accessed u) (ht : u.timing = s.timing) : u.Inv :=
  h.accessed a fun hh => by
    rw [a.ow]
    exact h.waiting (ht ▸ hh)

theorem State.Inv.setSpi {s : State} {op : SpiOp} {x : SpiState} (h : s.Inv) (hi : s.inflight = some (.spi op))
    (hx : SpiAt s.cfg x) : (s.setSpi x).Inv :=
  { h with
    sequencer := by
      obtain ⟨hp, ho, -⟩ := (sequencerOk_spi hi).1 h.sequencer
      exact (sequencerOk_spi (s := s.setSpi x) hi).2 ⟨hp, ho, hx⟩
    spiSeq := (spiAt_seq_lt hx).le.trans (spiLength_le _) }

theorem State.Inv.finishSpi {s : State} {op : SpiOp} {x : SpiState} (h : s.Inv) (hi : s.inflight = some (.spi op))
    (hx : x.phase = .idle) (hq : x.seq ≤ 34) (v : Byte) : (respond v (s.setSpi x)).Inv :=
  { h with
    sequencer := ⟨hx, ((sequencerOk_spi hi).1 h.sequencer).2.1⟩
    spiSeq := hq
    noResponse := fun hn => absurd rfl hn }

theorem State.Inv.setOw {s : State} {op : OwOp} {x : OwState} (h : s.Inv) (hi : s.inflight = some (.ow op))
    (hx : OwAt op x) (hb : x.bitidx ≤ 8) : (s.setOw x).Inv :=
  { h with
    sequencer := by
      obtain ⟨hp, hs, -⟩ := (sequencerOk_ow hi).1 h.sequencer
      exact (sequencerOk_ow (s := s.setOw x) hi).2 ⟨hp, hs, hx⟩
    owSeq := ((owAt_iff op x).1 hx).2.1.le.trans (owSlotLength_le op)
    owBitidx := hb
    waiting := fun _ => owAt_ne_idle hx }

theorem State.Inv.finishOw {s : State} {op : OwOp} {x : OwState} (h : s.Inv) (hi : s.inflight = some (.ow op))
    (ht : s.timing ≠ .hung) (hx : x.phase = .idle) (hq : x.seq ≤ 5) (hb : x.bitidx ≤ 8) (v : Byte) :
    (respond v (s.setOw x)).Inv :=
  { h with
    sequencer := ⟨((sequencerOk_ow hi).1 h.sequencer).2.1, hx⟩
    owSeq := hq
    owBitidx := hb
    noResponse := fun hn => absurd rfl hn
    waiting := fun hh => absurd hh ht }

theorem SpiPosition.keeps_inv {s t : State} {op : SpiOp} (p : SpiPosition s t) (h : s.Inv)
    (hi : s.inflight = some (.spi op)) : t.Inv := by
  have hx := ((sequencerOk_spi hi).1 h.sequencer).2.2
  cases p with
  | next a ht hq within => exact (h.accessed_pin a ht).setSpi (a.inflight.trans hi) (a.cfg ▸ within hx)
  | last v a ht hq idle ended =>
    exact (h.accessed_pin a ht).finishSpi (a.inflight.trans hi) idle (ended hx ▸ spiLength_le _) v

theorem OwPosition.keeps_inv {s t : State} {op : OwOp} (p : OwPosition op s t) (h : s.Inv)
    (hi : s.inflight = some (.ow op)) : t.Inv := by
  have hx := ((sequencerOk_ow hi).1 h.sequencer).2.2
  have hb := h.owBitidx
  have hu : ∀ {u}, s.Accessed u → u.Inv := fun a => h.accessed a fun _ => by
    rw [a.ow]
    exact owAt_ne_idle hx
  cases p with
  | waits a hung => exact (hu a).setOw (a.inflight.trans hi) (by simpa only [owAt_iff] using hx) hb
  | next a returned hk within => exact (hu a).setOw (a.inflight.trans hi) (within hx).1 (by omega)
  | last v a returned idle hq hk ended =>
    exact (hu a).finishOw (a.inflight.trans hi) returned idle (hq ▸ owSlotLength_le op) (by omega) v

/-- One position of the sequencer keeps the invariant, whether or not the timing source returns. -/
theorem tick_keeps_inv {s : State} (h : s.Inv) : (tick s).Inv := by
  cases hi : s.inflight with
  | none =>
    rw [tick_of_none hi]
    exact h
  | some e =>
    cases e with
    | spi op => exact (tick_spiPosition h.sequencer hi).keeps_inv h hi
    | ow op => exact (tick_owPosition hi).keeps_inv h hi

theorem ticks_keep_inv (n : Nat) {s : State} (h : s.Inv) : (ticks n s).Inv := by
  induction n generalizing s with
  | zero => exact h
  | succ n ih => exact ih (tick_keeps_inv h)

/-! ### Coming to the response -/

/-- The positions the command in flight still has to perform; none where no command is in flight (R83, R96). -/
def State.remaining (s : State) : Nat :=
  match s.inflight with
  | none => 0
  | some (.spi _) => spiLength s.cfg - s.spi.seq
  | some (.ow op) => owRemaining op s.ow

theorem remaining_none {s : State} (hi : s.inflight = none) : s.remaining = 0 := by simp only [State.remaining, hi]

theorem remaining_spi {s : State} {op : SpiOp} (hi : s.inflight = some (.spi op)) :
    s.remaining = spiLength s.cfg - s.spi.seq := by
  simp only [State.remaining, hi]

theorem remaining_ow {s : State} {op : OwOp} (hi : s.inflight = some (.ow op)) : s.remaining = owRemaining op s.ow := by
  simp only [State.remaining, hi]

/-- `t` is one position nearer to the response than `s`, or has just answered; no command word is taken. -/
structure State.Progress (s t : State) : Prop where
  cfg : t.cfg = s.cfg
  cmds : t.cmds = s.cmds
  timing : t.timing = .returns
  sequencer : t.SequencerOk
  remaining : t.remaining + 1 = s.remaining
  outcome : t.inflight = s.inflight ∨ ∃ v, t.Answered (.ok v)

theorem SpiPosition.progress {s t : State} {op : SpiOp} (p : SpiPosition s t) (h : s.SequencerOk)
    (hi : s.inflight = some (.spi op)) (ht : s.timing = .returns) : s.Progress t := by
  obtain ⟨hp, ho, hx⟩ := (sequencerOk_spi hi).1 h
  have hlt := spiAt_seq_lt hx
  cases p with
  | @next u x a htu hq within =>
    have hi' := a.inflight.trans hi
    have hx' : SpiAt u.cfg x := a.cfg ▸ within hx
    exact {
      cfg := a.cfg
      cmds := a.cmds
      timing := htu.trans ht
      sequencer := (sequencerOk_spi (s := u.setSpi x) hi').2 ⟨a.cfg ▸ hp, a.ow ▸ ho, hx'⟩
      remaining := by
        rw [remaining_spi hi, remaining_spi (s := u.setSpi x) hi', State.setSpi_cfg, State.setSpi_spi, a.cfg]
        omega
      outcome := .inl a.inflight }
  | @last u x v a htu hq idle ended =>
    have hb : (respond v (u.setSpi x)).busy = false := busy_eq_false.2 ⟨idle, (a.ow ▸ ho : u.ow.phase = .idle)⟩
    exact {
      cfg := a.cfg
      cmds := a.cmds
      timing := htu.trans ht
      sequencer := (sequencerOk_none rfl).2 hb
      remaining := by
        rw [remaining_spi hi, remaining_none rfl]
        have := ended hx
        omega
      outcome := .inr ⟨v, hb, rfl, rfl⟩ }

theorem OwPosition.progress {s t : State} {op : OwOp} (p : OwPosition op s t) (h : s.SequencerOk)
    (hi : s.inflight = some (.ow op)) (ht : s.timing = .returns) : s.Progress t := by
  obtain ⟨hp, hs, hx⟩ := (sequencerOk_ow hi).1 h
  cases p with
  | waits a hung =>
    have := (hung hx).symm.trans (a.returns ht)
    cases this
  | @next u x a returned _ within =>
    have hi' := a.inflight.trans hi
    obtain ⟨hx', hr⟩ := within hx
    exact {
      cfg := a.cfg
      cmds := a.cmds
      timing := a.returns ht
      sequencer := (sequencerOk_ow (s := u.setOw x) hi').2 ⟨a.cfg ▸ hp, a.spi ▸ hs, hx'⟩
      remaining := by
        rw [remaining_ow hi, remaining_ow (s := u.setOw x) hi']
        exact hr
      outcome := .inl a.inflight }
  | @last u x v a returned idle _ _ ended =>
    have hb : (respond v (u.setOw x)).busy = false := busy_eq_false.2 ⟨(a.spi ▸ hs : u.spi.phase = .idle), idle⟩
    exact {
      cfg := a.cfg
      cmds := a.cmds
      timing := a.returns ht
      sequencer := (sequencerOk_none rfl).2 hb
      remaining := by rw [remaining_ow hi, remaining_none rfl, ended hx]
      outcome := .inr ⟨v, hb, rfl, rfl⟩ }

/-- Where the timing source returns, one position of a command in flight brings it nearer to its response (R110). -/
theorem tick_progress {s : State} (h : s.SequencerOk) (hi : s.inflight ≠ none) (ht : s.timing = .returns) :
    s.Progress (tick s) := by
  cases he : s.inflight with
  | none => exact absurd he hi
  | some e =>
    cases e with
    | spi op => exact (tick_spiPosition h he).progress h he ht
    | ow op => exact (tick_owPosition he).progress h he ht

/-- A command in flight is answered after exactly the positions it has left (R5, R81, R117). -/
theorem ticks_remaining (n : Nat) {s : State} (h : s.SequencerOk) (hi : s.inflight ≠ none) (ht : s.timing = .returns)
    (hn : s.remaining = n) :
    (ticks n s).cfg = s.cfg ∧ (ticks n s).cmds = s.cmds ∧ (ticks n s).timing = .returns ∧
      ∃ v, (ticks n s).Answered (.ok v) := by
  induction n generalizing s with
  | zero =>
    have := (tick_progress h hi ht).remaining
    omega
  | succ n ih =>
    have p := tick_progress h hi ht
    have hr := p.remaining
    rcases p.outcome with hf | ⟨v, ha⟩
    · obtain ⟨hc, hw, ht', hv⟩ := ih p.sequencer (hf ▸ hi) p.timing (by omega)
      exact ⟨hc.trans p.cfg, hw.trans p.cmds, ht', hv⟩
    · have hn0 : n = 0 := by
        have := remaining_none ha.inflight
        omega
      subst hn0
      exact ⟨p.cfg, p.cmds, p.timing, v, ha⟩

/-- The run of an issued command ends ready, answered, and with no word taken (R5, R103). -/
theorem ticks_complete {n : Nat} {s : State} (hw : s.cfg.WellFormed) (h : s.SequencerOk) (hi : s.inflight ≠ none)
    (ht : s.timing = .returns) (hn : s.remaining = n) :
    (ticks n s).Ready ∧ (ticks n s).inflight = none ∧ (ticks n s).response ≠ none ∧ (ticks n s).cmds = s.cmds ∧
      (ticks n s).timing = .returns := by
  obtain ⟨hc, hcmds, ht', v, ha⟩ := ticks_remaining n h hi ht hn
  exact ⟨⟨hc ▸ hw, ha.idle⟩, ha.inflight, by simp [ha.response], hcmds, ht'⟩

theorem SpiPosition.cmds {s t : State} (p : SpiPosition s t) : t.cmds = s.cmds := by
  cases p with
  | next a => exact a.cmds
  | last v a => exact a.cmds

theorem OwPosition.cmds {op : OwOp} {s t : State} (p : OwPosition op s t) : t.cmds = s.cmds := by
  cases p with
  | waits a => exact a.cmds
  | next a => exact a.cmds
  | last v a => exact a.cmds

/-- No position takes a command word (R5). -/
theorem tick_cmds (s : State) : (tick s).cmds = s.cmds := by
  cases hi : s.inflight with
  | none => rw [tick_of_none hi]
  | some e =>
    cases e with
    | spi op =>
      rw [tick_spi hi]
      by_cases hp : s.spi.phase = .idle
      · simp only [spiTick, hp]
      · exact (spiPosition_spiTick op hp).cmds
    | ow op => exact (tick_owPosition hi).cmds

/-! ### What a command can leave -/

/-- What a command leaves in a ready state: a refusal (R104), the response after at most one access of a pin (R57 to R73),
or the run of a present engine from the command's issue (R85, R86, R97 to R101). -/
inductive CommandResult (s : State) : State → Prop where
  | refused (r : RefuseReason) : CommandResult s (refuse r s)
  | answered {u : State} (v : Byte) (access : s.Accessed u) (timing : u.timing = s.timing) :
      CommandResult s (respond v u)
  | spi (op : SpiOp) (b : Byte) (present : s.cfg.spiPresent = true) :
      CommandResult s (ticks (spiLength s.cfg) (spiIssue op b s))
  | ow (op : OwOp) (operand : Option Byte) (present : s.cfg.owPresent = true) :
      CommandResult s (ticks (owLength op) (owIssue op operand s))

/-- An outcome is that of an admission with one of the results of a command. -/
def Admitted (s : State) (o : Host.Outcome State Fault Refusal) : Prop :=
  ∃ body : State → State, o = accept s body ∧ CommandResult s (body s)

theorem admitted_respond (v : Byte) (s : State) : Admitted s (accept s (respond v)) :=
  ⟨_, rfl, .answered v (.refl s) rfl⟩

theorem admitted_pinCommand (slot : Nat) (need : Cap) (act : PinExpr → State → State) (s : State)
    (hact : ∀ e, CommandResult s (act e s)) : Admitted s (pinCommand slot need act s) := by
  refine ⟨_, rfl, ?_⟩
  cases checkPin s.cfg slot need with
  | ok e => exact hact e
  | error r => exact .refused r

theorem admitted_spiCommand (op : SpiOp) (b : Byte) (s : State) : Admitted s (spiCommand op b s) := by
  refine ⟨_, rfl, ?_⟩
  split
  next hp => exact .spi op b hp
  next => exact .refused .noEngine

theorem admitted_owCommand (op : OwOp) (operand : Option Byte) (s : State) : Admitted s (owCommand op operand s) := by
  refine ⟨_, rfl, ?_⟩
  split
  next hp => exact .ow op operand hp
  next => exact .refused .noEngine

/-- Every command is admitted alike, and has one of the results of a command. -/
theorem admitted_exec (i : Instr) (s : State) : Admitted s (exec i s) := by
  cases i with
  | pinHigh slot =>
    exact admitted_pinCommand slot .out (fun e s => respond noResult (high e s)) s fun e =>
      .answered _ (accessed_drive e .high s) (drive_timing e .high s)
  | pinLow slot =>
    exact admitted_pinCommand slot .out (fun e s => respond noResult (low e s)) s fun e =>
      .answered _ (accessed_drive e .low s) (drive_timing e .low s)
  | pinWrite slot l =>
    refine admitted_pinCommand slot .out (fun e s => respond noResult (write e l s)) s fun e => ?_
    rw [write_eq_drive]
    exact .answered _ (accessed_drive e l s) (drive_timing e l s)
  | pinRead slot =>
    exact admitted_pinCommand slot .inp (fun e s => respond (byteOfLevel (read e s).1) (read e s).2) s fun e =>
      .answered _ (accessed_sample e s) (sample_timing e s)
  | bitsDmsb b => exact admitted_respond _ s
  | bitsDlsb b => exact admitted_respond _ s
  | bitsRmsb v => exact admitted_respond _ s
  | bitsRlsb v => exact admitted_respond _ s
  | spiXfer b => exact admitted_spiCommand .xfer b s
  | spiWrite b => exact admitted_spiCommand .write b s
  | owReset => exact admitted_owCommand .reset none s
  | owWbit l => exact admitted_owCommand .wbit (some (byteOfLevel l)) s
  | owRbit => exact admitted_owCommand .rbit none s
  | owWbyte b => exact admitted_owCommand .wbyte (some b) s
  | owRbyte => exact admitted_owCommand .rbyte none s
  | owSearch a b => exact ⟨_, rfl, .refused .unimplemented⟩

/-- A ready state performs every command. -/
theorem exec_ready {s : State} (h : s.Ready) (i : Instr) : ∃ t, exec i s = .next t ∧ CommandResult s t := by
  obtain ⟨body, he, hr⟩ := admitted_exec i s
  exact ⟨_, he.trans (accept_ready h body), hr⟩

/-- Only a ready state performs a command. -/
theorem ready_of_exec_next {i : Instr} {s t : State} (h : exec i s = .next t) : s.Ready := by
  obtain ⟨body, he, -⟩ := admitted_exec i s
  exact (accept_next (he ▸ h)).1

/-- A command asked for while another one is in flight is refused by name (log entry 13). -/
theorem exec_busy (i : Instr) {s : State} (hw : s.cfg.WellFormed) (hb : s.busy = true) :
    exec i s = .refused .commandInFlight := by
  obtain ⟨body, he, -⟩ := admitted_exec i s
  have hw' : s.cfg.firstFailure = none := hw
  simp [he, accept, hw', hb]

/-! ### The issue of an engine command -/

theorem spiAt_issue (op : SpiOp) (b : Byte) (s : State) : SpiAt s.cfg (spiIssue op b s).spi := by
  cases hs : s.cfg.spiHasSs <;> simp [spiIssue, SpiAt, spiOffset, hs]

theorem owAt_issue (op : OwOp) (operand : Option Byte) (s : State) : OwAt op (owIssue op operand s).ow := by
  cases op <;> simp [owIssue, OwAt, owPhaseOf, OwOp.isByte]

theorem sequencerOk_spiIssue {s : State} (op : SpiOp) (b : Byte) (h : s.busy = false) (hp : s.cfg.spiPresent = true) :
    (spiIssue op b s).SequencerOk :=
  (sequencerOk_spi (s := spiIssue op b s) rfl).2 ⟨hp, (busy_eq_false.1 h).2, spiAt_issue op b s⟩

theorem sequencerOk_owIssue {s : State} (op : OwOp) (operand : Option Byte) (h : s.busy = false)
    (hp : s.cfg.owPresent = true) : (owIssue op operand s).SequencerOk :=
  (sequencerOk_ow (s := owIssue op operand s) rfl).2 ⟨hp, (busy_eq_false.1 h).1, owAt_issue op operand s⟩

theorem remaining_spiIssue (op : SpiOp) (b : Byte) (s : State) : (spiIssue op b s).remaining = spiLength s.cfg := rfl

theorem remaining_owIssue (op : OwOp) (operand : Option Byte) (s : State) :
    (owIssue op operand s).remaining = owLength op := by
  cases op <;> rfl

theorem spiIssue_keeps_inv {s : State} (op : SpiOp) (b : Byte) (h : s.Inv) (hb : s.busy = false)
    (hp : s.cfg.spiPresent = true) : (spiIssue op b s).Inv :=
  { h with
    sequencer := sequencerOk_spiIssue op b hb hp
    spiSeq := Nat.zero_le 34
    noResponse := fun _ => rfl }

theorem owIssue_keeps_inv {s : State} (op : OwOp) (operand : Option Byte) (h : s.Inv) (hb : s.busy = false)
    (hp : s.cfg.owPresent = true) : (owIssue op operand s).Inv :=
  { h with
    sequencer := sequencerOk_owIssue op operand hb hp
    owSeq := Nat.zero_le 5
    owBitidx := by
      have := h.owBitidx
      simp only [owIssue, State.setResponse_ow, State.setInflight_ow, State.setOw_ow]
      split <;> omega
    noResponse := fun _ => rfl
    waiting := fun _ => owAt_ne_idle (owAt_issue op operand s) }

/-! ### The port -/

/-- Between commands none is in flight (R5, R14, R16). -/
theorem inflight_none {s : State} (h : s.Inv) (hb : s.busy = false) : s.inflight = none := by
  by_contra hi
  rw [(busy_iff_inflight h.sequencer).2 hi] at hb
  cases hb

theorem State.Inv.setCmds {s : State} (h : s.Inv) (ws : List CmdWord) : (s.setCmds ws).Inv := { h with }

theorem State.Inv.refuse {s : State} (h : s.Inv) (hb : s.busy = false) (r : RefuseReason) :
    (Machine.refuse r s).Inv :=
  { h with noResponse := fun hn => absurd (inflight_none h hb) hn }

theorem State.Inv.respond {s : State} (h : s.Inv) (hb : s.busy = false) (v : Byte) : (Machine.respond v s).Inv :=
  { h with
    sequencer := (sequencerOk_none rfl).2 hb
    noResponse := fun hn => absurd rfl hn }

theorem CommandResult.keeps_inv {s t : State} (c : CommandResult s t) (h : s.Inv) (hb : s.busy = false) : t.Inv := by
  cases c with
  | refused r => exact h.refuse hb r
  | answered v a ht =>
    refine (h.accessed_pin a ht).respond ?_ v
    simpa only [State.busy, a.spi, a.ow] using hb
  | spi op b hp => exact ticks_keep_inv _ (spiIssue_keeps_inv op b h hb hp)
  | ow op operand hp => exact ticks_keep_inv _ (owIssue_keeps_inv op operand h hb hp)

theorem exec_keeps_inv {i : Instr} {s t : State} (h : s.Inv) (he : exec i s = .next t) : t.Inv := by
  have hr := ready_of_exec_next he
  obtain ⟨u, hu, c⟩ := exec_ready hr i
  cases he.symm.trans hu
  exact c.keeps_inv h hr.idle

/-- A result of a command is a completion, where the timing source returns (R5, R103, R110). -/
theorem CommandResult.completes {s t : State} (c : CommandResult s t) (h : s.Ready) (hi : s.inflight = none)
    (ht : s.timing = .returns) :
    t.Ready ∧ t.inflight = none ∧ t.response ≠ none ∧ t.cmds = s.cmds ∧ t.timing = .returns := by
  cases c with
  | refused r => exact ⟨⟨h.wellFormed, h.idle⟩, hi, nofun, rfl, ht⟩
  | @answered u v a htu =>
    have hb : (respond v u).busy = false := by simpa only [State.busy, respond_spi, respond_ow, a.spi, a.ow] using h.idle
    exact ⟨⟨a.cfg ▸ h.wellFormed, hb⟩, rfl, nofun, a.cmds, htu.trans ht⟩
  | spi op b hp =>
    exact ticks_complete (s := spiIssue op b s) h.wellFormed (sequencerOk_spiIssue op b h.idle hp) nofun ht
      (remaining_spiIssue op b s)
  | ow op operand hp =>
    exact ticks_complete (s := owIssue op operand s) h.wellFormed (sequencerOk_owIssue op operand h.idle hp) nofun ht
      (remaining_owIssue op operand s)

/-! ### The step -/

/-- With a command in flight a step is one position (R20), or the stuck fault (R118). -/
theorem step_busy {s : State} (hw : s.cfg.WellFormed) (hb : s.busy = true) :
    step s = if s.blocked then .fault .timingSourceHung else .next (tick s) := by
  have hw' : s.cfg.firstFailure = none := hw
  simp [step, hw', hb]

/-- A ready block with no word issued waits (R115). -/
theorem step_of_no_word {s : State} (h : s.Ready) (hc : s.cmds = []) : step s = .next s := by
  have hw : s.cfg.firstFailure = none := h.wellFormed
  simp [step, hw, h.idle, fetch, hc]

/-- A ready block performs the command its next word decodes to (R5, R7, R43). -/
theorem step_of_decode_ok {s : State} {w : CmdWord} {rest : List CmdWord} {i : Instr} (h : s.Ready)
    (hc : s.cmds = w :: rest) (hd : decode w = .ok i) : step s = exec i (s.setCmds rest) := by
  have hw : s.cfg.firstFailure = none := h.wellFormed
  simp [step, hw, h.idle, fetch, hc, hd]

/-- A ready block refuses a word that is no command (R44, R45). -/
theorem step_of_decode_error {s : State} {w : CmdWord} {rest : List CmdWord} {r : RefuseReason} (h : s.Ready)
    (hc : s.cmds = w :: rest) (hd : decode w = .error r) : step s = .next (refuse r (s.setCmds rest)) := by
  have hw : s.cfg.firstFailure = none := h.wellFormed
  simp [step, hw, h.idle, fetch, hc, hd]

/-- Every step from a state that meets the invariant answers one that meets it. -/
theorem step_keeps_inv {s t : State} (h : s.Inv) (hs : step s = .next t) : t.Inv := by
  cases hb : s.busy with
  | true =>
    rw [step_busy h.wellFormed hb] at hs
    split at hs
    · cases hs
    · cases hs
      exact tick_keeps_inv h
  | false =>
    have hr : s.Ready := ⟨h.wellFormed, hb⟩
    cases hc : s.cmds with
    | nil =>
      rw [step_of_no_word hr hc] at hs
      cases hs
      exact h
    | cons w rest =>
      cases hd : decode w with
      | ok i =>
        rw [step_of_decode_ok hr hc hd] at hs
        exact exec_keeps_inv (h.setCmds rest) hs
      | error r =>
        rw [step_of_decode_error hr hc hd] at hs
        cases hs
        exact (h.setCmds rest).refuse hb r

/-- A run begins with a step. -/
theorem run_succ {M : Host.Core} (n : Nat) {s t : M.State} (h : M.step s = .next t) : M.run (n + 1) s = M.run n t := by
  simp only [Host.Core.run, h]

/-- As long as a command is in flight and the timing source returns, the machine runs by positions of the sequencer. -/
theorem core_run_ticks (n : Nat) {s : State} (hw : s.cfg.WellFormed) (h : s.SequencerOk) (ht : s.timing = .returns)
    (hn : n ≤ s.remaining) : core.run n s = .next (ticks n s) := by
  induction n generalizing s with
  | zero => rfl
  | succ n ih =>
    have hi : s.inflight ≠ none := fun hi => by
      have := remaining_none hi
      omega
    have p := tick_progress h hi ht
    have hr := p.remaining
    have hs : core.step s = .next (tick s) := by
      refine (step_busy hw ((busy_iff_inflight h).2 hi)).trans (if_neg ?_)
      simp [State.blocked, ht]
    exact (run_succ n hs).trans <| ih (p.cfg ▸ hw) p.sequencer p.timing (by omega)

/-- No command has more than the forty positions of a byte read (R83, R96). -/
theorem remaining_le (s : State) : s.remaining ≤ 40 := by
  cases hi : s.inflight with
  | none => simp [remaining_none hi]
  | some e =>
    cases e with
    | spi op =>
      have := spiLength_le s.cfg
      rw [remaining_spi hi]
      omega
    | ow op =>
      have hl : owBitsLeft op s.ow ≤ 7 := by
        unfold owBitsLeft
        split <;> omega
      have hm := Nat.mul_le_mul hl (owSlotLength_le op)
      have := owSlotLength_le op
      rw [remaining_ow hi, owRemaining]
      omega

end Sys2Proof.Machine
end

section
/-! SUPPORT. The level conversions (00_scope.md R4). -/

namespace Sys2Proof

theorem levelOfByte_zero : levelOfByte 0 = .low := rfl

theorem levelOfByte_ne_zero {v : Byte} (h : v ≠ 0) : levelOfByte v = .high := if_neg h

/-- Only 0 and 1 are bytes of levels (R4). -/
theorem byteOfLevel_levelOfByte_eq_self (v : Byte) : byteOfLevel (levelOfByte v) = v ↔ v = 0 ∨ v = 1 := by
  by_cases h : v = 0
  · exact ⟨fun _ => .inl h, fun _ => by rw [h]; rfl⟩
  · rw [levelOfByte_ne_zero h]
    exact ⟨fun h1 => .inr h1.symm, fun h1 => (h1.resolve_left h).symm⟩

end Sys2Proof
end

section
/-! CERTIFICATES. The obligations on the step, on the commands' run to completion and on the level conversions. -/

namespace Sys2Proof.Machine

/-- Settles O54: the sequencer, every command and every refused word keep the invariant. -/
theorem stepKeepsTheInvariant : Obligations.StepKeepsTheInvariant := fun _ _ => step_keeps_inv

/-- Settles O9, by what a step does with a command in flight. -/
theorem stepInFlightIsTheNextPosition : Obligations.StepInFlightIsTheNextPosition := by
  intro s hw hb
  rw [step_busy hw hb]
  exact ⟨fun h => ⟨by simp [h], tick_cmds s⟩, fun h => by simp [h]⟩

/-- Settles O11: all commands are admitted alike. -/
theorem commandsAreAcceptedExactlyWhenReady : Obligations.CommandsAreAcceptedExactlyWhenReady := by
  intro i s
  refine ⟨⟨fun ⟨_, h⟩ => ready_of_exec_next h, fun h => ?_⟩, exec_busy i⟩
  obtain ⟨t, ht, -⟩ := exec_ready h i
  exact ⟨t, ht⟩

/-- Settles O57, by the results a command can have. -/
theorem commandsRunToCompletion : Obligations.CommandsRunToCompletion := by
  intro i s h hi ht
  obtain ⟨t, he, c⟩ := exec_ready h i
  exact ⟨t, he, c.completes h hi ht⟩

/-- Settles O58, by induction on the positions the command has left. -/
theorem commandInFlightReachesItsResponse : Obligations.CommandInFlightReachesItsResponse := by
  intro s h hb ht
  obtain ⟨-, hw, -, v, ha⟩ := ticks_remaining s.remaining h.sequencer ((busy_iff_inflight h.sequencer).1 hb) ht rfl
  exact ⟨s.remaining, remaining_le s, _, v, core_run_ticks _ h.wellFormed h.sequencer ht (Nat.le_refl _), ha, hw⟩

/-- Settles O7, by what a step of a ready block does. -/
theorem stepRunsTheDecodedCommand : Obligations.StepRunsTheDecodedCommand := by
  intro s w rest i h hc hd
  exact step_of_decode_ok h hc hd

/-- Settles O13, by the two values of a level and by whether a byte is zero. -/
theorem levelsAndBytesConvert : Obligations.LevelsAndBytesConvert :=
  ⟨levelOfByte_zero, fun _ => levelOfByte_ne_zero, rfl, rfl, levelOfByte_byteOfLevel, byteOfLevel_levelOfByte_eq_self,
    fun v h => by rw [levelOfByte_ne_zero h]; rfl, rfl, rfl⟩

end Sys2Proof.Machine
end

section
/-! SUPPORT. The named checks of a configuration say what 10_state.md R9 to R11 spell out. -/

namespace Sys2Proof

/-- A well-formed configuration passes every check, and no other does. -/
theorem Cfg.wellFormed_iff (c : Cfg) : c.WellFormed ↔ ∀ k, c.passes k = true := by
  have hall : ∀ k, k ∈ ConfigCheck.all := fun k => by cases k <;> decide
  simp [Cfg.WellFormed, Cfg.firstFailure, hall]

theorem Cfg.passes_slotCount (c : Cfg) :
    c.passes .slotCount = true ↔ 1 ≤ c.pinCfg.length ∧ c.pinCfg.length ≤ 256 := by
  simp only [Cfg.passes, Bool.and_eq_true, decide_eq_true_eq]

theorem Cfg.passes_capsNonempty (c : Cfg) :
    c.passes .capsNonempty = true ↔ ∀ e ∈ c.pinCfg, e.has .out = true ∨ e.has .inp = true := by
  simp only [Cfg.passes, List.all_eq_true, PinExpr.capsNonempty, Bool.or_eq_true, PinExpr.has]

/-- `slots_in_range`, role by role. -/
theorem Cfg.passes_slotsInRange (c : Cfg) :
    c.passes .slotsInRange = true ↔
      (c.spiPresent = true → c.spiClk < c.pinCfg.length ∧ c.spiMosi < c.pinCfg.length ∧ c.spiMiso < c.pinCfg.length ∧
        (c.spiHasSs = true → c.spiSs < c.pinCfg.length)) ∧
      (c.owPresent = true → c.owLine < c.pinCfg.length) := by
  cases hs : c.spiPresent <;> cases hh : c.spiHasSs <;> cases ho : c.owPresent <;>
    simp [Cfg.passes, Cfg.roles, Cfg.spiRoles, Cfg.owRoles, hs, hh, ho, and_assoc]

theorem Cfg.passes_spiCaps (c : Cfg) :
    c.passes .spiCaps = true ↔ (c.spiPresent = true →
      (c.slot c.spiClk).has .out = true ∧ (c.slot c.spiMosi).has .out = true ∧ (c.slot c.spiMiso).has .inp = true ∧
        (c.spiHasSs = true → (c.slot c.spiSs).has .out = true)) := by
  cases hs : c.spiPresent <;> cases hh : c.spiHasSs <;> simp [Cfg.passes, hs, hh, and_assoc]

theorem Cfg.passes_owCaps (c : Cfg) :
    c.passes .owCaps = true ↔
      (c.owPresent = true → (c.slot c.owLine).has .out = true ∧ (c.slot c.owLine).has .inp = true) := by
  cases ho : c.owPresent <;> simp [Cfg.passes, ho]

/-- `ports_distinct`, over the positions of the table. -/
theorem Cfg.passes_portsDistinct (c : Cfg) :
    c.passes .portsDistinct = true ↔ ∀ (i j : Nat) (e f : PinExpr) (p : Port), i ≠ j → c.pinCfg[i]? = some e →
      c.pinCfg[j]? = some f → e.port? = some p → f.port? ≠ some p := by
  rw [Cfg.passes, decide_eq_true_eq, List.Nodup, List.pairwise_filterMap, List.pairwise_iff_getElem]
  constructor
  · intro h i j e f p hij he hf hp hq
    obtain ⟨hi, rfl⟩ := List.getElem?_eq_some_iff.1 he
    obtain ⟨hj, rfl⟩ := List.getElem?_eq_some_iff.1 hf
    rcases Nat.lt_or_gt_of_ne hij with hlt | hlt
    · exact h i j hi hj hlt p hp p hq rfl
    · exact h j i hj hi hlt p hq p hp rfl
  · rintro h i j hi hj hlt p hp q hq rfl
    exact h i j _ _ p hlt.ne (List.getElem?_eq_getElem hi) (List.getElem?_eq_getElem hj) hp hq

theorem Cfg.passes_durationsDistinct (c : Cfg) :
    c.passes .durationsDistinct = true ↔ c.tShort ≠ c.tMedium ∧ c.tShort ≠ c.tLong ∧ c.tShort ≠ c.tReset ∧
      c.tMedium ≠ c.tLong ∧ c.tMedium ≠ c.tReset ∧ c.tLong ≠ c.tReset := by
  simp [Cfg.passes, Cfg.durations, and_assoc]

/-- The checks spelled out are the checks a well-formed configuration passes. -/
theorem Machine.configOk_iff_wellFormed (c : Cfg) : Machine.ConfigOk c ↔ c.WellFormed := by
  rw [Cfg.wellFormed_iff]
  constructor
  · intro h k
    cases k with
    | slotCount => exact c.passes_slotCount.2 h.slotCount
    | capsNonempty => exact c.passes_capsNonempty.2 h.capsNonempty
    | slotsInRange => exact c.passes_slotsInRange.2 h.slotsInRange
    | spiCaps => exact c.passes_spiCaps.2 h.spiCaps
    | owCaps => exact c.passes_owCaps.2 h.owCaps
    | rolesDistinct => exact decide_eq_true h.rolesDistinct
    | portsDistinct => exact c.passes_portsDistinct.2 h.portsDistinct
    | durationsDistinct => exact c.passes_durationsDistinct.2 h.durationsDistinct
    | writeClassesDistinct => exact decide_eq_true h.writeClassesDistinct
  · exact fun h => {
      slotCount := c.passes_slotCount.1 (h .slotCount)
      capsNonempty := c.passes_capsNonempty.1 (h .capsNonempty)
      slotsInRange := c.passes_slotsInRange.1 (h .slotsInRange)
      spiCaps := c.passes_spiCaps.1 (h .spiCaps)
      owCaps := c.passes_owCaps.1 (h .owCaps)
      rolesDistinct := of_decide_eq_true (h .rolesDistinct)
      portsDistinct := c.passes_portsDistinct.1 (h .portsDistinct)
      durationsDistinct := c.passes_durationsDistinct.1 (h .durationsDistinct)
      writeClassesDistinct := of_decide_eq_true (h .writeClassesDistinct) }

end Sys2Proof
end

section
/-! SUPPORT. What every step answers: the refusal of an ill-formed configuration (10_state.md R11), or a state of the
same configuration with a longer history (R9, R17, R22). -/

namespace Sys2Proof.Machine

/-! ### Ill-formed configurations -/

theorem firstFailure_of_not_wellFormed {c : Cfg} (h : ¬ c.WellFormed) : ∃ k, c.firstFailure = some k :=
  Option.ne_none_iff_exists'.1 h

theorem wellFormed_reset : State.reset.cfg.WellFormed := by decide

theorem step_illFormed {s : State} {k : ConfigCheck} (h : s.cfg.firstFailure = some k) :
    step s = .refused (.illFormedConfig k) := by
  simp only [step, h]

theorem exec_illFormed (i : Instr) {s : State} {k : ConfigCheck} (h : s.cfg.firstFailure = some k) :
    exec i s = .refused (.illFormedConfig k) := by
  obtain ⟨body, he, -⟩ := admitted_exec i s
  simp only [he, accept, h]

/-- Everything a step of a well-formed configuration can answer: the stuck fault (R118), a position of the sequencer
(R20), the same state with no word issued (R115), the result of a command (R5) or the refusal of a word (R44, R45). -/
inductive StepResult (s : State) : Host.Outcome State Fault Refusal → Prop where
  | stuck : StepResult s (.fault .timingSourceHung)
  | position : StepResult s (.next (tick s))
  | waits : StepResult s (.next s)
  | command {t : State} (rest : List CmdWord) (result : CommandResult (s.setCmds rest) t) : StepResult s (.next t)
  | refused (rest : List CmdWord) (r : RefuseReason) : StepResult s (.next (refuse r (s.setCmds rest)))

theorem stepResult {s : State} (hw : s.cfg.WellFormed) : StepResult s (step s) := by
  cases hb : s.busy with
  | true =>
    rw [step_busy hw hb]
    split
    · exact .stuck
    · exact .position
  | false =>
    have hr : s.Ready := ⟨hw, hb⟩
    cases hc : s.cmds with
    | nil =>
      rw [step_of_no_word hr hc]
      exact .waits
    | cons w rest =>
      cases hd : decode w with
      | ok i =>
        obtain ⟨t, ht, result⟩ := exec_ready (s := s.setCmds rest) ⟨hw, hb⟩ i
        rw [step_of_decode_ok hr hc hd, ht]
        exact .command rest result
      | error r =>
        rw [step_of_decode_error hr hc hd]
        exact .refused rest r

/-- A step refuses exactly the ill-formed configurations. -/
theorem step_refused_iff (s : State) :
    (∃ k, step s = .refused (.illFormedConfig k)) ↔ ¬ s.cfg.WellFormed := by
  constructor
  · rintro ⟨k, hk⟩ hw
    have := stepResult hw
    rw [hk] at this
    cases this
  · intro h
    obtain ⟨k, hk⟩ := firstFailure_of_not_wellFormed h
    exact ⟨k, step_illFormed hk⟩

/-! ### One event at most, and what no position changes -/

/-- `t` is `u` in the configuration, the search context, the history and the environment. -/
structure State.SameOutside (u t : State) : Prop where
  cfg : t.cfg = u.cfg
  owsearch : t.owsearch = u.owsearch
  hist : t.hist = u.hist
  env : t.env = u.env

theorem SpiPosition.access {s t : State} (p : SpiPosition s t) : ∃ u, s.Accessed u ∧ u.SameOutside t := by
  cases p with
  | next a => exact ⟨_, a, rfl, rfl, rfl, rfl⟩
  | last v a => exact ⟨_, a, rfl, rfl, rfl, rfl⟩

theorem OwPosition.access {op : OwOp} {s t : State} (p : OwPosition op s t) :
    ∃ u, s.Accessed u ∧ u.SameOutside t := by
  cases p with
  | waits a => exact ⟨_, a, rfl, rfl, rfl, rfl⟩
  | next a => exact ⟨_, a, rfl, rfl, rfl, rfl⟩
  | last v a => exact ⟨_, a, rfl, rfl, rfl, rfl⟩

/-- One position makes at most one access, and does nothing else outside the engines and the port (R20, R25). -/
theorem tick_access (s : State) : ∃ u, s.Accessed u ∧ u.SameOutside (tick s) := by
  cases hi : s.inflight with
  | none =>
    rw [tick_of_none hi]
    exact ⟨s, .refl s, rfl, rfl, rfl, rfl⟩
  | some e =>
    cases e with
    | spi op =>
      rw [tick_spi hi]
      by_cases hp : s.spi.phase = .idle
      · simp only [spiTick, hp]
        exact ⟨s, .refl s, rfl, rfl, rfl, rfl⟩
      · exact (spiPosition_spiTick op hp).access
    | ow op => exact (tick_owPosition hi).access

/-- `t` has the configuration, the search context and the environment's rules of `s`, and its history goes on from that
of `s` (R9, R17, R22, R26). -/
structure State.Extends (s t : State) : Prop where
  cfg : t.cfg = s.cfg
  owsearch : t.owsearch = s.owsearch
  hist : s.hist <+: t.hist
  rules : t.env.rules = s.env.rules

theorem State.Extends.refl (s : State) : s.Extends s := ⟨rfl, rfl, List.prefix_refl _, rfl⟩

theorem State.Extends.trans {s t u : State} (h : s.Extends t) (k : t.Extends u) : s.Extends u :=
  ⟨k.cfg.trans h.cfg, k.owsearch.trans h.owsearch, h.hist.trans k.hist, k.rules.trans h.rules⟩

theorem State.SameOutside.extends {s t : State} (h : s.SameOutside t) : s.Extends t :=
  ⟨h.cfg, h.owsearch, h.hist ▸ List.prefix_refl _, congrArg Env.rules h.env⟩

theorem State.Accessed.extends {s u : State} (a : s.Accessed u) : s.Extends u := by
  obtain ⟨evs, hh, -⟩ := a.events
  exact ⟨a.cfg, a.owsearch, ⟨evs, hh.symm⟩, a.rules⟩

theorem extends_setCmds (s : State) (ws : List CmdWord) : s.Extends (s.setCmds ws) :=
  State.SameOutside.extends ⟨rfl, rfl, rfl, rfl⟩

theorem extends_refuse (r : RefuseReason) (s : State) : s.Extends (refuse r s) :=
  State.SameOutside.extends ⟨rfl, rfl, rfl, rfl⟩

theorem extends_respond (v : Byte) (s : State) : s.Extends (respond v s) :=
  State.SameOutside.extends ⟨rfl, rfl, rfl, rfl⟩

theorem extends_spiIssue (op : SpiOp) (b : Byte) (s : State) : s.Extends (spiIssue op b s) :=
  State.SameOutside.extends ⟨rfl, rfl, rfl, rfl⟩

theorem extends_owIssue (op : OwOp) (operand : Option Byte) (s : State) : s.Extends (owIssue op operand s) :=
  State.SameOutside.extends ⟨rfl, rfl, rfl, rfl⟩

theorem extends_tick (s : State) : s.Extends (tick s) := by
  obtain ⟨u, a, h⟩ := tick_access s
  exact a.extends.trans h.extends

theorem extends_ticks (n : Nat) (s : State) : s.Extends (ticks n s) := by
  induction n generalizing s with
  | zero => exact .refl s
  | succ n ih => exact (extends_tick s).trans (ih (tick s))

theorem CommandResult.extends {s t : State} (c : CommandResult s t) : s.Extends t := by
  cases c with
  | refused r => exact extends_refuse r s
  | answered v a => exact a.extends.trans (extends_respond v _)
  | spi op b => exact (extends_spiIssue op b s).trans (extends_ticks _ _)
  | ow op operand => exact (extends_owIssue op operand s).trans (extends_ticks _ _)

theorem step_extends {s t : State} (h : step s = .next t) : s.Extends t := by
  by_cases hw : s.cfg.WellFormed
  · have result := stepResult hw
    rw [h] at result
    cases result with
    | position => exact extends_tick s
    | waits => exact .refl s
    | command rest c => exact (extends_setCmds s rest).trans c.extends
    | refused rest r => exact (extends_setCmds s rest).trans (extends_refuse r _)
  · obtain ⟨k, hk⟩ := firstFailure_of_not_wellFormed hw
    rw [step_illFormed hk] at h
    cases h

end Sys2Proof.Machine
end

section
/-! SUPPORT. Where one position takes each sequencer: the chain of 42_spi.md R74 and the table of 43_onewire.md R96. -/

namespace Sys2Proof.Machine

/-! ### The SPI chain -/

/-- The phase after a position of a transfer (R74, R83). -/
def spiNextPhase (c : Cfg) (x : SpiState) : SpiPhase :=
  match x.phase with
  | .idle => .idle
  | .selectAsserted => .bitCycle
  | .bitCycle => if x.seq + 1 < spiOffset c + 32 then .bitCycle else if c.spiHasSs then .selectDeasserted else .idle
  | .selectDeasserted => .idle

/-- What a position of a transfer leaves, where `ph` is the phase after it: the next position with the operand kept, and
the response exactly where the chain is at its end (R20, R74). -/
structure SpiFollows (ph : SpiPhase) (s t : State) : Prop where
  seq : t.spi.seq = s.spi.seq + 1
  tx : t.spi.tx = s.spi.tx
  phase : t.spi.phase = ph
  silent : ph ≠ .idle → t.response = s.response
  answered : ph = .idle → t.inflight = none ∧ ∃ v, t.response = some (.ok v)

theorem SpiAccess.follows_advance {s w : State} {ph : SpiPhase} (a : SpiAccess s w) (hp : ph ≠ .idle) :
    SpiFollows ph s (spiAdvance ph w) := by
  obtain ⟨u, rx, access, -, rfl⟩ := a
  exact ⟨rfl, rfl, rfl, fun _ => access.response, fun h => absurd h hp⟩

theorem SpiAccess.follows_finish {s w : State} (op : SpiOp) (a : SpiAccess s w) :
    SpiFollows .idle s (spiFinish op w) := by
  obtain ⟨u, rx, -, -, rfl⟩ := a
  exact ⟨rfl, rfl, rfl, fun h => absurd rfl h, fun _ => ⟨rfl, _, rfl⟩⟩

theorem spiNextPhase_inside {c : Cfg} {x : SpiState} (hp : x.phase = .bitCycle) (hq : x.seq + 1 < spiOffset c + 32) :
    spiNextPhase c x = .bitCycle := by
  simp only [spiNextPhase, hp, if_pos hq]

theorem spiNextPhase_ended {c : Cfg} {x : SpiState} (hp : x.phase = .bitCycle) (hq : x.seq + 1 = spiOffset c + 32) :
    spiNextPhase c x = if c.spiHasSs then .selectDeasserted else .idle := by
  simp only [spiNextPhase, hp, hq, Nat.lt_irrefl, if_false]

/-- The positions of the bit cycles: the four steps of a cycle, the last of which may end the cycles (R75, R83). -/
theorem spiTick_bitCycle_follows (op : SpiOp) {s : State} (hp : s.spi.phase = .bitCycle) (h : SpiAt s.cfg s.spi) :
    SpiFollows (spiNextPhase s.cfg s.spi) s (spiTick op s) := by
  simp only [SpiAt, hp] at h
  have hn : (s.spi.seq - spiOffset s.cfg) % 4 < 4 := Nat.mod_lt _ (by omega)
  simp only [spiTick, hp, low_eq_drive, high_eq_drive, write_eq_drive, read_eq_sample]
  split
  next h0 =>
    rw [spiNextPhase_inside hp (by omega)]
    exact (spiAccess_drive _ _ s).follows_advance nofun
  next h1 =>
    rw [spiNextPhase_inside hp (by omega)]
    exact (spiAccess_drive _ _ s).follows_advance nofun
  next h2 =>
    rw [spiNextPhase_inside hp (by omega)]
    exact (spiAccess_drive _ _ s).follows_advance nofun
  next h0 h1 h2 =>
    change _ ≠ _ at h0 h1 h2
    have ha := spiAccess_receive (s.cfg.slot s.cfg.spiMiso) ((s.spi.seq - spiOffset s.cfg) / 4) s
    split
    next hk =>
      rw [spiNextPhase_inside hp (by omega)]
      exact ha.follows_advance nofun
    next hk =>
      rw [spiNextPhase_ended hp (by omega)]
      split
      next => exact ha.follows_advance nofun
      next => exact ha.follows_finish op

/-- Every position of a transfer goes on to the next phase of the chain (R74). -/
theorem spiTick_follows (op : SpiOp) {s : State} (h : SpiAt s.cfg s.spi) :
    SpiFollows (spiNextPhase s.cfg s.spi) s (spiTick op s) := by
  cases hp : s.spi.phase with
  | idle => exact absurd hp (spiAt_ne_idle h)
  | selectAsserted =>
    simp only [spiTick, spiNextPhase, hp, low_eq_drive]
    exact (spiAccess_drive _ _ s).follows_advance nofun
  | bitCycle => exact spiTick_bitCycle_follows op hp h
  | selectDeasserted =>
    simp only [spiTick, spiNextPhase, hp, high_eq_drive]
    exact (spiAccess_drive _ _ s).follows_finish op

/-! ### The 1-Wire table -/

/-- Where the timing source returns, a position of a 1-Wire command is one access and one advance (R20, R110). -/
theorem owTick_of_returns {op : OwOp} {s : State} (h : OwAt op s.ow) (ht : s.timing.allows 1 = true) :
    ∃ (u : State) (rx : LevelVec), s.Accessed u ∧
      owTick op s = owAdvance op (owSlotLength op) (u.setOw { s.ow with rx := rx }) := by
  have hlt : s.ow.seq < (owSequence op s.cfg s.ow).length := by
    rw [owSequence_length]
    exact ((owAt_iff op s.ow).1 h).2.1
  obtain ⟨u, rx, access, hu⟩ := owPerform_eq op (owSequence op s.cfg s.ow)[s.ow.seq] s
  have hret : u.timing ≠ .hung := by
    rcases access.timing with hc | hc <;> rw [hc]
    · exact Timing.not_hung_of_allows ht
    · exact Timing.call_not_hung ht
  refine ⟨u, rx, access, ?_⟩
  have hb := blocked_eq_false (Timing.not_hung_of_allows ht)
  simp only [owTick, hb, List.getElem?_eq_getElem hlt, hu, owSequence_length, State.setOw_timing, hret, if_false,
    Bool.false_eq_true]

theorem owAdvance_inside (op : OwOp) {len : Nat} (u : State) {x : OwState} (hq : x.seq + 1 < len) :
    owAdvance op len (u.setOw x) = u.setOw { x with seq := x.seq + 1 } :=
  if_pos hq

theorem owAdvance_nextBit {op : OwOp} {len : Nat} (u : State) {x : OwState} (hq : x.seq + 1 = len)
    (hb : op.isByte = true) (hk : x.bitidx + 1 < 8) :
    owAdvance op len (u.setOw x) = u.setOw { x with seq := 0, bitidx := x.bitidx + 1 } :=
  (if_neg (by simp [hq])).trans ((if_pos hb).trans (if_pos hk))

/-- At the end of the last bit-level sequence the command is answered. -/
theorem owAdvance_last {op : OwOp} {len : Nat} (u : State) {x : OwState} (hq : x.seq + 1 = len)
    (hb : op.isByte = true → x.bitidx + 1 = 8) :
    ∃ (v : Byte) (y : OwState), y.phase = .idle ∧ owAdvance op len (u.setOw x) = respond v (u.setOw y) := by
  have hn : ¬ x.seq + 1 < len := by omega
  rw [owAdvance, State.setOw_ow, if_neg hn]
  split
  next hy =>
    rw [if_neg (by simp [hb hy])]
    exact ⟨_, { x with phase := .idle, seq := len, bitidx := 8 }, rfl, rfl⟩
  next => exact ⟨_, { x with phase := .idle, seq := len }, rfl, rfl⟩

/-- No advance touches the operand. -/
theorem owAdvance_tx (op : OwOp) (len : Nat) (s : State) : (owAdvance op len s).ow.tx = s.ow.tx := by
  unfold owAdvance
  split
  · rfl
  · split
    · split <;> rfl
    · rfl

/-- The obligation's words for the commands of three positions a sequence and for the byte commands. -/
theorem owSlotLength_eq (op : OwOp) : (if op = .wbit ∨ op = .wbyte then 3 else 5) = owSlotLength op := by
  cases op <;> rfl

theorem isByte_iff (op : OwOp) : op.isByte = true ↔ op = .wbyte ∨ op = .rbyte := by cases op <;> simp [OwOp.isByte]

/-! ### Accepted engine commands -/

theorem spiCommand_ready {s : State} (op : SpiOp) (b : Byte) (h : s.Ready) (hp : s.cfg.spiPresent = true) :
    spiCommand op b s = .next (ticks (spiLength s.cfg) (spiIssue op b s)) :=
  (accept_ready h _).trans (congrArg _ (if_pos hp))

theorem owCommand_ready {s : State} (op : OwOp) (operand : Option Byte) (h : s.Ready) (hp : s.cfg.owPresent = true) :
    owCommand op operand s = .next (ticks (owLength op) (owIssue op operand s)) :=
  (accept_ready h _).trans (congrArg _ (if_pos hp))

end Sys2Proof.Machine
end

section
/-! SUPPORT. The run of every engine command from its issue to its response: the pseudocode of 42_spi.md R76 and
43_onewire.md R90 to R94, and the registers and the response it leaves. -/

namespace Sys2Proof.Machine

theorem ticks_one (s : State) : ticks 1 s = tick s := rfl

/-! ### SPI -/

/-- Answers after a longer history are answers after more events. -/
theorem AnswersInOrder.prepend {e : PinExpr} {s : State} {evs : List Event} {before : Nat → List Event} {r : LevelVec}
    {last : Env} (h : AnswersInOrder e { s with hist := s.hist ++ evs } before r last) :
    AnswersInOrder e s (fun k => evs ++ before k) r last := by
  obtain ⟨env, h0, h8, ha⟩ := h
  exact ⟨env, h0, h8, fun k hk => by simpa only [List.append_assoc] using ha k hk⟩

/-- Everything `read_write(b)` does (R76, R83). -/
theorem readWrite_eq (b : Byte) (s : State) :
    ∃ (r : LevelVec) (last : Env),
      readWrite b s = (r.map (sampledLevel (s.cfg.slot s.cfg.spiMiso)),
        { s with env := last, hist := s.hist ++ transferEvents s.cfg b r }) ∧
      AnswersInOrder (s.cfg.slot s.cfg.spiMiso) s (eventsBeforeSample s.cfg b r) r last := by
  obtain ⟨r, last, hm, ha⟩ := mapMsb_bitCycle b
    { s with hist := s.hist ++ if s.cfg.spiHasSs then driveEvents (s.cfg.slot s.cfg.spiSs) .low else [] }
  refine ⟨r, last, ?_, ?_⟩
  · cases hs : s.cfg.spiHasSs <;> simp [hs] at hm <;>
      simp [readWrite, transferEvents, hs, low_eq_drive, high_eq_drive, drive_eq, hm]
  · have he : eventsBeforeSample s.cfg b r = _ := funext fun k => List.append_assoc _ _ _
    rw [he]
    exact ha.prepend

/-- Without a select line a transfer is its eight bit cycles (R78). -/
theorem readWrite_of_no_select {s : State} (hs : s.cfg.spiHasSs = false) (b : Byte) :
    readWrite b s = mapMsb b bitCycle s := by
  simp [readWrite, hs]

/-- With a select line a transfer is its eight bit cycles in brackets (R77). -/
theorem readWrite_of_select {s : State} (hs : s.cfg.spiHasSs = true) (b : Byte) :
    readWrite b s =
      ((mapMsb b bitCycle (drive (s.cfg.slot s.cfg.spiSs) .low s)).1,
        drive (s.cfg.slot s.cfg.spiSs) .high (mapMsb b bitCycle (drive (s.cfg.slot s.cfg.spiSs) .low s)).2) := by
  simp [readWrite, hs, low_eq_drive, high_eq_drive]

theorem mapMsb_bitCycle_cfg (b : Byte) (s : State) : (mapMsb b bitCycle s).2.cfg = s.cfg := by
  obtain ⟨r, last, hm, -⟩ := mapMsb_bitCycle b s
  rw [hm]

/-- The position that asserts the select (R74, R83). -/
theorem tick_selectAsserted (op : SpiOp) (b : Byte) {s : State} (hs : s.cfg.spiHasSs = true) :
    tick (spiIssue op b s) = inTransfer op b 1 s.spi.rx (drive (s.cfg.slot s.cfg.spiSs) .low s) := by
  simp [tick, spiTick, spiIssue, inTransfer, hs, State.setSpi, State.setInflight, State.setResponse, spiAdvance_eq,
    low_eq_drive, drive_eq]

/-- The position that releases the select and answers (R74, R83). -/
theorem tick_selectDeasserted (op : SpiOp) (b : Byte) (q : Nat) (rx : LevelVec) (s : State) :
    tick { s with spi := { phase := .selectDeasserted, seq := q, tx := b, rx := rx }, inflight := some (.spi op),
                  response := none } =
      { drive (s.cfg.slot s.cfg.spiSs) .high s with
        spi := { phase := .idle, seq := q + 1, tx := b, rx := rx }, inflight := none,
        response := some (.ok (spiResult op rx)) } := by
  simp [tick, spiTick, spiFinish, spiAdvance_eq, respond, State.setInflight, State.setResponse, high_eq_drive, drive_eq]

/-- The run of an SPI command is `read_write(b)`, the engine `Idle` again and the response given (R76, R85, R86). -/
theorem ticks_spiIssue (op : SpiOp) (b : Byte) (s : State) :
    ticks (spiLength s.cfg) (spiIssue op b s) = { (readWrite b s).2 with
      spi := { phase := .idle, seq := spiLength s.cfg, tx := b, rx := (readWrite b s).1 }, inflight := none,
      response := some (.ok (spiResult op (readWrite b s).1)) } := by
  cases hs : s.cfg.spiHasSs with
  | false =>
    have ho : spiOffset s.cfg = 0 := if_neg (by simp [hs])
    have hl : spiLength s.cfg = 32 := by rw [spiLength, ho]
    have hi : spiIssue op b s = inTransfer op b (spiOffset s.cfg) s.spi.rx s := by
      simp [spiIssue, inTransfer, hs, ho, State.setSpi, State.setInflight, State.setResponse]
    rw [hl, hi, ticks_bitCycles, readWrite_of_no_select hs]
    simp only [hs, ho, Bool.false_eq_true, if_false, Nat.zero_add]
  | true =>
    have ho : spiOffset s.cfg = 1 := if_pos hs
    have hl : spiLength s.cfg = 1 + (32 + 1) := by rw [spiLength, ho]
    have hb := ticks_bitCycles op b s.spi.rx (drive (s.cfg.slot s.cfg.spiSs) .low s)
    simp only [drive_cfg, ho, hs, if_true] at hb
    have hc := (mapMsb_bitCycle_cfg b (drive (s.cfg.slot s.cfg.spiSs) .low s)).trans (drive_cfg _ _ s)
    rw [hl, ticks_add, ticks_add, ticks_one, ticks_one, tick_selectAsserted op b hs, hb, tick_selectDeasserted, hc,
      readWrite_of_select hs]

/-! ### 1-Wire, one bit-level sequence -/

/-- A state after a command of one bit-level sequence, with the registers `x` but for the phase. -/
def afterOnce (op : OwOp) (x : OwState) (s : State) : State :=
  { s with ow := { x with phase := .idle }, inflight := none, response := some (.ok (owResult op s.cfg x.rx)) }

theorem owIssue_eq (op : OwOp) (operand : Option Byte) (s : State) :
    owIssue op operand s = { s with
      ow := { s.ow with phase := owPhaseOf op, seq := 0, bitidx := if op.isByte then 0 else s.ow.bitidx,
                        tx := operand.getD s.ow.tx },
      inflight := some (.ow op), response := none } := rfl

/-- The run of `OW.RESET`, where the timing source returns from its two calls (R90, R97). -/
theorem ticks_owIssue_reset {s : State} (ht : s.timing.allows 2 = true) :
    ticks (owLength .reset) (owIssue .reset none s) =
      afterOnce .reset { s.ow with seq := 5, rx := s.ow.rx.setIfInBounds 0 (owReset s).1 } (owReset s).2 := by
  refine (ticks_resetSlot (owIssue .reset none s) rfl rfl ht).trans ?_
  rw [owIssue_eq, owReset_over]
  rfl

/-- The run of `OW.WBIT`, where the timing source returns from its call (R92, R98). -/
theorem ticks_owIssue_wbit {s : State} (l : Level) (ht : s.timing.allows 1 = true) :
    ticks (owLength .wbit) (owIssue .wbit (some (byteOfLevel l)) s) =
      afterOnce .wbit { s.ow with seq := 3, tx := byteOfLevel l } (writeBit l s) := by
  have ha : owSequence .wbit s.cfg (owIssue .wbit (some (byteOfLevel l)) s).ow = owWriteSequence s.cfg.owClass l :=
    congrArg (owWriteSequence s.cfg.owClass) (levelOfByte_byteOfLevel l)
  refine (ticks_writeSlot .wbit l (owIssue .wbit (some (byteOfLevel l)) s) rfl rfl ha ht).trans ?_
  rw [owIssue_eq, writeBit_over]
  rfl

/-- The run of `OW.RBIT`, where the timing source returns from its two calls (R93, R99). -/
theorem ticks_owIssue_rbit {s : State} (ht : s.timing.allows 2 = true) :
    ticks (owLength .rbit) (owIssue .rbit none s) =
      afterOnce .rbit { s.ow with seq := 5, rx := s.ow.rx.setIfInBounds 0 (readBit s).1 } (readBit s).2 := by
  refine (ticks_readSlot .rbit (owIssue .rbit none s) rfl rfl rfl ht).trans ?_
  rw [owIssue_eq, readBit_over]
  rfl

/-! ### 1-Wire, the eight bits of a byte -/

theorem Timing.allows_mono {m n : Nat} {t : Timing} (hmn : m ≤ n) (h : t.allows n = true) : t.allows m = true := by
  cases t with
  | returns => rfl
  | hangsAfter k =>
    simp only [Timing.allows, decide_eq_true_eq] at h ⊢
    omega
  | hung => simp [Timing.allows] at h

/-- Eight runs of `n` positions, one for each level of a vector, are the ordered transform of what one of them does
(R68, R94). `P k` is the state before bit `k`, with the levels received so far; `put` receives a level; `I k` is what
bit `k` needs. -/
theorem ticks_mapLevels {α : Type} (n : Nat) (v : LevelVec) (f : Level → State → α × State)
    (put : Nat → α → LevelVec → LevelVec) (P : Nat → LevelVec → State → State) (I : Nat → State → Prop)
    (keeps : ∀ k, k < 8 → ∀ t, I k t → I (k + 1) (f (levelAt v k) t).2)
    (runs : ∀ k, k < 8 → ∀ t, I k t → ∀ rx,
      ticks n (P k rx t) = P (k + 1) (put k (f (levelAt v k) t).1 rx) (f (levelAt v k) t).2)
    (rx : LevelVec) {s : State} (i0 : I 0 s) :
    ticks (n + (n + (n + (n + (n + (n + (n + n))))))) (P 0 rx s) =
      P 8 (put 7 (mapLevels v f s).1[7] (put 6 (mapLevels v f s).1[6] (put 5 (mapLevels v f s).1[5]
        (put 4 (mapLevels v f s).1[4] (put 3 (mapLevels v f s).1[3] (put 2 (mapLevels v f s).1[2]
          (put 1 (mapLevels v f s).1[1] (put 0 (mapLevels v f s).1[0] rx)))))))) (mapLevels v f s).2 := by
  have i1 := keeps 0 (by omega) s i0
  have i2 := keeps 1 (by omega) _ i1
  have i3 := keeps 2 (by omega) _ i2
  have i4 := keeps 3 (by omega) _ i3
  have i5 := keeps 4 (by omega) _ i4
  have i6 := keeps 5 (by omega) _ i5
  have i7 := keeps 6 (by omega) _ i6
  rw [ticks_add, runs 0 (by omega) s i0, ticks_add, runs 1 (by omega) _ i1, ticks_add, runs 2 (by omega) _ i2,
    ticks_add, runs 3 (by omega) _ i3, ticks_add, runs 4 (by omega) _ i4, ticks_add, runs 5 (by omega) _ i5,
    ticks_add, runs 6 (by omega) _ i6, runs 7 (by omega) _ i7]
  rfl

/-- A level vector is the vector of its eight elements. -/
theorem levelVec_eta : ∀ v : LevelVec, #v[v[0], v[1], v[2], v[3], v[4], v[5], v[6], v[7]] = v := by
  rw [LevelVec.forall_iff]
  intros
  rfl

/-- A state before bit `k` of a byte command with operand `b`, or after the command where no bit is left. -/
def beforeBit (op : OwOp) (b : Byte) (k : Nat) (rx : LevelVec) (s : State) : State :=
  if k < 8 then inByte op k b rx s else afterByte op (owSlotLength op) b rx s

/-- Before bit `k + 1`, in the words of the one-bit lemmas. -/
theorem beforeBit_succ (op : OwOp) (b : Byte) (k : Nat) (rx : LevelVec) (s : State) :
    beforeBit op b (k + 1) rx s =
      if k < 7 then inByte op (k + 1) b rx s else afterByte op (owSlotLength op) b rx s := by
  simp only [beforeBit, show k + 1 < 8 ↔ k < 7 by omega]

theorem writeBit_timing (l : Level) (s : State) : (writeBit l s).timing = s.timing.call := by rw [writeBit_eq]

theorem writeBit_cfg (l : Level) (s : State) : (writeBit l s).cfg = s.cfg := by rw [writeBit_eq]

theorem readBit_timing (s : State) : (readBit s).2.timing = s.timing.call.call := by rw [readBit_eq]

/-- The run of `OW.WBYTE` is `write_byte(b)`, where the timing source returns from its eight calls (R94, R100). -/
theorem ticks_owIssue_wbyte {s : State} (b : Byte) (ht : s.timing.allows 8 = true) :
    ticks (owLength .wbyte) (owIssue .wbyte (some b) s) = afterByte .wbyte 3 b s.ow.rx (writeByte b s) := by
  refine Eq.trans (congrArg (ticks _) ?_) <| (ticks_mapLevels 3 (decompose s.cfg.owByteOrder b)
    (fun l t => ((), writeBit l t)) (fun _ _ rx => rx) (beforeBit .wbyte b)
    (fun k t => t.cfg = s.cfg ∧ t.timing.allows (8 - k) = true) ?_ ?_ s.ow.rx ⟨rfl, ht⟩).trans ?_
  · rfl
  · rintro k hk t ⟨hc, ha⟩
    have hs : 8 - k = 8 - (k + 1) + 1 := by omega
    rw [writeBit_cfg, writeBit_timing]
    exact ⟨hc, Timing.allows_call (hs ▸ ha)⟩
  · rintro k hk t ⟨hc, ha⟩ rx
    rw [beforeBit_succ, beforeBit, if_pos hk, ticks_writeByteBit k b rx t (Timing.allows_mono (by omega) ha), hc]
    rfl
  · rfl

/-- The run of `OW.RBYTE` is `read_byte()`, where the timing source returns from its sixteen calls (R94, R101). -/
theorem ticks_owIssue_rbyte {s : State} (ht : s.timing.allows 16 = true) :
    ticks (owLength .rbyte) (owIssue .rbyte none s) = afterByte .rbyte 5 s.ow.tx (readByte s).1 (readByte s).2 := by
  refine Eq.trans (congrArg (ticks _) ?_) <| (ticks_mapLevels 5 (decompose s.cfg.owByteOrder 0) (fun _ t => readBit t)
    (fun k l rx => rx.setIfInBounds k l) (beforeBit .rbyte s.ow.tx)
    (fun k t => t.timing.allows (2 * (8 - k)) = true) ?_ ?_ s.ow.rx ht).trans ?_
  · rfl
  · intro k hk t ha
    have hs : 2 * (8 - k) = 2 * (8 - (k + 1)) + 1 + 1 := by omega
    rw [readBit_timing]
    exact Timing.allows_call (Timing.allows_call (hs ▸ ha))
  · intro k hk t ha rx
    rw [beforeBit_succ, beforeBit, if_pos hk, ticks_readByteBit k s.ow.tx rx t (Timing.allows_mono (by omega) ha)]
    rfl
  · rw [setIfInBounds_all, levelVec_eta]
    exact if_neg (Nat.lt_irrefl 8)

/-- Element `k` of a decomposition is the bit its slot carries (R28, R94). -/
theorem levelAt_decompose (o : BitOrder) (b : Byte) {k : Nat} (hk : k < 8) :
    levelAt (decompose o b) k = bitLevel b (bitOfSlot o k) := by
  cases o <;> interval_cases k <;> rfl

/-- Everything `write_byte(b)` does (R94). -/
theorem writeByte_eq (b : Byte) (s : State) :
    writeByte b s = { s with
      hist := s.hist ++
        (List.range 8).flatMap (fun k => writeBitEvents s.cfg (bitLevel b (bitOfSlot s.cfg.owByteOrder k)))
      timing := Timing.call^[8] s.timing } := by
  rw [List.flatMap_congr fun k hk => by rw [← levelAt_decompose _ _ (List.mem_range.1 hk)]]
  simp [writeByte, mapLevels, writeBit_eq, List.range, List.range.loop, levelAt]

end Sys2Proof.Machine
end

section
/-! SUPPORT. The frames: what a command leaves as it was, and the ports its events are on (10_state.md R18). -/

namespace Sys2Proof.Machine

/-! ### The environment and the events of an access -/

/-- No sample adds to the script of the environment (R26). -/
theorem Env.answer_script (e : Env) (h : List Event) (p : Port) : (e.answer h p).2.script <:+ e.script := by
  unfold Env.answer
  split
  · exact List.suffix_refl _
  · split
    next l rest hs => exact hs ▸ List.suffix_cons l rest
    next => exact List.suffix_refl _

theorem envAfter_script (e : PinExpr) (s : State) : (envAfter e s).script <:+ s.env.script := by
  unfold envAfter
  split
  · exact Env.answer_script _ _ _
  · exact List.suffix_refl _

/-- Samples in order keep the environment's rules and add nothing to its script. -/
theorem AnswersInOrder.env_kept {e : PinExpr} {s : State} {before : Nat → List Event} {r : LevelVec} {last : Env}
    (h : AnswersInOrder e s before r last) : last.rules = s.env.rules ∧ last.script <:+ s.env.script := by
  obtain ⟨env, h0, rfl, ha⟩ := h
  have key : ∀ k, k ≤ 8 → (env k).rules = s.env.rules ∧ (env k).script <:+ s.env.script := by
    intro k hk
    induction k with
    | zero => exact h0 ▸ ⟨rfl, List.suffix_refl _⟩
    | succ k ih =>
      obtain ⟨hr, hs⟩ := ih (by omega)
      rw [(ha k hk).2]
      exact ⟨(envAfter_rules _ _).trans hr, (envAfter_script _ _).trans hs⟩
  exact key 8 (Nat.le_refl 8)

/-- The events of a drive are on the expression's own port. -/
theorem onPort_of_mem_driveEvents {e : PinExpr} {l : Level} {ev : Event} (h : ev ∈ driveEvents e l) :
    ∃ p, Event.onPort ev = some p ∧ e.port? = some p := by
  unfold driveEvents at h
  split at h
  next p hp => exact ⟨p, List.mem_singleton.1 h ▸ rfl, hp⟩
  next => cases h

/-- The events of a sample are on the expression's own port. -/
theorem onPort_of_mem_sampleEvents {e : PinExpr} {l : Level} {ev : Event} (h : ev ∈ sampleEvents e l) :
    ∃ p, Event.onPort ev = some p ∧ e.port? = some p := by
  unfold sampleEvents at h
  split at h
  next p hp => exact ⟨p, List.mem_singleton.1 h ▸ rfl, hp⟩
  next => cases h

theorem driveEvents_length_le (e : PinExpr) (l : Level) : (driveEvents e l).length ≤ 1 := by
  unfold driveEvents
  split <;> simp

theorem sampleEvents_length_le (e : PinExpr) (l : Level) : (sampleEvents e l).length ≤ 1 := by
  unfold sampleEvents
  split <;> simp

/-! ### The PIN commands -/

/-- A command on a pin that answers a next state was refused, or did what it does with the slot's pin expression. -/
theorem pinCommand_next {slot : Nat} {need : Cap} {act : PinExpr → State → State} {s t : State}
    (h : pinCommand slot need act s = .next t) : (∃ r, t = refuse r s) ∨ t = act (s.cfg.slot slot) s := by
  obtain ⟨-, ht⟩ := accept_next h
  rcases checkPin_cases s.cfg slot need with ⟨-, hc⟩ | ⟨-, -, hc⟩ | ⟨-, -, -, hc⟩ | ⟨-, -, -, hc⟩ <;> rw [hc] at ht
  · exact .inl ⟨_, ht⟩
  · exact .inl ⟨_, ht⟩
  · exact .inl ⟨_, ht⟩
  · exact .inr ht

/-- What a command on the pin expression `e` leaves as it was in `s`, and where its event is. -/
structure PinFrame (e : PinExpr) (need : Cap) (s t : State) : Prop where
  cfg : t.cfg = s.cfg
  spi : t.spi = s.spi
  ow : t.ow = s.ow
  owsearch : t.owsearch = s.owsearch
  cmds : t.cmds = s.cmds
  timing : t.timing = s.timing
  inflight : t.inflight = s.inflight ∨ t.inflight = none
  rules : t.env.rules = s.env.rules
  script : t.env.script <:+ s.env.script
  drive_env : need = .out → t.env = s.env
  events : ∃ evs : List Event, t.hist = s.hist ++ evs ∧ evs.length ≤ 1 ∧
    ∀ ev ∈ evs, ∃ p, Event.onPort ev = some p ∧ e.port? = some p

theorem PinFrame.refl (e : PinExpr) (need : Cap) (s : State) : PinFrame e need s s where
  cfg := rfl
  spi := rfl
  ow := rfl
  owsearch := rfl
  cmds := rfl
  timing := rfl
  inflight := .inl rfl
  rules := rfl
  script := List.suffix_refl _
  drive_env := fun _ => rfl
  events := ⟨[], by simp⟩

theorem pinFrame_refuse (e : PinExpr) (need : Cap) (r : RefuseReason) (s : State) : PinFrame e need s (refuse r s) :=
  { PinFrame.refl e need s with }

theorem pinFrame_drive (e : PinExpr) (need : Cap) (l : Level) (v : Byte) (s : State) :
    PinFrame e need s (respond v (drive e l s)) := by
  rw [drive_eq]
  exact { PinFrame.refl e need s with
    inflight := .inr rfl
    events := ⟨driveEvents e l, rfl, driveEvents_length_le e l, fun _ => onPort_of_mem_driveEvents⟩ }

theorem pinFrame_sample (e : PinExpr) (v : Byte) (s : State) : PinFrame e .inp s (respond v (sample e s).2) := by
  rw [sample_eq]
  exact { PinFrame.refl e .inp s with
    inflight := .inr rfl
    rules := envAfter_rules e s
    script := envAfter_script e s
    drive_env := nofun
    events := ⟨_, rfl, sampleEvents_length_le e _, fun _ => onPort_of_mem_sampleEvents⟩ }

theorem pinFrame_pinCommand {slot : Nat} {need : Cap} {act : PinExpr → State → State} {s t : State}
    (hact : PinFrame (s.cfg.slot slot) need s (act (s.cfg.slot slot) s)) (h : pinCommand slot need act s = .next t) :
    PinFrame (s.cfg.slot slot) need s t := by
  rcases pinCommand_next h with ⟨r, rfl⟩ | rfl
  · exact pinFrame_refuse _ need r s
  · exact hact

theorem exec_pinHigh (slot : Nat) (s : State) :
    exec (.pinHigh slot) s = pinCommand slot .out (fun e s => respond noResult (drive e .high s)) s := rfl

theorem exec_pinLow (slot : Nat) (s : State) :
    exec (.pinLow slot) s = pinCommand slot .out (fun e s => respond noResult (drive e .low s)) s := rfl

theorem exec_pinWrite (slot : Nat) (l : Level) (s : State) :
    exec (.pinWrite slot l) s = pinCommand slot .out (fun e s => respond noResult (drive e l s)) s := by
  simp only [← write_eq_drive]
  rfl

theorem exec_pinRead (slot : Nat) (s : State) :
    exec (.pinRead slot) s =
      pinCommand slot .inp (fun e s => respond (byteOfLevel (sample e s).1) (sample e s).2) s := rfl

theorem pinFrame_exec {i : Instr} {slot : Nat} {need : Cap} {s t : State} (hi : IsPin i slot need)
    (h : exec i s = .next t) : PinFrame (s.cfg.slot slot) need s t := by
  cases hi with
  | high =>
    rw [exec_pinHigh] at h
    exact pinFrame_pinCommand (pinFrame_drive _ _ .high _ s) h
  | low =>
    rw [exec_pinLow] at h
    exact pinFrame_pinCommand (pinFrame_drive _ _ .low _ s) h
  | write _ l =>
    rw [exec_pinWrite] at h
    exact pinFrame_pinCommand (pinFrame_drive _ _ l _ s) h
  | read =>
    rw [exec_pinRead] at h
    exact pinFrame_pinCommand (pinFrame_sample _ _ s) h

/-! ### The SPI commands -/

theorem mem_portsOf {c : Cfg} {slots : List Nat} {n : Nat} {p : Port} (hn : n ∈ slots)
    (hp : (c.slot n).port? = some p) : p ∈ portsOf c slots :=
  List.mem_filterMap.2 ⟨n, hn, hp⟩

/-- The events of a transfer are on the ports of the engine's roles (R13, R18, R83). -/
theorem onPort_of_mem_transferEvents {c : Cfg} (hp : c.spiPresent = true) {b : Byte} {r : LevelVec} {ev : Event}
    (h : ev ∈ transferEvents c b r) : ∃ p, Event.onPort ev = some p ∧ p ∈ portsOf c c.spiRoles := by
  have drives : ∀ {n l}, n ∈ c.spiRoles → ev ∈ driveEvents (c.slot n) l →
      ∃ p, Event.onPort ev = some p ∧ p ∈ portsOf c c.spiRoles := fun hn hev => by
    obtain ⟨p, ho, hq⟩ := onPort_of_mem_driveEvents hev
    exact ⟨p, ho, mem_portsOf hn hq⟩
  have hclk : c.spiClk ∈ c.spiRoles := by simp [Cfg.spiRoles, hp]
  have hmosi : c.spiMosi ∈ c.spiRoles := by simp [Cfg.spiRoles, hp]
  have hmiso : c.spiMiso ∈ c.spiRoles := by simp [Cfg.spiRoles, hp]
  have hss : ∀ {l}, ev ∈ (if c.spiHasSs then driveEvents (c.slot c.spiSs) l else []) →
      ∃ p, Event.onPort ev = some p ∧ p ∈ portsOf c c.spiRoles := fun hev => by
    split at hev
    next hs => exact drives (by simp [Cfg.spiRoles, hp, hs]) hev
    next => cases hev
  simp only [transferEvents, bitCycleEvents, List.mem_append, List.mem_flatMap] at h
  rcases h with (h | ⟨k, -, ((h | h) | h) | h⟩) | h
  · exact hss h
  · exact drives hclk h
  · exact drives hmosi h
  · exact drives hclk h
  · obtain ⟨p, ho, hq⟩ := onPort_of_mem_sampleEvents h
    exact ⟨p, ho, mem_portsOf hmiso hq⟩
  · exact hss h

/-- What an SPI command leaves: a refusal without an engine, else a transfer's events and the environment after its
samples; of the other fields, the engine's own and the port's alone have moved. -/
theorem spiCommand_next {op : SpiOp} {b : Byte} {s t : State} (h : spiCommand op b s = .next t) :
    (s.cfg.spiPresent = false ∧ t = refuse .noEngine s) ∨
    (s.cfg.spiPresent = true ∧ ∃ (r : LevelVec) (last : Env) (x : SpiState) (p : Response),
      AnswersInOrder (s.cfg.slot s.cfg.spiMiso) s (eventsBeforeSample s.cfg b r) r last ∧
      t = { s with spi := x, inflight := none, response := some p, env := last,
                   hist := s.hist ++ transferEvents s.cfg b r }) := by
  obtain ⟨-, ht⟩ := accept_next h
  split at ht
  next hp =>
    obtain ⟨r, last, hr, ha⟩ := readWrite_eq b s
    rw [ticks_spiIssue, hr] at ht
    exact .inr ⟨hp, r, last, _, _, ha, ht⟩
  next hp => exact .inl ⟨by simpa using hp, ht⟩

/-! ### The 1-Wire commands -/

/-- An event of the 1-Wire engine: a delay of one of the four durations, or an access of the line's own port. -/
def OnLine (c : Cfg) (ev : Event) : Prop :=
  (∃ us, ev = .delay us ∧ us ∈ c.durations) ∨ ∃ p, Event.onPort ev = some p ∧ (c.slot c.owLine).port? = some p

/-- What the positions of a 1-Wire command leave as it was in `s`, and which events they add. -/
structure OwFrame (s t : State) : Prop where
  cfg : t.cfg = s.cfg
  spi : t.spi = s.spi
  owsearch : t.owsearch = s.owsearch
  cmds : t.cmds = s.cmds
  inflight : t.inflight = s.inflight ∨ t.inflight = none
  rules : t.env.rules = s.env.rules
  script : t.env.script <:+ s.env.script
  events : ∃ evs : List Event, t.hist = s.hist ++ evs ∧ ∀ ev ∈ evs, OnLine s.cfg ev

theorem OwFrame.refl (s : State) : OwFrame s s where
  cfg := rfl
  spi := rfl
  owsearch := rfl
  cmds := rfl
  inflight := .inl rfl
  rules := rfl
  script := List.suffix_refl _
  events := ⟨[], by simp⟩

theorem OwFrame.trans {s t u : State} (h : OwFrame s t) (k : OwFrame t u) : OwFrame s u where
  cfg := k.cfg.trans h.cfg
  spi := k.spi.trans h.spi
  owsearch := k.owsearch.trans h.owsearch
  cmds := k.cmds.trans h.cmds
  inflight := k.inflight.elim (fun e => e ▸ h.inflight) .inr
  rules := k.rules.trans h.rules
  script := k.script.trans h.script
  events := by
    obtain ⟨evs, hh, he⟩ := h.events
    obtain ⟨fvs, kh, ke⟩ := k.events
    refine ⟨evs ++ fvs, by rw [kh, hh, List.append_assoc], fun ev hev => ?_⟩
    exact (List.mem_append.1 hev).elim (he ev) fun hf => h.cfg ▸ ke ev hf

theorem owFrame_drive (l : Level) (s : State) : OwFrame s (drive (s.cfg.slot s.cfg.owLine) l s) := by
  rw [drive_eq]
  exact { OwFrame.refl s with events := ⟨_, rfl, fun _ h => .inr (onPort_of_mem_driveEvents h)⟩ }

theorem owFrame_delay (c : TimeClass) (s : State) : OwFrame s (delay c s) :=
  { OwFrame.refl s with
    events := ⟨[.delay (s.cfg.duration c)], rfl, fun _ h =>
      .inl ⟨_, List.mem_singleton.1 h, duration_mem s.cfg c⟩⟩ }

theorem owFrame_sample (s : State) : OwFrame s (sample (s.cfg.slot s.cfg.owLine) s).2 := by
  rw [sample_eq]
  exact { OwFrame.refl s with
    rules := envAfter_rules _ s
    script := envAfter_script _ s
    events := ⟨_, rfl, fun _ h => .inr (onPort_of_mem_sampleEvents h)⟩ }

theorem owFrame_setOw (x : OwState) (s : State) : OwFrame s (s.setOw x) := { OwFrame.refl s with }

theorem owFrame_respond (v : Byte) (s : State) : OwFrame s (respond v s) :=
  { OwFrame.refl s with inflight := .inr rfl }

theorem owFrame_owPerform (op : OwOp) (a : OwAction) (s : State) : OwFrame s (owPerform op a s) := by
  cases a with
  | pull => exact owFrame_drive .low s
  | release => exact owFrame_drive .high s
  | hold c => exact owFrame_delay c s
  | sample => exact (owFrame_sample s).trans (owFrame_setOw _ _)

theorem owFrame_owFinish (op : OwOp) (s : State) : OwFrame s (owFinish op s) :=
  (owFrame_setOw _ s).trans (owFrame_respond _ _)

theorem owFrame_owAdvance (op : OwOp) (len : Nat) (s : State) : OwFrame s (owAdvance op len s) := by
  unfold owAdvance
  split
  · exact owFrame_setOw _ s
  · split
    · split
      · exact owFrame_setOw _ s
      · exact (owFrame_setOw _ s).trans (owFrame_owFinish op _)
    · exact (owFrame_setOw _ s).trans (owFrame_owFinish op _)

theorem owFrame_owTick (op : OwOp) (s : State) : OwFrame s (owTick op s) := by
  unfold owTick
  split
  · exact .refl s
  · split
    · exact .refl s
    next a _ =>
      dsimp only
      split
      · exact owFrame_owPerform op a s
      · exact (owFrame_owPerform op a s).trans (owFrame_owAdvance op _ _)

/-- The run of a 1-Wire command, whether or not it comes to its response (R118). -/
theorem owFrame_ticks (n : Nat) {op : OwOp} {s : State} (hi : s.inflight = some (.ow op) ∨ s.inflight = none) :
    OwFrame s (ticks n s) := by
  induction n generalizing s with
  | zero => exact .refl s
  | succ n ih =>
    rcases hi with hi | hi
    · have h := owFrame_owTick op s
      rw [ticks, tick_ow hi]
      exact h.trans (ih (h.inflight.imp_left fun e => e.trans hi))
    · rw [ticks, tick_of_none hi]
      exact ih (.inr hi)

/-- What a 1-Wire command leaves: a refusal without an engine, else the run of the sequencer from the issue. -/
theorem owCommand_next {op : OwOp} {operand : Option Byte} {s t : State} (h : owCommand op operand s = .next t) :
    (s.cfg.owPresent = false ∧ t = refuse .noEngine s) ∨
    (s.cfg.owPresent = true ∧ t = ticks (owLength op) (owIssue op operand s)) := by
  obtain ⟨-, ht⟩ := accept_next h
  split at ht
  next hp => exact .inr ⟨hp, ht⟩
  next hp => exact .inl ⟨by simpa using hp, ht⟩

/-- Each command of the SPI engine is one of its operations on a byte (R85, R86). -/
theorem exec_isSpi {i : Instr} (hi : IsSpi i) : ∃ op b, ∀ s, exec i s = spiCommand op b s := by
  cases hi with
  | xfer b => exact ⟨.xfer, b, fun _ => rfl⟩
  | write b => exact ⟨.write, b, fun _ => rfl⟩

/-- Each command of the 1-Wire engine is one of its operations with or without an operand (R97 to R101). -/
theorem exec_isOw {i : Instr} {d : Nat} (hi : IsOw i d) : ∃ op operand, ∀ s, exec i s = owCommand op operand s := by
  cases hi with
  | reset => exact ⟨.reset, none, fun _ => rfl⟩
  | wbit l => exact ⟨.wbit, some (byteOfLevel l), fun _ => rfl⟩
  | rbit => exact ⟨.rbit, none, fun _ => rfl⟩
  | wbyte b => exact ⟨.wbyte, some b, fun _ => rfl⟩
  | rbyte => exact ⟨.rbyte, none, fun _ => rfl⟩

end Sys2Proof.Machine
end

section
/-! SUPPORT. Where no rule of the environment reads the history, what a command does is determined by the configuration
and the script (10_state.md R14, R16; 43_onewire.md R87). -/

namespace Sys2Proof.Machine

/-- Without rules the answer to a sample is the script's first one, whatever the history (R26; log entry 4). -/
theorem Env.answer_scripted {e : Env} {l : Level} {rest : List Level} (hr : e.rules = []) (hs : e.script = l :: rest)
    (h : List Event) (p : Port) : e.answer h p = (l, { e with script := rest }) := by
  simp [Env.answer, hr, hs]

/-- One sample in two states with the same configuration and script. -/
theorem leafAnswer_scripted (e : PinExpr) {s t : State} (hc : s.cfg = t.cfg) (he : s.env = t.env)
    (hr : s.env.rules = []) (hs : s.env.script ≠ []) :
    leafAnswer e s = leafAnswer e t ∧ envAfter e s = envAfter e t := by
  obtain ⟨l, rest, hl⟩ := List.exists_cons_of_ne_nil hs
  have ha := Env.answer_scripted hr hl
  constructor
  · simp only [leafAnswer, ← he, ← hc, ha]
  · simp only [envAfter, ← he, ha]

/-- A sample takes one answer of the script at most. -/
theorem envAfter_script_length (e : PinExpr) (s : State) :
    s.env.script.length ≤ (envAfter e s).script.length + 1 := by
  unfold envAfter
  split
  next p _ =>
    unfold Env.answer
    split
    · exact Nat.le_succ _
    · split
      next hs => simp [hs]
      next => exact Nat.le_succ _
  next => exact Nat.le_succ _

/-- Eight samples in order in two states with the same configuration and a script of eight answers: the same levels,
and the same environment after them. -/
theorem AnswersInOrder.unique {e : PinExpr} {s t : State} {before before' : Nat → List Event} {r r' : LevelVec}
    {last last' : Env} (hc : s.cfg = t.cfg) (he : s.env = t.env) (hr : s.env.rules = [])
    (hs : 8 ≤ s.env.script.length) (h : AnswersInOrder e s before r last) (h' : AnswersInOrder e t before' r' last') :
    r = r' ∧ last = last' := by
  obtain ⟨env, h0, rfl, ha⟩ := h
  obtain ⟨env', h0', rfl, ha'⟩ := h'
  have same : ∀ k, env k = env' k → (env k).rules = [] → 0 < (env k).script.length →
      leafAnswer e { s with hist := s.hist ++ before k, env := env k } =
          leafAnswer e { t with hist := t.hist ++ before' k, env := env' k } ∧
        envAfter e { s with hist := s.hist ++ before k, env := env k } =
          envAfter e { t with hist := t.hist ++ before' k, env := env' k } :=
    fun k he hr hs => leafAnswer_scripted e hc he hr (List.ne_nil_of_length_pos hs)
  have key : ∀ k, k ≤ 8 → env k = env' k ∧ (env k).rules = [] ∧ 8 ≤ (env k).script.length + k := by
    intro k hk
    induction k with
    | zero =>
      rw [h0, h0']
      exact ⟨he, hr, hs⟩
    | succ k ih =>
      obtain ⟨hek, hrk, hsk⟩ := ih (by omega)
      have hl : (env k).script.length ≤ _ := envAfter_script_length e { s with hist := s.hist ++ before k, env := env k }
      rw [(ha k hk).2, (ha' k hk).2]
      exact ⟨(same k hek hrk (by omega)).2, (envAfter_rules _ _).trans hrk, by omega⟩
  refine ⟨Vector.ext fun k hk => ?_, (key 8 (Nat.le_refl 8)).1⟩
  obtain ⟨hek, hrk, hsk⟩ := key k (by omega)
  rw [(ha k hk).1, (ha' k hk).1]
  exact (same k hek hrk (by omega)).1

/-! ### Two runs of one command -/

/-- Two ready states that agree in all a command may depend on: the configuration, and a script of answers long enough
for it; their timing sources return. -/
structure Alike (s t : State) : Prop where
  ready : s.Ready
  ready' : t.Ready
  cfg : s.cfg = t.cfg
  env : s.env = t.env
  rules : s.env.rules = []
  script : 8 ≤ s.env.script.length
  returns : s.timing = .returns
  returns' : t.timing = .returns

/-- `u` after `s` and `v` after `t` show the same: the same new events, response and environment. -/
structure SameRun (s t u v : State) : Prop where
  events : ∃ evs : List Event, u.hist = s.hist ++ evs ∧ v.hist = t.hist ++ evs
  response : u.response = v.response
  env : u.env = v.env

/-- `a` after `s` and `b` after `t` show the same: the same level read, the same new events and environment. -/
structure SameRead (s t : State) (a b : Level × State) : Prop where
  level : a.1 = b.1
  events : ∃ evs : List Event, a.2.hist = s.hist ++ evs ∧ b.2.hist = t.hist ++ evs
  env : a.2.env = b.2.env

/-- Two outcomes are next states that show the same. -/
def SameOutcome (s t : State) (o p : Host.Outcome State Fault Refusal) : Prop :=
  ∃ u v, o = .next u ∧ p = .next v ∧ SameRun s t u v

section
variable {s t : State} (h : Alike s t)
include h

theorem Alike.script_ne_nil : s.env.script ≠ [] := List.ne_nil_of_length_pos (by have := h.script; omega)

theorem Alike.allows (d : Nat) : s.timing.allows d = true := by rw [h.returns]; rfl

theorem Alike.allows' (d : Nat) : t.timing.allows d = true := by rw [h.returns']; rfl

/-- One sample, after whatever events. -/
theorem Alike.leafAnswer (e : PinExpr) (hist hist' : List Event) :
    leafAnswer e { s with hist := hist } = leafAnswer e { t with hist := hist' } ∧
      envAfter e { s with hist := hist } = envAfter e { t with hist := hist' } :=
  leafAnswer_scripted e h.cfg h.env h.rules h.script_ne_nil

theorem Alike.accept {body : State → State} (hb : SameRun s t (body s) (body t)) :
    SameOutcome s t (accept s body) (accept t body) :=
  ⟨_, _, accept_ready h.ready body, accept_ready h.ready' body, hb⟩

theorem Alike.refuse (r : RefuseReason) : SameRun s t (refuse r s) (refuse r t) := ⟨⟨[], by simp⟩, rfl, h.env⟩

theorem Alike.respond (v : Byte) : SameRun s t (respond v s) (respond v t) := ⟨⟨[], by simp⟩, rfl, h.env⟩

theorem Alike.drive (e : PinExpr) (l : Level) (v : Byte) :
    SameRun s t (Machine.respond v (drive e l s)) (Machine.respond v (drive e l t)) :=
  ⟨⟨driveEvents e l, drive_hist e l s, drive_hist e l t⟩, rfl, by simp [h.env]⟩

theorem Alike.sample (e : PinExpr) :
    SameRun s t (Machine.respond (byteOfLevel (sample e s).1) (sample e s).2)
      (Machine.respond (byteOfLevel (sample e t).1) (sample e t).2) := by
  obtain ⟨hl, he⟩ := h.leafAnswer e s.hist t.hist
  refine ⟨⟨sampleEvents e (Machine.leafAnswer e s), sample_hist e s, ?_⟩, ?_, ?_⟩
  · rw [hl]
    exact sample_hist e t
  · simp only [respond_response, sample_level]
    rw [hl]
  · simpa only [respond_env, sample_env] using he

theorem Alike.pinCommand {slot : Nat} {need : Cap} {act : PinExpr → State → State}
    (hact : ∀ e, SameRun s t (act e s) (act e t)) :
    SameOutcome s t (pinCommand slot need act s) (pinCommand slot need act t) := by
  refine h.accept ?_
  rw [← h.cfg]
  cases checkPin s.cfg slot need with
  | ok e => exact hact e
  | error r => exact h.refuse r

theorem Alike.spiCommand (op : SpiOp) (b : Byte) :
    SameOutcome s t (spiCommand op b s) (spiCommand op b t) := by
  refine h.accept ?_
  rw [← h.cfg]
  split
  · obtain ⟨r, last, hr, ha⟩ := readWrite_eq b s
    obtain ⟨r', last', hr', ha'⟩ := readWrite_eq b t
    rw [← h.cfg] at ha' hr'
    obtain ⟨rfl, rfl⟩ := ha.unique h.cfg h.env h.rules h.script ha'
    have hrun := ticks_spiIssue op b t
    rw [← h.cfg] at hrun
    rw [ticks_spiIssue, hrun, hr, hr']
    exact ⟨⟨_, rfl, rfl⟩, rfl, rfl⟩
  · exact h.refuse .noEngine

/-- A 1-Wire operation that appends the events `pre` and ends with one sample of the line (R90, R93). -/
theorem Alike.sampling {f : State → Level × State} {pre : Cfg → List Event} {call : Timing → Timing}
    (hf : ∀ u, f u = (sampledLevel (u.cfg.slot u.cfg.owLine)
        (Machine.leafAnswer (u.cfg.slot u.cfg.owLine) { u with hist := u.hist ++ pre u.cfg }), { u with
      env := envAfter (u.cfg.slot u.cfg.owLine) { u with hist := u.hist ++ pre u.cfg }
      hist := u.hist ++ (pre u.cfg ++ sampleEvents (u.cfg.slot u.cfg.owLine)
        (Machine.leafAnswer (u.cfg.slot u.cfg.owLine) { u with hist := u.hist ++ pre u.cfg }))
      timing := call u.timing })) : SameRead s t (f s) (f t) := by
  obtain ⟨hl, he⟩ := h.leafAnswer (s.cfg.slot s.cfg.owLine) (s.hist ++ pre s.cfg) (t.hist ++ pre s.cfg)
  have hs := hf s
  have ht := hf t
  rw [hl, he] at hs
  rw [show t.cfg.slot t.cfg.owLine = s.cfg.slot s.cfg.owLine by rw [h.cfg], show pre t.cfg = pre s.cfg by rw [h.cfg]] at ht
  rw [hs, ht]
  exact ⟨rfl, ⟨_, rfl, rfl⟩, rfl⟩

theorem Alike.owReset : SameRead s t (owReset s) (owReset t) :=
  h.sampling (pre := fun c => driveEvents (c.slot c.owLine) .low ++ [.delay (c.duration c.owClass.resetLow)] ++
    driveEvents (c.slot c.owLine) .high ++ [.delay (c.duration c.owClass.resetWait)]) (call := fun x => x.call.call)
    fun u => by rw [owReset_eq]; rfl

theorem Alike.readBit : SameRead s t (readBit s) (readBit t) :=
  h.sampling (pre := fun c => driveEvents (c.slot c.owLine) .low ++ [.delay (c.duration c.owClass.rLow)] ++
    driveEvents (c.slot c.owLine) .high ++ [.delay (c.duration c.owClass.rWait)]) (call := fun x => x.call.call)
    fun u => by rw [readBit_eq]; rfl

theorem Alike.owCommand {op : OwOp} {operand : Option Byte}
    (hrun : SameRun s t (ticks (owLength op) (owIssue op operand s)) (ticks (owLength op) (owIssue op operand t))) :
    SameOutcome s t (owCommand op operand s) (owCommand op operand t) := by
  refine h.accept ?_
  rw [← h.cfg]
  split
  · exact hrun
  · exact h.refuse .noEngine

theorem Alike.owResetRun :
    SameRun s t (ticks (owLength .reset) (owIssue .reset none s)) (ticks (owLength .reset) (owIssue .reset none t)) := by
  obtain ⟨hl, hist, env⟩ := h.owReset
  rw [ticks_owIssue_reset (h.allows 2), ticks_owIssue_reset (h.allows' 2), hl]
  exact ⟨hist, by simp [afterOnce, owResult], env⟩

theorem Alike.owWbitRun (l : Level) :
    SameRun s t (ticks (owLength .wbit) (owIssue .wbit (some (byteOfLevel l)) s))
      (ticks (owLength .wbit) (owIssue .wbit (some (byteOfLevel l)) t)) := by
  rw [ticks_owIssue_wbit l (h.allows 1), ticks_owIssue_wbit l (h.allows' 1), writeBit_eq, writeBit_eq, ← h.cfg]
  exact ⟨⟨_, rfl, rfl⟩, rfl, h.env⟩

theorem Alike.owRbitRun :
    SameRun s t (ticks (owLength .rbit) (owIssue .rbit none s)) (ticks (owLength .rbit) (owIssue .rbit none t)) := by
  obtain ⟨hl, hist, env⟩ := h.readBit
  rw [ticks_owIssue_rbit (h.allows 2), ticks_owIssue_rbit (h.allows' 2), hl]
  exact ⟨hist, by simp [afterOnce, owResult], env⟩

theorem Alike.owWbyteRun (b : Byte) :
    SameRun s t (ticks (owLength .wbyte) (owIssue .wbyte (some b) s))
      (ticks (owLength .wbyte) (owIssue .wbyte (some b) t)) := by
  rw [ticks_owIssue_wbyte b (h.allows 8), ticks_owIssue_wbyte b (h.allows' 8), writeByte_eq, writeByte_eq, ← h.cfg]
  exact ⟨⟨_, rfl, rfl⟩, rfl, h.env⟩

theorem Alike.owRbyteRun :
    SameRun s t (ticks (owLength .rbyte) (owIssue .rbyte none s)) (ticks (owLength .rbyte) (owIssue .rbyte none t)) := by
  obtain ⟨r, last, hr, ha⟩ := readByte_eq s
  obtain ⟨r', last', hr', ha'⟩ := readByte_eq t
  rw [← h.cfg] at ha' hr'
  obtain ⟨rfl, rfl⟩ := ha.unique h.cfg h.env h.rules h.script ha'
  rw [ticks_owIssue_rbyte (h.allows 16), ticks_owIssue_rbyte (h.allows' 16), hr, hr']
  exact ⟨⟨_, rfl, rfl⟩, rfl, rfl⟩

/-- Every command shows the same in two ready states that agree in all it may depend on. -/
theorem Alike.exec (i : Instr) : SameOutcome s t (exec i s) (exec i t) := by
  cases i with
  | pinHigh slot =>
    rw [exec_pinHigh, exec_pinHigh]
    exact h.pinCommand fun e => h.drive e .high _
  | pinLow slot =>
    rw [exec_pinLow, exec_pinLow]
    exact h.pinCommand fun e => h.drive e .low _
  | pinWrite slot l =>
    rw [exec_pinWrite, exec_pinWrite]
    exact h.pinCommand fun e => h.drive e l _
  | pinRead slot =>
    rw [exec_pinRead, exec_pinRead]
    exact h.pinCommand h.sample
  | bitsDmsb b => exact h.accept (h.respond _)
  | bitsDlsb b => exact h.accept (h.respond _)
  | bitsRmsb v => exact h.accept (h.respond _)
  | bitsRlsb v => exact h.accept (h.respond _)
  | spiXfer b => exact h.spiCommand .xfer b
  | spiWrite b => exact h.spiCommand .write b
  | owReset => exact h.owCommand h.owResetRun
  | owWbit l => exact h.owCommand (h.owWbitRun l)
  | owRbit => exact h.owCommand h.owRbitRun
  | owWbyte b => exact h.owCommand (h.owWbyteRun b)
  | owRbyte => exact h.owCommand h.owRbyteRun
  | owSearch a b => exact h.accept (h.refuse .unimplemented)

end

end Sys2Proof.Machine
end

section
/-! CERTIFICATES. The obligations on the configuration, reset and what no step changes, on the sequencers, on the frames
and on what a command depends on. -/

namespace Sys2Proof.Machine

/-- Settles O10: the checks spelled out are the checks of the configuration, and all else a step or a command answers
is no such refusal. -/
theorem illFormedInstancesAreRefused : Obligations.IllFormedInstancesAreRefused := by
  intro s
  rw [configOk_iff_wellFormed]
  refine ⟨(step_refused_iff s).symm, fun h i => ?_⟩
  obtain ⟨k, hk⟩ := firstFailure_of_not_wellFormed h
  exact ⟨k, exec_illFormed i hk⟩

/-- Settles O12: the configuration of reset passes every check. -/
theorem resetLeavesTheBlockReady : Obligations.ResetLeavesTheBlockReady :=
  ⟨rfl, rfl, rfl, rfl, ⟨wellFormed_reset, rfl⟩, rfl, rfl⟩

/-- Settles O53, field by field. -/
theorem resetMeetsTheInvariant : Obligations.ResetMeetsTheInvariant where
  wellFormed := wellFormed_reset
  sequencer := ⟨rfl, rfl⟩
  spiSeq := by decide
  owSeq := by decide
  owBitidx := by decide
  noResponse := fun _ => rfl
  delays := nofun
  waiting := nofun
  lastId := by decide

/-- Settles O55, by the results a step can have. -/
theorem stepKeepsConfigurationAndGrowsHistory : Obligations.StepKeepsConfigurationAndGrowsHistory := by
  intro s t h
  obtain ⟨hc, ho, hh, hr⟩ := step_extends h
  exact ⟨hc, ho, hh, hr⟩

/-- Settles O56: a position makes at most one access. -/
theorem onePositionOneEvent : Obligations.OnePositionOneEvent := by
  intro s
  obtain ⟨u, a, h⟩ := tick_access s
  obtain ⟨evs, hu, hl, -⟩ := a.events
  exact ⟨evs, h.hist.trans hu, hl⟩

/-- Settles O38, by the phase after each position. -/
theorem spiSequencerFollowsTheChain : Obligations.SpiSequencerFollowsTheChain := by
  refine ⟨fun s b h hp => ⟨spiCommand_ready .xfer b h hp, spiCommand_ready .write b h hp⟩, fun s op b => ?_,
    fun s op h hi => ?_⟩
  · exact ⟨fun h => if_pos h, fun h => if_neg (by simp [h]), rfl, rfl, rfl, rfl, rfl, fun h hi hp =>
      spiIssue_keeps_inv op b h ((sequencerOk_none hi).1 h.sequencer) hp⟩
  · have hn : s.response = none := h.noResponse (by simp [hi])
    have follows := spiTick_follows op ((sequencerOk_spi hi).1 h.sequencer).2.2
    rw [← tick_spi hi] at follows
    obtain ⟨seq, tx, phase, silent, answered⟩ := follows
    rw [hn] at silent
    refine ⟨seq, tx, fun hp => ?_, fun hp hq => ?_, fun hp hq hs => ?_, fun hp hq hs => ?_, fun hp => ?_⟩
    · have hx : spiNextPhase s.cfg s.spi = .bitCycle := by simp only [spiNextPhase, hp]
      exact ⟨phase.trans hx, silent (by simp [hx])⟩
    · have hx := spiNextPhase_inside hp hq
      exact ⟨phase.trans hx, silent (by simp [hx])⟩
    · have hx := (spiNextPhase_ended hp hq).trans (if_pos hs)
      exact ⟨phase.trans hx, silent (by simp [hx])⟩
    · have hx := (spiNextPhase_ended hp hq).trans (if_neg (by simp [hs]))
      exact ⟨phase.trans hx, answered hx⟩
    · have hx : spiNextPhase s.cfg s.spi = .idle := by simp only [spiNextPhase, hp]
      exact ⟨phase.trans hx, answered hx⟩

/-- Settles O48, by where one position takes the table. -/
theorem owSequencerFollowsTheTable : Obligations.OwSequencerFollowsTheTable := by
  refine ⟨fun s l b h hp => ⟨owCommand_ready .reset none h hp, owCommand_ready .wbit (some (byteOfLevel l)) h hp,
    owCommand_ready .rbit none h hp, owCommand_ready .wbyte (some b) h hp, owCommand_ready .rbyte none h hp⟩,
    fun s op operand => ?_, fun s op h hi ht => ?_⟩
  · refine ⟨fun h => h ▸ rfl, fun h => ?_, fun h => ?_, rfl, fun v h => h ▸ rfl, rfl, rfl, rfl, fun h hi hp =>
      owIssue_keeps_inv op operand h ((sequencerOk_none hi).1 h.sequencer) hp⟩
    · rcases h with rfl | rfl <;> rfl
    · rcases h with rfl | rfl <;> exact ⟨rfl, rfl⟩
  · have hn : s.response = none := h.noResponse (by simp [hi])
    obtain ⟨u, rx, access, hu⟩ := owTick_of_returns ((sequencerOk_ow hi).1 h.sequencer).2.2 ht
    rw [← tick_ow hi] at hu
    simp only [owSlotLength_eq, ← isByte_iff, hu]
    refine ⟨owAdvance_tx op _ _, fun hq => ?_, fun hq hb hk => ?_, fun hq hb => ?_⟩
    · rw [owAdvance_inside op u (x := { s.ow with rx := rx }) hq]
      exact ⟨rfl, rfl, rfl, access.response.trans hn⟩
    · rw [owAdvance_nextBit u (x := { s.ow with rx := rx }) hq hb hk]
      exact ⟨rfl, rfl, rfl, access.response.trans hn⟩
    · obtain ⟨v, y, hy, he⟩ := owAdvance_last u (x := { s.ow with rx := rx }) hq hb
      rw [he]
      exact ⟨hy, rfl, v, rfl⟩

/-- Settles O26, by what a refusal, a drive and a sample leave as it was. -/
theorem pinCommandsFrame : Obligations.PinCommandsFrame := by
  intro i slot need s t hi h
  obtain ⟨cfg, spi, ow, owsearch, cmds, timing, inflight, rules, script, drive_env, events⟩ := pinFrame_exec hi h
  exact ⟨cfg, spi, ow, owsearch, cmds, timing, inflight, rules, script, drive_env, events⟩

/-- Settles O37, by the events of a transfer and the environment its samples leave. -/
theorem spiCommandsFrame : Obligations.SpiCommandsFrame := by
  intro i s t hi h
  obtain ⟨op, b, he⟩ := exec_isSpi hi
  rcases spiCommand_next (he s ▸ h) with ⟨hp, rfl⟩ | ⟨hp, r, last, x, p, ha, rfl⟩
  · exact ⟨rfl, rfl, rfl, rfl, rfl, rfl, List.suffix_refl _, fun _ => ⟨rfl, rfl, rfl⟩, [], by simp⟩
  · obtain ⟨rules, script⟩ := ha.env_kept
    exact ⟨rfl, rfl, rfl, rfl, rfl, rules, script, fun h0 => absurd (hp.symm.trans h0) nofun, _, rfl,
      fun _ => onPort_of_mem_transferEvents hp⟩

/-- Settles O47, by induction on the positions the sequencer runs. -/
theorem owCommandsFrame : Obligations.OwCommandsFrame := by
  intro i d s t hi h
  obtain ⟨op, operand, he⟩ := exec_isOw hi
  rcases owCommand_next (he s ▸ h) with ⟨hp, rfl⟩ | ⟨hp, rfl⟩
  · exact ⟨rfl, rfl, rfl, rfl, rfl, List.suffix_refl _, fun _ => ⟨rfl, rfl, rfl, rfl⟩, [], by simp⟩
  · obtain ⟨cfg, spi, owsearch, cmds, -, rules, script, events⟩ :=
      owFrame_ticks (owLength op) (op := op) (s := owIssue op operand s) (.inl rfl)
    exact ⟨cfg, spi, owsearch, cmds, rules, script, fun h0 => absurd (hp.symm.trans h0) nofun, events⟩

/-- Settles O60: every sample of a command takes its answer from the script, whatever came before. -/
theorem commandsDoNotDependOnThePast : Obligations.CommandsDoNotDependOnThePast := by
  intro i s t hs ht hc he hr hl hts htt
  obtain ⟨u, v, hu, hv, ⟨evs, hsu, htv⟩, response, env⟩ := Alike.exec ⟨hs, ht, hc, he, hr, hl, hts, htt⟩ i
  exact ⟨u, v, evs, hu, hv, hsu, htv, response, env⟩

end Sys2Proof.Machine
end

section
/-! SUPPORT. The environment's answer to one sample, rule by rule (20_memory.md R26), and to the eight samples of a byte
where no rule governs the port. -/

namespace Sys2Proof.Machine

/-! ### One sample -/

/-- A port with a rule answers by it, and the environment stays as it was (R26). -/
theorem Env.answer_of_rule {e : Env} {p : Port} {rule : PortRule} (hr : e.rules.lookup p = some rule) (h : List Event) :
    e.answer h p = (rule.answer h p, e) := by
  simp [Env.answer, hr]

/-- A port without a rule takes the script's first answer (R26; log entry 4). -/
theorem Env.answer_of_no_rule {e : Env} {p : Port} {l : Level} {rest : List Level} (hr : e.rules.lookup p = none)
    (hs : e.script = l :: rest) (h : List Event) : e.answer h p = (l, { e with script := rest }) := by
  simp [Env.answer, hr, hs]

/-- Events that do not drive a port leave the level last driven on it. -/
theorem lastDrive_append_of_no_drive {p : Port} (h : List Event) {evs : List Event} (hn : ∀ k, Event.drive p k ∉ evs) :
    lastDrive p (h ++ evs) = lastDrive p h := by
  induction evs using List.reverseRecOn with
  | nil => rw [List.append_nil]
  | append_singleton evs ev ih =>
    have hevs : ∀ k, Event.drive p k ∉ evs := fun k hk => hn k (List.mem_append_left _ hk)
    rw [← List.append_assoc, ← ih hevs]
    cases ev with
    | drive q l =>
      have hq : q ≠ p := fun hq => hn l (by simp [hq])
      rw [lastDrive_append_drive, if_neg hq]
    | sample q l => exact lastDrive_append_sample p q l _
    | delay us => exact lastDrive_append_delay p us _

/-- The level last driven on a port is the last drive's, whatever came after it on other ports or was no drive. -/
theorem lastDrive_drive_append {p : Port} (h : List Event) (l : Level) {evs : List Event}
    (hn : ∀ k, Event.drive p k ∉ evs) : lastDrive p (h ++ [.drive p l] ++ evs) = some l := by
  rw [lastDrive_append_of_no_drive _ hn, lastDrive_append_drive, if_pos rfl]

/-- `Loopback` answers the level last driven on its source (R26). -/
theorem PortRule.answer_loopback {po : Port} (h : List Event) (p : Port) (l : Level) {evs : List Event}
    (hn : ∀ k, Event.drive po k ∉ evs) : PortRule.answer (h ++ [.drive po l] ++ evs) p (.loopback po) = l := by
  rw [PortRule.answer, lastDrive_drive_append h l hn, Option.getD_some]

/-- `PresenceAfterDelay` leaves samples out (R26; log entry 5). -/
theorem afterReleaseAndDelay_append_samples (p : Port) (h : List Event) {evs : List Event}
    (hs : ∀ ev ∈ evs, ∃ q k, ev = Event.sample q k) :
    afterReleaseAndDelay p (h ++ evs) = afterReleaseAndDelay p h := by
  have he : evs.filter Event.notSample = [] := List.filter_eq_nil_iff.2 fun ev hev => by
    obtain ⟨q, k, rfl⟩ := hs ev hev
    exact Bool.false_ne_true
  rw [afterReleaseAndDelay, List.filter_append, he, List.append_nil]
  rfl

theorem afterReleaseAndDelay_release_delay (p : Port) (us : Nat) (h : List Event) :
    afterReleaseAndDelay p (h ++ [.drive p .high, .delay us]) = true := by
  simp [afterReleaseAndDelay, List.filter_cons, Event.notSample]

theorem afterReleaseAndDelay_drive (p q : Port) (l : Level) (h : List Event) :
    afterReleaseAndDelay p (h ++ [.drive q l]) = false := by
  simp [afterReleaseAndDelay, List.filter_cons, Event.notSample]

/-- `PresenceAfterDelay` answers `Low` after a release and a delay (R26). -/
theorem PortRule.answer_presence_release_delay (h : List Event) (p : Port) (us : Nat) {evs : List Event}
    (hs : ∀ ev ∈ evs, ∃ q k, ev = Event.sample q k) :
    PortRule.answer (h ++ [.drive p .high, .delay us] ++ evs) p .presenceAfterDelay = .low := by
  rw [PortRule.answer, afterReleaseAndDelay_append_samples p _ hs, afterReleaseAndDelay_release_delay, if_pos rfl]

/-- `PresenceAfterDelay` answers the level driven where no delay came after it (R26). -/
theorem PortRule.answer_presence_drive (h : List Event) (p : Port) (l : Level) {evs : List Event}
    (hs : ∀ ev ∈ evs, ∃ q k, ev = Event.sample q k) :
    PortRule.answer (h ++ [.drive p l] ++ evs) p .presenceAfterDelay = l := by
  have hn : ∀ k, Event.drive p k ∉ evs := fun k hk => by obtain ⟨_, _, ⟨⟩⟩ := hs _ hk
  rw [PortRule.answer, afterReleaseAndDelay_append_samples p _ hs, afterReleaseAndDelay_drive, if_neg Bool.false_ne_true,
    lastDrive_drive_append h l hn, Option.getD_some]

/-! ### Eight samples of a scripted port -/

/-- The leaf of a pin expression on a port answers what the environment answers there (R53). -/
theorem leafAnswer_of_port {e : PinExpr} {p : Port} (hp : e.port? = some p) (s : State) :
    leafAnswer e s = (s.env.answer s.hist p).1 := by
  induction e with
  | ext q c => exact Option.some.inj hp ▸ rfl
  | inv e ih => exact ih hp
  | constHigh => cases hp
  | constLow => cases hp
  | dummy => cases hp

theorem envAfter_of_port {e : PinExpr} {p : Port} (hp : e.port? = some p) (s : State) :
    envAfter e s = (s.env.answer s.hist p).2 := by
  simp only [envAfter, hp]

/-- Where no rule governs the port and the script begins with eight levels, those are the eight samples, in order, and
the script is eight answers shorter after them (R26; log entry 4). -/
theorem AnswersInOrder.of_script {e : PinExpr} {s : State} {before : Nat → List Event} {r q : LevelVec} {last : Env}
    {rest : List Level} {p : Port} (h : AnswersInOrder e s before r last) (hp : e.port? = some p)
    (hr : s.env.rules.lookup p = none) (hs : s.env.script = q.toList ++ rest) :
    r = q ∧ last = { s.env with script := rest } := by
  obtain ⟨env, h0, rfl, ha⟩ := h
  have answer : ∀ k (hk : k < 8) (hist : List Event), env k = { s.env with script := q.toList.drop k ++ rest } →
      (env k).answer hist p = (q[k], { s.env with script := q.toList.drop (k + 1) ++ rest }) := by
    intro k hk hist he
    have hrk : (env k).rules.lookup p = none := by rw [he, hr]
    have hsk : (env k).script = q[k] :: (q.toList.drop (k + 1) ++ rest) := by
      rw [he, List.drop_eq_getElem_cons (by simpa using hk)]
      rfl
    rw [Env.answer_of_no_rule hrk hsk, he]
  have key : ∀ k, k ≤ 8 → env k = { s.env with script := q.toList.drop k ++ rest } := by
    intro k hk
    induction k with
    | zero => rw [h0, List.drop_zero, ← hs]
    | succ k ih => rw [(ha k hk).2, envAfter_of_port hp, answer k hk _ (ih (by omega))]
  refine ⟨Vector.ext fun k hk => ?_, ?_⟩
  · rw [(ha k hk).1, leafAnswer_of_port hp, answer k hk _ (key k (by omega))]
  · rw [key 8 (Nat.le_refl 8), List.drop_of_length_le (by simp), List.nil_append]

/-! ### The responses of the 1-Wire commands -/

/-- The bit that slot `k` carries is level `k` (R28, R94). -/
theorem levelOfBool_recompose (o : BitOrder) (v : LevelVec) {k : Nat} (hk : k < 8) :
    levelOfBool ((recompose o v).getLsbD (bitOfSlot o k)) = v[k] := by
  cases o with
  | lsb => exact byteOfBits_getLsbD v ⟨k, hk⟩
  | msb =>
    refine (byteOfBits_getLsbD _ ⟨7 - k, by omega⟩).trans ?_
    interval_cases k <;> rfl

/-- A byte command answers and leaves both engines `Idle` (R40, R100, R101). -/
theorem afterByte_answered (op : OwOp) (q : Nat) (b : Byte) (rx : LevelVec) {s : State} {v : Byte} (h : s.spi.phase = .idle)
    (hv : owResult op s.cfg rx = v) : (afterByte op q b rx s).Answered (.ok v) :=
  ⟨busy_eq_false.2 ⟨h, rfl⟩, rfl, hv ▸ rfl⟩

/-- The response of `OW.RESET` is the presence in the level `reset()` samples (R90, R97). -/
theorem exec_owReset_response {s : State} (h : s.Ready) (hp : s.cfg.owPresent = true) (ht : s.timing.allows 2 = true) :
    ∃ t, exec .owReset s = .next t ∧ t.response = some (.ok (byteOfBool (presence (owReset s).1))) := by
  refine ⟨_, owCommand_ready .reset none h hp, ?_⟩
  rw [ticks_owIssue_reset ht]
  simp [afterOnce, owResult]

/-- On a line bound to a plain port `reset()` samples the port's rule after the release and the response window (R90). -/
theorem owReset_level_of_rule {s : State} {p : Port} {c : Caps} (hl : s.cfg.slot s.cfg.owLine = .ext p c) :
    ∃ (h : List Event) (us : Nat), ∀ rule, s.env.rules.lookup p = some rule →
      (owReset s).1 = rule.answer (h ++ [.drive p .high, .delay us]) p := by
  refine ⟨s.hist ++ [.drive p .low, .delay (s.cfg.duration s.cfg.owClass.resetLow)],
    s.cfg.duration s.cfg.owClass.resetWait, fun rule hr => ?_⟩
  rw [owReset_eq, hl, leafAnswer_of_port rfl, Env.answer_of_rule hr]
  simp [sampledLevel, PinExpr.inversions, driveEvents, PinExpr.port?]

end Sys2Proof.Machine
end

section
/-! CERTIFICATES. The obligations on the environments of 20_memory.md R26 and on the commands that sample in them. -/

namespace Sys2Proof.Machine

/-- Settles O24, rule by rule. -/
theorem namedEnvironmentsAnswer : Obligations.NamedEnvironmentsAnswer := by
  intro e h evs p po l us
  refine ⟨fun hr => Env.answer_of_rule hr h, fun hr hn => ?_, fun hr hs => ⟨?_, ?_⟩, fun ls hr hl =>
    Env.answer_of_no_rule hr hl h⟩
  · rw [Env.answer_of_rule hr, PortRule.answer_loopback h p l hn]
  · rw [Env.answer_of_rule hr, PortRule.answer_presence_release_delay h p us hs]
  · rw [Env.answer_of_rule hr, PortRule.answer_presence_drive h p l hs]

/-- Settles O31: the run is `read_write(b)`, whose samples are the script's first eight answers. -/
theorem spiReceivesTheScriptedByte : Obligations.SpiReceivesTheScriptedByte := by
  intro s b q rest p h hs hp hr hq
  obtain ⟨r, last, hrun, ha⟩ := readWrite_eq b s
  obtain ⟨rfl, rfl⟩ := ha.of_script hp hr hq
  refine ⟨_, spiCommand_ready .xfer b h hs, ?_⟩
  rw [ticks_spiIssue, hrun]
  exact ⟨rfl, rfl, rfl⟩

/-- Settles O43: the run is `read_byte()`, whose response is the byte recomposed from its samples. -/
theorem owReadByteCompletes : Obligations.OwReadByteCompletes := by
  intro s h hp ht
  obtain ⟨r, last, hrun, ha⟩ := readByte_eq s
  refine ⟨_, r, recompose s.cfg.owByteOrder (r.map (sampledLevel (s.cfg.slot s.cfg.owLine))),
    owCommand_ready .rbyte none h hp, ?_⟩
  rw [ticks_owIssue_rbyte ht, hrun]
  refine ⟨afterByte_answered _ _ _ _ (busy_eq_false.1 h.idle).1 rfl, rfl, ha, fun k hk => ?_,
    fun q rest p hl hr hq => ?_⟩
  · exact (levelOfBool_recompose _ _ hk).trans (Vector.getElem_map _ hk)
  · obtain ⟨hq, rfl⟩ := ha.of_script hl hr hq
    exact ⟨hq, rfl⟩

/-- Settles O45, by what the line's rule answers after the release and the response window. -/
theorem owResetDetectsPresence : Obligations.OwResetDetectsPresence := by
  intro s p c h hp ht hl
  obtain ⟨t, he, hresp⟩ := exec_owReset_response h hp ht
  obtain ⟨hist, us, hlev⟩ := owReset_level_of_rule hl
  refine ⟨fun hr => ⟨t, he, ?_⟩, fun hr => ⟨t, he, ?_⟩⟩
  · have hlow := PortRule.answer_presence_release_delay hist p us (evs := []) nofun
    rw [List.append_nil] at hlow
    rw [hresp, hlev _ hr, hlow]
    rfl
  · rw [hresp, hlev _ hr]
    rfl

end Sys2Proof.Machine
end

section
/-! SUPPORT. The command word (30_encoding.md R39 to R46): its three fields, the words of each command, and everything
the decoder can answer. -/

namespace Sys2Proof.Machine

open Laws.TableRow (mkWord_mask_S mkWord_mask_SB mkWord_mask_B)

/-! ### Fields -/

@[simp] theorem opField_mkWord (op a b : Byte) : opField (mkWord op a b) = op :=
  (BitVec.extractLsb'_append_eq_of_le (by decide)).trans BitVec.extractLsb'_append_eq_left

@[simp] theorem aField_mkWord (op a b : Byte) : aField (mkWord op a b) = a :=
  (BitVec.extractLsb'_append_eq_of_le (by decide)).trans BitVec.extractLsb'_append_eq_right

@[simp] theorem bField_mkWord (op a b : Byte) : bField (mkWord op a b) = b :=
  BitVec.extractLsb'_append_eq_right

/-- A word is its three fields (R39). -/
theorem mkWord_fields (w : CmdWord) : mkWord (opField w) (aField w) (bField w) = w := by
  calc mkWord (opField w) (aField w) (bField w)
      = w.extractLsb' 8 16 ++ bField w :=
        congrArg (· ++ bField w) (BitVec.extractLsb'_append_extractLsb'_eq_extractLsb' rfl)
    _ = w.extractLsb' 0 24 := BitVec.extractLsb'_append_extractLsb'_eq_extractLsb' rfl
    _ = w := BitVec.extractLsb'_eq_self

theorem opField_and (v w : CmdWord) : opField (v &&& w) = opField v &&& opField w := BitVec.extractLsb'_and

theorem aField_and (v w : CmdWord) : aField (v &&& w) = aField v &&& aField w := BitVec.extractLsb'_and

theorem bField_and (v w : CmdWord) : bField (v &&& w) = bField v &&& bField w := BitVec.extractLsb'_and

/-! ### The words of a command -/

/-- The words of each command: the `OP` of its row, zero in the must-be-zero fields, and the bytes its operands are
assembled from (R39, R41, R43). -/
inductive WordOf : CmdWord → Instr → Prop where
  | pinHigh (a : Byte) : WordOf (mkWord 0x01 a 0) (.pinHigh a.toNat)
  | pinLow (a : Byte) : WordOf (mkWord 0x02 a 0) (.pinLow a.toNat)
  | pinWrite (a b : Byte) : WordOf (mkWord 0x03 a b) (.pinWrite a.toNat (levelOfByte b))
  | pinRead (a : Byte) : WordOf (mkWord 0x04 a 0) (.pinRead a.toNat)
  | bitsDmsb (b : Byte) : WordOf (mkWord 0x10 0 b) (.bitsDmsb b)
  | bitsDlsb (b : Byte) : WordOf (mkWord 0x11 0 b) (.bitsDlsb b)
  | bitsRmsb (b : Byte) : WordOf (mkWord 0x12 0 b) (.bitsRmsb (unpackVec b))
  | bitsRlsb (b : Byte) : WordOf (mkWord 0x13 0 b) (.bitsRlsb (unpackVec b))
  | spiXfer (b : Byte) : WordOf (mkWord 0x20 0 b) (.spiXfer b)
  | spiWrite (b : Byte) : WordOf (mkWord 0x21 0 b) (.spiWrite b)
  | owReset : WordOf (mkWord 0x30 0 0) .owReset
  | owWbit (b : Byte) : WordOf (mkWord 0x31 0 b) (.owWbit (levelOfByte b))
  | owRbit : WordOf (mkWord 0x32 0 0) .owRbit
  | owWbyte (b : Byte) : WordOf (mkWord 0x33 0 b) (.owWbyte b)
  | owRbyte : WordOf (mkWord 0x34 0 0) .owRbyte
  | owSearch (a b : Byte) : WordOf (mkWord 0x3F a b) (.owSearch a b)

/-- The decoder gives a command's words their command (R43). -/
theorem WordOf.decode_eq {w : CmdWord} {i : Instr} (h : WordOf w i) : decode w = .ok i := by
  cases h <;> simp [decode, ifZero, ifBothZero]

theorem WordOf.wellFormed {w : CmdWord} {i : Instr} (h : WordOf w i) : i.wellFormed = true := by
  cases h with
  | pinHigh a | pinLow a | pinWrite a _ | pinRead a => exact decide_eq_true a.isLt
  | _ => rfl

/-- A command's words match its row (R43). -/
theorem WordOf.covers {w : CmdWord} {i : Instr} (h : WordOf w i) : i.row.covers w = true := by
  cases h <;> simp only [OpRow.covers, Instr.row, mkWord_mask_S, mkWord_mask_SB, mkWord_mask_B] <;> decide

/-- The encoder makes a word of the command (R39, R47). -/
theorem wordOf_encode {i : Instr} (h : i.wellFormed = true) : WordOf (encode i) i := by
  have slot {s : Nat} (hs : s < 256) : (BitVec.ofNat 8 s).toNat = s := Nat.mod_eq_of_lt hs
  cases i with
  | pinHigh s => simpa [encode, slot (of_decide_eq_true h)] using WordOf.pinHigh (BitVec.ofNat 8 s)
  | pinLow s => simpa [encode, slot (of_decide_eq_true h)] using WordOf.pinLow (BitVec.ofNat 8 s)
  | pinWrite s l =>
    simpa [encode, slot (of_decide_eq_true h)] using WordOf.pinWrite (BitVec.ofNat 8 s) (byteOfLevel l)
  | pinRead s => simpa [encode, slot (of_decide_eq_true h)] using WordOf.pinRead (BitVec.ofNat 8 s)
  | bitsDmsb b => exact .bitsDmsb b
  | bitsDlsb b => exact .bitsDlsb b
  | bitsRmsb v => simpa [encode] using WordOf.bitsRmsb (packVec v)
  | bitsRlsb v => simpa [encode] using WordOf.bitsRlsb (packVec v)
  | spiXfer b => exact .spiXfer b
  | spiWrite b => exact .spiWrite b
  | owReset => exact .owReset
  | owWbit l => simpa [encode] using WordOf.owWbit (byteOfLevel l)
  | owRbit => exact .owRbit
  | owWbyte b => exact .owWbyte b
  | owRbyte => exact .owRbyte
  | owSearch a b => exact .owSearch a b

/-! ### The rows of the opcode map -/

theorem row_mem_opcodeMap (i : Instr) : i.row ∈ opcodeMap := by
  cases i <;> simp only [Instr.row] <;> decide

/-- No two rows share an `OP` (R43). -/
theorem row_eq_of_opField_eq {r q : OpRow} (hr : r ∈ opcodeMap) (hq : q ∈ opcodeMap)
    (h : opField r.pattern = opField q.pattern) : r = q := by
  have hn : (opcodeMap.map fun r => opField r.pattern).Nodup := by decide
  exact List.inj_on_of_nodup_map hn hr hq h

/-- Every row's mask covers all of `OP` (R43). -/
theorem opField_mask {r : OpRow} (hr : r ∈ opcodeMap) : opField r.mask = 0xFF := by
  revert r
  decide

/-- Every row's `OP` is assigned (R44). -/
theorem not_unassignedOp_pattern {r : OpRow} (hr : r ∈ opcodeMap) : ¬ UnassignedOp (opField r.pattern).toNat := by
  revert r
  unfold UnassignedOp
  decide

/-- Every row's must-be-zero fields are zero in its pattern (R43). -/
theorem pattern_and_operands {r : OpRow} (hr : r ∈ opcodeMap) : r.pattern &&& 0x00FFFF = 0 := by
  revert r
  decide

/-- A word that matches a row has the row's `OP` (R43). -/
theorem opField_eq_of_covers {r : OpRow} {w : CmdWord} (hr : r ∈ opcodeMap) (h : r.covers w = true) :
    opField w = opField r.pattern := by
  rw [← eq_of_beq h, opField_and, opField_mask hr]
  exact BitVec.and_allOnes.symm

/-- Where a row's mask covers all of `A`, the words that match the row have one `A` (R43). -/
theorem WordOf.aField_eq_of_covers {v w : CmdWord} {i : Instr} (h : WordOf v i) (hm : aField i.row.mask = 0xFF)
    (hc : i.row.covers w = true) : aField w = aField v := by
  have field (u : CmdWord) (hu : i.row.covers u = true) : aField u = aField i.row.pattern := by
    rw [← eq_of_beq hu, aField_and, hm]
    exact BitVec.and_allOnes.symm
  rw [field w hc, field v h.covers]

/-- Where a row's mask covers all of `B`, the words that match the row have one `B` (R43). -/
theorem WordOf.bField_eq_of_covers {v w : CmdWord} {i : Instr} (h : WordOf v i) (hm : bField i.row.mask = 0xFF)
    (hc : i.row.covers w = true) : bField w = bField v := by
  have field (u : CmdWord) (hu : i.row.covers u = true) : bField u = bField i.row.pattern := by
    rw [← eq_of_beq hu, bField_and, hm]
    exact BitVec.and_allOnes.symm
  rw [field w hc, field v h.covers]

/-! ### Everything the decoder can answer -/

/-- What the decoder answers a word: the command it is a word of, or why it is none (R43 to R45). -/
inductive Decoded (w : CmdWord) : Except RefuseReason Instr → Prop where
  | ok {i : Instr} (h : WordOf w i) : Decoded w (.ok i)
  | unknownOp (h : UnassignedOp (opField w).toNat) : Decoded w (.error .unknownOp)
  | nonzeroReserved {r : OpRow} (hr : r ∈ opcodeMap) (ho : opField w = opField r.pattern) (hc : r.covers w = false) :
    Decoded w (.error .nonzeroReserved)

/-- A word with a command's `OP`, under a check that its must-be-zero fields are zero (R45). -/
theorem decoded_check {v w : CmdWord} {i : Instr} {p : Prop} [Decidable p] (h : WordOf v i)
    (ho : opField w = opField v) (hp : p → w = v) (hc : i.row.covers w = true → p) :
    Decoded w (if p then .ok i else .error .nonzeroReserved) := by
  have hi := row_mem_opcodeMap i
  split
  next h0 => exact .ok (hp h0 ▸ h)
  next h0 => exact .nonzeroReserved hi (ho.trans (opField_eq_of_covers hi h.covers)) (eq_false_of_ne_true (mt hc h0))

/-- Format `S`: `B` must be zero (R39, R45). -/
theorem decoded_formatS {op a : Byte} (b : Byte) {i : Instr} (h : WordOf (mkWord op a 0) i)
    (hm : i.row.mask = 0xFF00FF) : Decoded (mkWord op a b) (ifZero b i) :=
  decoded_check h (by simp) (fun hb => hb ▸ rfl) fun hc => by simpa using h.bField_eq_of_covers (hm ▸ rfl) hc

/-- Format `B`: `A` must be zero (R39, R45). -/
theorem decoded_formatB {op b : Byte} (a : Byte) {i : Instr} (h : WordOf (mkWord op 0 b) i)
    (hm : i.row.mask = 0xFFFF00) : Decoded (mkWord op a b) (ifZero a i) :=
  decoded_check h (by simp) (fun ha => ha ▸ rfl) fun hc => by simpa using h.aField_eq_of_covers (hm ▸ rfl) hc

/-- Format `N`: both must be zero (R39, R45). -/
theorem decoded_formatN {op : Byte} (a b : Byte) {i : Instr} (h : WordOf (mkWord op 0 0) i)
    (hm : i.row.mask = 0xFFFFFF) : Decoded (mkWord op a b) (ifBothZero a b i) :=
  decoded_check h (by simp) (fun h0 => by rw [h0.1, h0.2]) fun hc =>
    ⟨by simpa using h.aField_eq_of_covers (hm ▸ rfl) hc, by simpa using h.bField_eq_of_covers (hm ▸ rfl) hc⟩

/-- The `OP` of a branch of the decoder. -/
theorem op_eq_of_toNat_eq {op : Byte} {n : Nat} (h : op.toNat = n) : op = BitVec.ofNat 8 n := by
  rw [← h, BitVec.ofNat_toNat, BitVec.setWidth_eq]

/-- The branches of the decoder, one for each row by its format, and the rest (R43, R44). -/
theorem decoded_mkWord (op a b : Byte) : Decoded (mkWord op a b) (decode (mkWord op a b)) := by
  simp only [decode, opField_mkWord, aField_mkWord, bField_mkWord]
  split
  next h => exact op_eq_of_toNat_eq h ▸ decoded_formatS b (.pinHigh a) rfl
  next h => exact op_eq_of_toNat_eq h ▸ decoded_formatS b (.pinLow a) rfl
  next h => exact op_eq_of_toNat_eq h ▸ .ok (.pinWrite a b)
  next h => exact op_eq_of_toNat_eq h ▸ decoded_formatS b (.pinRead a) rfl
  next h => exact op_eq_of_toNat_eq h ▸ decoded_formatB a (.bitsDmsb b) rfl
  next h => exact op_eq_of_toNat_eq h ▸ decoded_formatB a (.bitsDlsb b) rfl
  next h => exact op_eq_of_toNat_eq h ▸ decoded_formatB a (.bitsRmsb b) rfl
  next h => exact op_eq_of_toNat_eq h ▸ decoded_formatB a (.bitsRlsb b) rfl
  next h => exact op_eq_of_toNat_eq h ▸ decoded_formatB a (.spiXfer b) rfl
  next h => exact op_eq_of_toNat_eq h ▸ decoded_formatB a (.spiWrite b) rfl
  next h => exact op_eq_of_toNat_eq h ▸ decoded_formatN a b .owReset rfl
  next h => exact op_eq_of_toNat_eq h ▸ decoded_formatB a (.owWbit b) rfl
  next h => exact op_eq_of_toNat_eq h ▸ decoded_formatN a b .owRbit rfl
  next h => exact op_eq_of_toNat_eq h ▸ decoded_formatB a (.owWbyte b) rfl
  next h => exact op_eq_of_toNat_eq h ▸ decoded_formatN a b .owRbyte rfl
  next h => exact op_eq_of_toNat_eq h ▸ .ok (.owSearch a b)
  next =>
    refine .unknownOp ?_
    rw [opField_mkWord, UnassignedOp]
    simp only [imp_false] at *
    omega

theorem decoded (w : CmdWord) : Decoded w (decode w) := mkWord_fields w ▸ decoded_mkWord _ _ _

/-- A command decoded from a word has that word (R43). -/
theorem wordOf_of_decode {w : CmdWord} {i : Instr} (h : decode w = .ok i) : WordOf w i := by
  have d := decoded w
  rw [h] at d
  cases d
  assumption

/-- A word with the `OP` of a row is a command of the row, or does not match it and is refused (R43, R45). -/
theorem decode_of_opField {w : CmdWord} {r : OpRow} (hr : r ∈ opcodeMap) (ho : opField w = opField r.pattern) :
    (r.covers w = true ∧ ∃ i, decode w = .ok i ∧ i.row = r) ∨
      (r.covers w = false ∧ decode w = .error .nonzeroReserved) := by
  have same {q : OpRow} (hq : q ∈ opcodeMap) (hw : opField w = opField q.pattern) : q = r :=
    row_eq_of_opField_eq hq hr (hw.symm.trans ho)
  have d := decoded w
  generalize decode w = x at d ⊢
  cases d with
  | @ok i h =>
    have hi := same (row_mem_opcodeMap i) (opField_eq_of_covers (row_mem_opcodeMap i) h.covers)
    exact .inl ⟨hi ▸ h.covers, i, rfl, hi⟩
  | unknownOp h => exact absurd h (ho ▸ not_unassignedOp_pattern hr)
  | nonzeroReserved hq hw hc => exact .inr ⟨same hq hw ▸ hc, rfl⟩

/-- A word whose `OP` is in no row is no command (R44). -/
theorem decode_of_unassignedOp {w : CmdWord} (hu : UnassignedOp (opField w).toNat) :
    decode w = .error .unknownOp := by
  have off {q : OpRow} (hq : q ∈ opcodeMap) (hw : opField w = opField q.pattern) : False :=
    not_unassignedOp_pattern hq (hw ▸ hu)
  have d := decoded w
  generalize decode w = x at d ⊢
  cases d with
  | @ok i h => exact (off (row_mem_opcodeMap i) (opField_eq_of_covers (row_mem_opcodeMap i) h.covers)).elim
  | unknownOp => rfl
  | nonzeroReserved hq hw => exact (off hq hw).elim

/-- A word that matches a row has zero in the row's must-be-zero fields (R43, R45). -/
theorem reserved_eq_zero_of_covers {r : OpRow} {w : CmdWord} (hr : r ∈ opcodeMap) (h : r.covers w = true) :
    w &&& r.mask &&& 0x00FFFF = 0 := by
  rw [eq_of_beq h, pattern_and_operands hr]

end Sys2Proof.Machine
end

section
/-! SUPPORT. The bytes of the bit-order unit bit by bit (41_bitorder.md R62 to R65), and the response word (30_encoding.md
R40). -/

namespace Sys2Proof.Machine

/-- A bit is determined by its level (R4). -/
theorem levelOfBool_injective : Function.Injective levelOfBool := by decide

theorem levelOfBool_eq_high_iff (c : Bool) : levelOfBool c = .high ↔ c = true := by cases c <;> decide

/-- Element `k` of a level-vector operand is bit `k` of the byte (R41). -/
theorem unpackVec_getElem (b : Byte) {k : Nat} (hk : k < 8) : (unpackVec b)[k] = bitLevel b k := by
  interval_cases k <;> rfl

theorem decomposeMsb_getElem (b : Byte) {k : Nat} (hk : k < 8) : (decomposeMsb b)[k] = bitLevel b (7 - k) := by
  interval_cases k <;> rfl

/-- A bit of a level-vector result is that bit of a byte where the element is its level (R42). -/
theorem packVec_getLsbD {v : LevelVec} {b : Byte} {j k : Nat} (hk : k < 8) (h : v[k] = bitLevel b j) :
    (packVec v).getLsbD k = b.getLsbD j :=
  levelOfBool_injective ((byteOfBits_getLsbD v ⟨k, hk⟩).trans h)

/-- Packing undoes unpacking (R41, R42). -/
@[simp] theorem packVec_unpackVec (b : Byte) : packVec (unpackVec b) = b :=
  BitVec.eq_of_getLsbD_eq fun _ hk => packVec_getLsbD hk (unpackVec_getElem b hk)

theorem levelOfByte_eq_low_iff (b : Byte) : levelOfByte b = .low ↔ b = 0 := by
  constructor
  · intro h
    by_contra hb
    rw [levelOfByte_ne_zero hb] at h
    cases h
  · rintro rfl
    rfl

/-- The response word of a refusal (R40, R104). -/
theorem word_refused (q : RefuseReason) : (Response.refused q).word = 0x0100 := rfl

theorem status_word_refused (q : RefuseReason) : (Response.refused q).word.extractLsb' 8 8 = 0x01 :=
  BitVec.extractLsb'_append_eq_left

/-- `STATUS` and `VALUE` of the response word of a completed command (R40). -/
theorem status_word_ok (v : Byte) : (Response.ok v).word.extractLsb' 8 8 = 0x00 := BitVec.extractLsb'_append_eq_left

theorem value_word_ok (v : Byte) : (Response.ok v).word.extractLsb' 0 8 = v := BitVec.extractLsb'_append_eq_right

end Sys2Proof.Machine
end

section
/-! CERTIFICATES. The obligations on the encoding of commands and responses, on the words that are no command, and on the
answers of the bit-order unit. -/

namespace Sys2Proof.Machine

/-- Settles O2: the encoder makes a word of the command, and the decoder knows every word of a command. -/
theorem decodeOfEncodeIsIdentity : Obligations.DecodeOfEncodeIsIdentity := fun _ h => (wordOf_encode h).decode_eq

/-- Settles O3: a command decoded from a word has that word, a row's words are its commands, and a row is determined by
its `OP`. -/
theorem wordsDecodeByTheirRow : Obligations.WordsDecodeByTheirRow := by
  refine ⟨fun w i h => ?_, fun w r hr h => ?_, fun w r q hr hq h k => ?_, fun a b => ?_⟩
  · have hw := wordOf_of_decode h
    exact ⟨hw.wellFormed, row_mem_opcodeMap i, hw.covers⟩
  · obtain ⟨-, hi⟩ | ⟨hc, -⟩ := decode_of_opField hr (opField_eq_of_covers hr h)
    · exact hi
    · exact nomatch h.symm.trans hc
  · exact row_eq_of_opField_eq hr hq ((opField_eq_of_covers hr h).symm.trans (opField_eq_of_covers hq k))
  · have element (k : Nat) (hk : k < 8) : (unpackVec b)[k] = .high ↔ b.getLsbD k = true := by
      rw [unpackVec_getElem b hk, bitLevel, levelOfBool_eq_high_iff]
    exact ⟨(WordOf.pinHigh a).decode_eq, (WordOf.pinLow a).decode_eq,
      ⟨_, (WordOf.pinWrite a b).decode_eq, levelOfByte_eq_low_iff b⟩, (WordOf.pinRead a).decode_eq,
      (WordOf.bitsDmsb b).decode_eq, (WordOf.bitsDlsb b).decode_eq,
      ⟨_, (WordOf.bitsRmsb b).decode_eq, element⟩, ⟨_, (WordOf.bitsRlsb b).decode_eq, element⟩,
      (WordOf.spiXfer b).decode_eq, (WordOf.spiWrite b).decode_eq,
      WordOf.owReset.decode_eq, ⟨_, (WordOf.owWbit b).decode_eq, levelOfByte_eq_low_iff b⟩, WordOf.owRbit.decode_eq,
      (WordOf.owWbyte b).decode_eq, WordOf.owRbyte.decode_eq⟩

/-- Settles O4, by what the decoder answers a word whose `OP` is in no row. -/
theorem unassignedOpcodesAreRefused : Obligations.UnassignedOpcodesAreRefused := fun _ _ _ h hc hu =>
  ⟨step_of_decode_error h hc (decode_of_unassignedOp hu), word_refused _⟩

/-- Settles O5: the word has the row's `OP`, and does not match the row. -/
theorem nonzeroReservedFieldsAreRefused : Obligations.NonzeroReservedFieldsAreRefused := by
  intro s w rest r h hc hr ho hm
  obtain ⟨hcov, -⟩ | ⟨-, hd⟩ := decode_of_opField hr ho
  · exact absurd (reserved_eq_zero_of_covers hr hcov) hm
  · exact ⟨step_of_decode_error h hc hd, word_refused _⟩

/-- Settles O6: every word with this `OP` is the command, and a ready state accepts its refusal. -/
theorem searchIsAlwaysRefused : Obligations.SearchIsAlwaysRefused := by
  have refused (s : State) (a b : Byte) (h : s.Ready) :
      exec (.owSearch a b) s = .next { s with response := some (.refused .unimplemented) } := accept_ready h _
  refine ⟨refused, fun s w rest h hc ho => ?_, word_refused _⟩
  have hw : mkWord 0x3F (aField w) (bField w) = w := ho ▸ mkWord_fields w
  have hd := (WordOf.owSearch (aField w) (bField w)).decode_eq
  rw [hw] at hd
  rw [step_of_decode_ok h hc hd]
  exact refused _ _ _ ⟨h.wellFormed, h.idle⟩

/-- Settles O18: a ready state accepts the command, and its result is the packed decomposition. -/
theorem decomposeCommandsAnswer : Obligations.DecomposeCommandsAnswer := by
  intro s b h
  refine ⟨⟨packVec (decomposeMsb b), accept_ready h _, fun k hk => packVec_getLsbD hk (decomposeMsb_getElem b hk)⟩, ?_⟩
  have hv : packVec (decomposeLsb b) = b := packVec_unpackVec b
  exact (accept_ready h (respond (packVec (decomposeLsb b)))).trans (by rw [hv]; rfl)

/-- Settles O19: a ready state accepts the command, and its result is the recomposition. -/
theorem recomposeCommandsAnswer : Obligations.RecomposeCommandsAnswer := fun _ v h =>
  ⟨⟨recomposeMsb v, accept_ready h _, fun _ => levelOfBool_recompose .msb v⟩,
    ⟨recomposeLsb v, accept_ready h _, fun _ => levelOfBool_recompose .lsb v⟩⟩

/-- Settles O1, by running the decoder on the fifteen words. -/
theorem writtenWordsDecode : Obligations.WrittenWordsDecode := by
  unfold Obligations.WrittenWordsDecode
  decide

/-- Settles O52, by the two kinds of response. -/
theorem responseWordsHaveTwoStatuses : Obligations.ResponseWordsHaveTwoStatuses := by
  intro r
  cases r with
  | ok v =>
    refine ⟨.inl (status_word_ok v), ?_, nofun⟩
    rintro _ ⟨⟩
    exact ⟨status_word_ok v, value_word_ok v⟩
  | refused q => exact ⟨.inr (status_word_refused q), nofun, fun q' _ => word_refused q⟩

end Sys2Proof.Machine
end

section
/-! SUPPORT. The pin primitives through inversions and without a port (40_pin.md R52 to R56), and `check_pin` clause by
clause (R61). -/

namespace Sys2Proof.Machine

/-! ### Inversions -/

/-- Inversions negate the level driven, once each (R52). -/
theorem drive_repeat_inv (n : Nat) (e : PinExpr) (l : Level) (s : State) :
    drive (Nat.repeat PinExpr.inv n e) l s = drive e (l.notTimes n) s := by
  induction n generalizing l with
  | zero => rfl
  | succ n ih => exact (ih l.not).trans (by rw [Level.notTimes_not, Level.notTimes_succ])

/-- Inversions negate the level returned, once each (R53). -/
theorem sample_repeat_inv (n : Nat) (e : PinExpr) (s : State) :
    sample (Nat.repeat PinExpr.inv n e) s = ((sample e s).1.notTimes n, (sample e s).2) := by
  induction n with
  | zero => rfl
  | succ n ih => exact congrArg (fun r : Level × State => (r.1.not, r.2)) ih

/-! ### Leaves that are no port -/

/-- A drive through an expression without a port does nothing (R52, R56). -/
theorem drive_of_no_port {e : PinExpr} (hp : e.port? = none) (l : Level) (s : State) : drive e l s = s := by
  simp only [drive_eq, driveEvents, hp, List.append_nil]

/-- A sample through an expression without a port leaves the state as it was (R53, R56). -/
theorem sample_state_of_no_port {e : PinExpr} (hp : e.port? = none) (s : State) : (sample e s).2 = s := by
  simp only [sample_eq, envAfter, sampleEvents, hp, List.append_nil]

/-- The answer of a leaf that is no port hangs on `DUMMY_IN_LEVEL` alone (R53). -/
theorem leafAnswer_of_no_port {e : PinExpr} (hp : e.port? = none) {s t : State}
    (hd : s.cfg.dummyInLevel = t.cfg.dummyInLevel) : leafAnswer e s = leafAnswer e t := by
  induction e with
  | ext p c => cases hp
  | inv e ih => exact ih hp
  | constHigh => rfl
  | constLow => rfl
  | dummy => exact hd

/-- The leaf's answer is what a sample of the leaf itself returns (R53). -/
theorem sample_leaf_level (e : PinExpr) (s : State) : (sample e.leaf s).1 = leafAnswer e s := by
  induction e with
  | ext p c => rfl
  | inv e ih => exact ih
  | constHigh => rfl
  | constLow => rfl
  | dummy => rfl

/-! ### Admission -/

theorem checkPin_badSlot {c : Cfg} {slot : Nat} (hs : c.nSlots ≤ slot) (need : Cap) :
    checkPin c slot need = .error .badSlot := if_pos hs

section
variable {c : Cfg} {slot : Nat} (hs : slot < c.nSlots)
include hs

theorem checkPin_slotOwned (ho : c.owned slot = true) (need : Cap) : checkPin c slot need = .error .slotOwned :=
  (if_neg hs.not_ge).trans (if_pos ho)

theorem checkPin_noCapability {need : Cap} (ho : c.owned slot = false) (hc : (c.slot slot).has need = false) :
    checkPin c slot need = .error .noCapability :=
  (if_neg hs.not_ge).trans ((if_neg (ne_true_of_eq_false ho)).trans (if_neg (ne_true_of_eq_false hc)))

theorem checkPin_free {need : Cap} (ho : c.owned slot = false) (hc : (c.slot slot).has need = true) :
    checkPin c slot need = .ok (c.slot slot) :=
  (if_neg hs.not_ge).trans ((if_neg (ne_true_of_eq_false ho)).trans (if_pos hc))

end

section
variable {slot : Nat} {need : Cap} {act : PinExpr → State → State} {s : State} (h : s.Ready)
include h

/-- What `check_pin` admits is done with the pin expression (R61). -/
theorem pinCommand_of_ok {e : PinExpr} (hc : checkPin s.cfg slot need = .ok e) :
    pinCommand slot need act s = .next (act e s) :=
  (accept_ready h _).trans (by rw [hc])

/-- What `check_pin` refuses is answered with its reason, and nothing else changes (R61, R104). -/
theorem pinCommand_of_error {r : RefuseReason} (hc : checkPin s.cfg slot need = .error r) :
    pinCommand slot need act s = .next { s with response := some (.refused r) } :=
  (accept_ready h _).trans (by rw [hc]; rfl)

end

/-- A drive of a free output slot, and the response 0x0000 (R57 to R59). -/
theorem pinCommand_drive {slot : Nat} {s : State} (h : s.Ready) (hc : checkPin s.cfg slot .out = .ok (s.cfg.slot slot))
    (l : Level) :
    pinCommand slot .out (fun e s => respond noResult (drive e l s)) s = .next { s with
      hist := s.hist ++ driveEvents (s.cfg.slot slot) l, inflight := none, response := some (.ok 0) } :=
  (pinCommand_of_ok h hc).trans (by rw [drive_eq]; rfl)

/-- Each command on a pin is an admitted act that ends in a response `OK` (R57 to R60). -/
theorem exec_isPin {i : Instr} {slot : Nat} {need : Cap} (hi : IsPin i slot need) :
    ∃ act : PinExpr → State → State, (∀ s, exec i s = pinCommand slot need act s) ∧
      ∀ e s, ∃ v, (act e s).response = some (.ok v) := by
  cases hi with
  | high => exact ⟨_, exec_pinHigh slot, fun _ _ => ⟨_, rfl⟩⟩
  | low => exact ⟨_, exec_pinLow slot, fun _ _ => ⟨_, rfl⟩⟩
  | write _ l => exact ⟨_, exec_pinWrite slot l, fun _ _ => ⟨_, rfl⟩⟩
  | read => exact ⟨_, exec_pinRead slot, fun _ _ => ⟨_, rfl⟩⟩

/-! ### The slots of the engines -/

theorem mem_spiRoles (c : Cfg) (slot : Nat) : slot ∈ c.spiRoles ↔
    c.spiPresent = true ∧
      (slot = c.spiClk ∨ slot = c.spiMosi ∨ slot = c.spiMiso ∨ (c.spiHasSs = true ∧ slot = c.spiSs)) := by
  unfold Cfg.spiRoles
  split
  next hp => split <;> simp [*]
  next hp => simp [hp]

theorem mem_owRoles (c : Cfg) (slot : Nat) : slot ∈ c.owRoles ↔ c.owPresent = true ∧ slot = c.owLine := by
  unfold Cfg.owRoles
  split <;> simp [*]

/-- A slot is owned by the engine that has it in a role (R61). -/
theorem owned_iff (c : Cfg) (slot : Nat) : c.owned slot = true ↔ slot ∈ c.spiRoles ∨ slot ∈ c.owRoles :=
  decide_eq_true_iff.trans List.mem_append

end Sys2Proof.Machine
end

section
/-! CERTIFICATES. The obligations on the pin primitives and the four commands on a free slot. -/

namespace Sys2Proof.Machine

/-- Settles O20: `check_pin` admits the command, and a drive appends its events alone. -/
theorem pinDriveCommandsComplete : Obligations.PinDriveCommandsComplete := by
  intro s slot l h hs ho hc
  have admitted := checkPin_free hs ho hc
  rw [exec_pinHigh, exec_pinLow, exec_pinWrite]
  exact ⟨pinCommand_drive h admitted .high, pinCommand_drive h admitted .low, pinCommand_drive h admitted l⟩

/-- Settles O21: `check_pin` admits the command, and a sample takes the environment's answer alone. -/
theorem pinReadCommandCompletes : Obligations.PinReadCommandCompletes := by
  intro s slot h hs ho hc
  rw [exec_pinRead, pinCommand_of_ok h (checkPin_free hs ho hc), sample_eq]
  rfl

/-- Settles O22, clause by clause of `check_pin`. -/
theorem pinCommandsAreChecked : Obligations.PinCommandsAreChecked := by
  refine ⟨fun i slot need s hi h => ?_, fun c slot => ?_⟩
  · obtain ⟨act, he, hr⟩ := exec_isPin hi
    rw [he s]
    refine ⟨fun hs => pinCommand_of_error h (checkPin_badSlot hs need),
      fun hs ho => pinCommand_of_error h (checkPin_slotOwned hs ho need),
      fun hs ho hc => pinCommand_of_error h (checkPin_noCapability hs ho hc), fun hs ho hc => ?_⟩
    obtain ⟨v, hv⟩ := hr (s.cfg.slot slot) s
    exact ⟨_, v, pinCommand_of_ok h (checkPin_free hs ho hc), hv⟩
  · rw [owned_iff, mem_spiRoles, mem_owRoles]

/-- Settles O23: a level negated `n` times is the level or its negation, by the parity of `n`. -/
theorem inversionIsAnInvolution : Obligations.InversionIsAnInvolution := by
  intro e l s
  have even (n : Nat) (hn : n % 2 = 0) : drive (Nat.repeat PinExpr.inv n e) l s = drive e l s ∧
      sample (Nat.repeat PinExpr.inv n e) s = sample e s := by
    have hl (k : Level) : k.notTimes n = k := (k.notTimes_eq n).trans (if_pos hn)
    rw [drive_repeat_inv, sample_repeat_inv, hl, hl]
    exact ⟨rfl, rfl⟩
  have odd (n : Nat) (hn : n % 2 = 1) : drive (Nat.repeat PinExpr.inv n e) l s = drive (.inv e) l s ∧
      sample (Nat.repeat PinExpr.inv n e) s = sample (.inv e) s := by
    have hl (k : Level) : k.notTimes n = k.not := (k.notTimes_eq n).trans (if_neg (by omega))
    rw [drive_repeat_inv, sample_repeat_inv, hl, hl]
    exact ⟨rfl, rfl⟩
  obtain ⟨hd, hs⟩ := even 2 rfl
  exact ⟨hd, hs, fun n => ⟨even n, odd n⟩⟩

/-- Settles O25: neither a drive nor a sample without a port touches the state, and the leaf answers alike. -/
theorem constantsAndDummyAreInert : Obligations.ConstantsAndDummyAreInert := by
  refine ⟨fun e s ls hp => ?_, fun s => ⟨rfl, rfl, rfl⟩, fun e s t hp hd => ?_, fun e s _ => ?_⟩
  · exact List.foldl_fixed' (fun l => (write_eq_drive e l s).trans (drive_of_no_port hp l s)) ls
  · rw [sample_level, sample_level, leafAnswer_of_no_port hp hd]
    exact ⟨rfl, sample_state_of_no_port hp s⟩
  · rw [sample_level, sample_leaf_level]
    exact Level.notTimes_eq _ _

end Sys2Proof.Machine
end

section
/-! SUPPORT. The bit-order unit for both orders at once (41_bitorder.md R62 to R68): the elements of a decomposition, the
bits of a recomposed one, the states of the ordered transform, and what a `BITS` command is. -/

namespace Sys2Proof.Machine

theorem bitLevel_eq_high_iff (b : Byte) (k : Nat) : bitLevel b k = .high ↔ b.getLsbD k = true := levelOfBool_eq_high_iff _

/-- Element `k` of a decomposition is the bit that slot `k` carries (R62, R63). -/
theorem decompose_getElem (o : BitOrder) (b : Byte) {k : Nat} (hk : k < 8) :
    (decompose o b)[k] = bitLevel b (bitOfSlot o k) := by
  cases o with
  | lsb => exact unpackVec_getElem b hk
  | msb => exact decomposeMsb_getElem b hk

theorem decompose_getElem_eq_high_iff (o : BitOrder) (b : Byte) {k : Nat} (hk : k < 8) :
    (decompose o b)[k] = .high ↔ b.getLsbD (bitOfSlot o k) = true :=
  decompose_getElem o b hk ▸ bitLevel_eq_high_iff b _

/-- The bit that slot `k` carries is set where level `k` is `High` (R64, R65). -/
theorem recompose_getLsbD_iff (o : BitOrder) (v : LevelVec) {k : Nat} (hk : k < 8) :
    (recompose o v).getLsbD (bitOfSlot o k) = true ↔ v[k] = .high :=
  levelOfBool_recompose o v hk ▸ (levelOfBool_eq_high_iff _).symm

theorem bitOfSlot_lt (o : BitOrder) {k : Nat} (hk : k < 8) : bitOfSlot o k < 8 := by
  cases o with
  | lsb => exact hk
  | msb => exact Nat.sub_lt_succ 7 k

/-- The slot that carries bit `k` is the bit that slot `k` carries. -/
theorem bitOfSlot_bitOfSlot (o : BitOrder) {k : Nat} (hk : k < 8) : bitOfSlot o (bitOfSlot o k) = k := by
  cases o with
  | lsb => rfl
  | msb => exact Nat.sub_sub_self (Nat.le_of_lt_succ hk)

/-- The slot that carries bit `j` in one order carries the opposite bit in the other. -/
theorem bitOfSlot_bitOfSlot_of_ne {o o' : BitOrder} (h : o ≠ o') (j : Nat) : bitOfSlot o' (bitOfSlot o j) = 7 - j := by
  cases o with
  | lsb =>
    cases o' with
    | lsb => exact absurd rfl h
    | msb => rfl
  | msb =>
    cases o' with
    | lsb => rfl
    | msb => exact absurd rfl h

/-- Bit `j` of the recomposed byte is the bit that, in the order of the decomposition, the slot of `j` carries (R66). -/
theorem recompose_decompose_getLsbD (o o' : BitOrder) (b : Byte) {j : Nat} (hj : j < 8) :
    (recompose o (decompose o' b)).getLsbD j = b.getLsbD (bitOfSlot o' (bitOfSlot o j)) := by
  have hk := bitOfSlot_lt o hj
  have h := (levelOfBool_recompose o (decompose o' b) hk).trans (decompose_getElem o' b hk)
  rw [bitOfSlot_bitOfSlot o hj] at h
  exact levelOfBool_injective h

theorem recompose_decompose (o : BitOrder) (b : Byte) : recompose o (decompose o b) = b :=
  BitVec.eq_of_getLsbD_eq fun _ hj => by rw [recompose_decompose_getLsbD o o b hj, bitOfSlot_bitOfSlot o hj]

theorem decompose_recompose (o : BitOrder) (v : LevelVec) : decompose o (recompose o v) = v :=
  Vector.ext fun _ hk => (decompose_getElem o _ hk).trans (levelOfBool_recompose o v hk)

/-- Recomposing in the order opposite to the decomposition's reverses the bits (R66). -/
theorem recompose_decompose_of_ne {o o' : BitOrder} (h : o ≠ o') (b : Byte) :
    recompose o (decompose o' b) = b.reverse := by
  refine BitVec.eq_of_getLsbD_eq fun j hj => ?_
  rw [recompose_decompose_getLsbD o o' b hj, bitOfSlot_bitOfSlot_of_ne h, BitVec.getLsbD_reverse, BitVec.getMsbD,
    decide_eq_true hj]
  rfl

/-- The state before application `k` of the ordered transform: application `k + 1` begins in the state application `k`
left (R68). -/
def stateBefore {α σ : Type} (v : LevelVec) (f : Level → σ → α × σ) (s : σ) : Nat → σ
  | 0 => s
  | k + 1 => (f (levelAt v k) (stateBefore v f s k)).2

/-- Application `k` of the ordered transform takes level `k` in the state before it, and gives result `k` (R68). -/
theorem mapLevels_application {α σ : Type} (v : LevelVec) (f : Level → σ → α × σ) (s : σ) {k : Nat} (hk : k < 8) :
    f v[k] (stateBefore v f s k) = ((mapLevels v f s).1[k], stateBefore v f s (k + 1)) := by
  interval_cases k <;> rfl

theorem mapLevels_state {α σ : Type} (v : LevelVec) (f : Level → σ → α × σ) (s : σ) :
    (mapLevels v f s).2 = stateBefore v f s 8 := rfl

/-- The ordered transform of a decomposition applies its function to the byte's bits in the decomposition's order, each
application in the state the one before it left (R68). -/
theorem mapLevels_decompose_inOrder {α σ : Type} (o : BitOrder) (b : Byte) (f : Level → σ → α × σ) (s : σ) :
    ∃ st : Fin 9 → σ, st 0 = s ∧ (mapLevels (decompose o b) f s).2 = st 8 ∧
      ∀ (k : Nat) (hk : k < 8), f (bitLevel b (bitOfSlot o k)) (st ⟨k, by omega⟩) =
        ((mapLevels (decompose o b) f s).1[k], st ⟨k + 1, by omega⟩) := by
  refine ⟨fun k => stateBefore (decompose o b) f s k, rfl, mapLevels_state _ f s, fun k hk => ?_⟩
  rw [← decompose_getElem o b hk]
  exact mapLevels_application (decompose o b) f s hk

/-- Each command of the bit-order unit is the accepted answer of a byte (R70 to R73). -/
theorem exec_isBits {i : Instr} (hi : IsBits i) : ∃ v, ∀ s, exec i s = accept s (respond v) := by
  cases hi with
  | dmsb b => exact ⟨packVec (decomposeMsb b), fun _ => rfl⟩
  | dlsb b => exact ⟨packVec (decomposeLsb b), fun _ => rfl⟩
  | rmsb v => exact ⟨recomposeMsb v, fun _ => rfl⟩
  | rlsb v => exact ⟨recomposeLsb v, fun _ => rfl⟩

end Sys2Proof.Machine
end

section
/-! CERTIFICATES. The obligations on the bit-order unit. -/

namespace Sys2Proof.Machine

/-- Settles O14, by the elements of a decomposition and the bits of a recomposition in each order. -/
theorem conversionFunctionsBitByBit : Obligations.ConversionFunctionsBitByBit := fun b v _ hk =>
  ⟨decompose_getElem_eq_high_iff .msb b hk, decompose_getElem_eq_high_iff .lsb b hk,
    recompose_getLsbD_iff .msb v hk, recompose_getLsbD_iff .lsb v hk⟩

/-- Settles O15: each bit comes back through the slot that carried it, or through the opposite one. -/
theorem bitOrderRoundTrips : Obligations.BitOrderRoundTrips :=
  ⟨fun b => ⟨recompose_decompose .msb b, recompose_decompose .lsb b⟩,
    fun v => ⟨decompose_recompose .msb v, decompose_recompose .lsb v⟩,
    fun b => ⟨recompose_decompose_of_ne (o := .lsb) (o' := .msb) nofun b,
      recompose_decompose_of_ne (o := .msb) (o' := .lsb) nofun b⟩⟩

/-- Settles O16: the two lists hold the same eight bits, written in opposite orders. -/
theorem decompositionsMirrorEachOther : Obligations.DecompositionsMirrorEachOther := fun _ => rfl

/-- Settles O17, by the states between the applications. -/
theorem orderedTransformRunsInOrder : Obligations.OrderedTransformRunsInOrder := fun _ _ b f s =>
  ⟨mapLevels_decompose_inOrder .msb b f s, mapLevels_decompose_inOrder .lsb b f s⟩

/-- Settles O27: an accepted answer is all that a `BITS` command does. -/
theorem bitsCommandsFrame : Obligations.BitsCommandsFrame := by
  intro i s t hi h
  obtain ⟨v, he⟩ := exec_isBits hi
  obtain ⟨-, rfl⟩ := accept_next (he s ▸ h)
  exact ⟨rfl, v, rfl⟩

end Sys2Proof.Machine
end

section
/-! SUPPORT. A transfer by its parts (42_spi.md R75, R83): what the SPI commands answer, the select events and the eight bit
cycles of a trace, and the ports those events are on. -/

namespace Sys2Proof.Machine

/-! ### The commands -/

/-- What `SPI.XFER b` leaves (R76, R83, R85). -/
theorem exec_spiXfer {s : State} (b : Byte) (h : s.Ready) (hp : s.cfg.spiPresent = true) :
    ∃ (r : LevelVec) (last : Env) (x : SpiState),
      AnswersInOrder (s.cfg.slot s.cfg.spiMiso) s (eventsBeforeSample s.cfg b r) r last ∧
      exec (.spiXfer b) s = .next { s with
        spi := x, inflight := none, env := last, hist := s.hist ++ transferEvents s.cfg b r
        response := some (.ok (recomposeMsb (r.map (sampledLevel (s.cfg.slot s.cfg.spiMiso))))) } := by
  obtain ⟨r, last, hr, ha⟩ := readWrite_eq b s
  have he : exec (.spiXfer b) s = .next (ticks (spiLength s.cfg) (spiIssue .xfer b s)) := spiCommand_ready .xfer b h hp
  rw [ticks_spiIssue, hr] at he
  exact ⟨r, last, _, ha, he⟩

theorem spiCommand_absent {s : State} (op : SpiOp) (b : Byte) (h : s.Ready) (hp : s.cfg.spiPresent = false) :
    spiCommand op b s = .next { s with response := some (.refused .noEngine) } :=
  (accept_ready h _).trans (congrArg _ (if_neg (by simp [hp])))

theorem owCommand_absent {s : State} (op : OwOp) (operand : Option Byte) (h : s.Ready) (hp : s.cfg.owPresent = false) :
    owCommand op operand s = .next { s with response := some (.refused .noEngine) } :=
  (accept_ready h _).trans (congrArg _ (if_neg (by simp [hp])))

/-! ### The trace -/

/-- The events of a drive of the select line, if there is one (R77, R78). -/
def selectEvents (c : Cfg) (l : Level) : List Event := if c.spiHasSs then driveEvents (c.slot c.spiSs) l else []

/-- The events of the first `n` bit cycles of a transfer of `b`, where the leaf of data-in answers `r` (R83). -/
def cyclesEvents (c : Cfg) (b : Byte) (r : LevelVec) (n : Nat) : List Event :=
  (List.range n).flatMap fun k => bitCycleEvents c (bitLevel b (7 - k)) (levelAt r k)

/-- A transfer is its eight bit cycles in the select's brackets (R77, R83). -/
theorem transferEvents_eq (c : Cfg) (b : Byte) (r : LevelVec) :
    transferEvents c b r = selectEvents c .low ++ cyclesEvents c b r 8 ++ selectEvents c .high := rfl

theorem eventsBeforeSample_eq (c : Cfg) (b : Byte) (r : LevelVec) (k : Nat) :
    eventsBeforeSample c b r k = selectEvents c .low ++ cyclesEvents c b r k ++
      (driveEvents (c.slot c.spiClk) .low ++ driveEvents (c.slot c.spiMosi) (bitLevel b (7 - k)) ++
        driveEvents (c.slot c.spiClk) .high) := rfl

theorem cyclesEvents_succ (c : Cfg) (b : Byte) (r : LevelVec) (n : Nat) :
    cyclesEvents c b r (n + 1) = cyclesEvents c b r n ++ bitCycleEvents c (bitLevel b (7 - n)) (levelAt r n) := by
  simp [cyclesEvents, List.range_succ]

theorem selectEvents_of_select {c : Cfg} (hs : c.spiHasSs = true) (l : Level) :
    selectEvents c l = driveEvents (c.slot c.spiSs) l := if_pos hs

theorem driveEvents_of_port {e : PinExpr} {p : Port} (hp : e.port? = some p) (l : Level) :
    driveEvents e l = [.drive p (l.notTimes e.inversions)] := by
  simp only [driveEvents, hp]

/-! ### The ports of the roles -/

/-- A slot on a port is in the table. -/
theorem getElem?_slot_of_port {c : Cfg} {i : Nat} {p : Port} (hp : (c.slot i).port? = some p) :
    c.pinCfg[i]? = some (c.slot i) := by
  rw [Cfg.slot, List.getD_eq_getElem?_getD] at hp ⊢
  cases he : c.pinCfg[i]? with
  | none =>
    rw [he] at hp
    cases hp
  | some e => rfl

/-- Two slots of a well-formed configuration are never on one port (R11). -/
theorem port_ne_of_slot_ne {c : Cfg} (h : c.WellFormed) {i j : Nat} (hij : i ≠ j) {p : Port}
    (hp : (c.slot i).port? = some p) : (c.slot j).port? ≠ some p := fun hq =>
  ((configOk_iff_wellFormed c).2 h).portsDistinct i j _ _ p hij (getElem?_slot_of_port hp) (getElem?_slot_of_port hq) hp hq

/-- Clock and data-out are on different slots, and the select is on none of the other roles' (R11, R13). -/
theorem spiSlots_distinct {c : Cfg} (h : c.WellFormed) (hp : c.spiPresent = true) :
    c.spiClk ≠ c.spiMosi ∧
      (c.spiHasSs = true → ∀ i, i = c.spiClk ∨ i = c.spiMosi ∨ i = c.spiMiso → i ≠ c.spiSs) := by
  have hspi : c.spiRoles.Nodup := ((configOk_iff_wellFormed c).2 h).rolesDistinct.of_append_left
  rw [Cfg.spiRoles, if_pos hp, List.nodup_append] at hspi
  obtain ⟨hthree, -, hapart⟩ := hspi
  exact ⟨fun he => by simp [he] at hthree, fun hs i hi => hapart i (by simpa using hi) _ (by simp [hs])⟩

/-- The events of the bit cycles are on the ports of clock, data-out and data-in (R75). -/
theorem onPort_of_mem_cyclesEvents {c : Cfg} {b : Byte} {r : LevelVec} {n : Nat} {ev : Event}
    (h : ev ∈ cyclesEvents c b r n) : ∃ i p, (i = c.spiClk ∨ i = c.spiMosi ∨ i = c.spiMiso) ∧
      Event.onPort ev = some p ∧ (c.slot i).port? = some p := by
  simp only [cyclesEvents, bitCycleEvents, List.mem_flatMap, List.mem_append] at h
  obtain ⟨k, -, ((h | h) | h) | h⟩ := h
  · exact ⟨_, (onPort_of_mem_driveEvents h).imp fun p hp => ⟨.inl rfl, hp⟩⟩
  · exact ⟨_, (onPort_of_mem_driveEvents h).imp fun p hp => ⟨.inr (.inl rfl), hp⟩⟩
  · exact ⟨_, (onPort_of_mem_driveEvents h).imp fun p hp => ⟨.inl rfl, hp⟩⟩
  · exact ⟨_, (onPort_of_mem_sampleEvents h).imp fun p hp => ⟨.inr (.inr rfl), hp⟩⟩

/-- A pin expression on another port, or on none, drives nothing on this one. -/
theorem drive_notMem_driveEvents {e : PinExpr} {p : Port} (hp : e.port? ≠ some p) (l k : Level) :
    Event.drive p k ∉ driveEvents e l := fun h => by
  obtain ⟨_, ⟨⟩, hq⟩ := onPort_of_mem_driveEvents h
  exact hp hq

theorem drive_notMem_sampleEvents (e : PinExpr) (p : Port) (l k : Level) : Event.drive p k ∉ sampleEvents e l := by
  unfold sampleEvents
  split <;> simp

theorem sample_notMem_driveEvents (e : PinExpr) (p : Port) (l k : Level) : Event.sample p k ∉ driveEvents e l := by
  unfold driveEvents
  split <;> simp

/-- After a drive through a pin expression on a port the level last driven there is the drive's, negated once for each
inversion (R52). -/
theorem lastDrive_driveEvents {e : PinExpr} {p : Port} (hp : e.port? = some p) (h : List Event) (l : Level) :
    lastDrive p (h ++ driveEvents e l) = some (l.notTimes e.inversions) := by
  rw [driveEvents_of_port hp, lastDrive_append_drive, if_pos rfl]

/-! ### The levels last driven -/

theorem drive_notMem_selectEvents {c : Cfg} {p : Port} (hs : c.spiHasSs = true → (c.slot c.spiSs).port? ≠ some p)
    (l k : Level) : Event.drive p k ∉ selectEvents c l := by
  unfold selectEvents
  split
  next h => exact drive_notMem_driveEvents (hs h) l k
  next => exact List.not_mem_nil

/-- When a bit cycle samples, its rising edge is the last event on the clock (R75). -/
theorem lastDrive_clk_beforeSample {c : Cfg} {p : Port} (hp : (c.slot c.spiClk).port? = some p) (h : List Event)
    (b : Byte) (r : LevelVec) (k : Nat) :
    lastDrive p (h ++ eventsBeforeSample c b r k) = some (Level.high.notTimes (c.slot c.spiClk).inversions) := by
  rw [eventsBeforeSample_eq, ← List.append_assoc, ← List.append_assoc]
  exact lastDrive_driveEvents hp _ .high

/-- When a bit cycle samples, its output level is the last event on data-out (R75). -/
theorem lastDrive_mosi_beforeSample {c : Cfg} {p : Port} (hp : (c.slot c.spiMosi).port? = some p)
    (hclk : (c.slot c.spiClk).port? ≠ some p) (h : List Event) (b : Byte) (r : LevelVec) (k : Nat) :
    lastDrive p (h ++ eventsBeforeSample c b r k) =
      some ((bitLevel b (7 - k)).notTimes (c.slot c.spiMosi).inversions) := by
  rw [eventsBeforeSample_eq, ← List.append_assoc, ← List.append_assoc,
    lastDrive_append_of_no_drive _ (drive_notMem_driveEvents hclk .high), ← List.append_assoc]
  exact lastDrive_driveEvents hp _ _

/-- After its last sample a transfer drives the select alone. -/
theorem lastDrive_transferEvents {c : Cfg} {p : Port} (hs : c.spiHasSs = true → (c.slot c.spiSs).port? ≠ some p)
    (h : List Event) (b : Byte) (r : LevelVec) :
    lastDrive p (h ++ transferEvents c b r) = lastDrive p (h ++ eventsBeforeSample c b r 7) := by
  have hsplit : h ++ transferEvents c b r = h ++ eventsBeforeSample c b r 7 ++
      (sampleEvents (c.slot c.spiMiso) (levelAt r 7) ++ selectEvents c .high) := by
    simp only [transferEvents_eq, cyclesEvents_succ c b r 7, eventsBeforeSample_eq, bitCycleEvents, List.append_assoc]
  rw [hsplit]
  refine lastDrive_append_of_no_drive _ fun k hk => ?_
  exact (List.mem_append.1 hk).elim (drive_notMem_sampleEvents _ p _ k) (drive_notMem_selectEvents hs .high k)

theorem lastDrive_select_transferEvents {c : Cfg} {p : Port} (hs : c.spiHasSs = true)
    (hp : (c.slot c.spiSs).port? = some p) (h : List Event) (b : Byte) (r : LevelVec) :
    lastDrive p (h ++ transferEvents c b r) = some (Level.high.notTimes (c.slot c.spiSs).inversions) := by
  rw [transferEvents_eq, selectEvents_of_select hs .high, ← List.append_assoc]
  exact lastDrive_driveEvents hp _ .high

/-- Only a data-in on a port is sampled (R53). -/
theorem port_of_sample_mem_transferEvents {c : Cfg} {b : Byte} {r : LevelVec} {p : Port} {l : Level}
    (h : Event.sample p l ∈ transferEvents c b r) : (c.slot c.spiMiso).port? = some p := by
  have notSelect (k : Level) : Event.sample p l ∉ selectEvents c k := by
    unfold selectEvents
    split
    · exact sample_notMem_driveEvents _ p k l
    · exact List.not_mem_nil
  simp only [transferEvents_eq, cyclesEvents, bitCycleEvents, List.mem_append, List.mem_flatMap] at h
  rcases h with (h | ⟨k, -, ((h | h) | h) | h⟩) | h
  · exact absurd h (notSelect .low)
  · exact absurd h (sample_notMem_driveEvents _ p _ l)
  · exact absurd h (sample_notMem_driveEvents _ p _ l)
  · exact absurd h (sample_notMem_driveEvents _ p _ l)
  · obtain ⟨_, ⟨⟩, hq⟩ := onPort_of_mem_sampleEvents h
    exact hq
  · exact absurd h (notSelect .high)

end Sys2Proof.Machine
end

section
/-! SUPPORT. The positions of a transfer with every role a plain port (42_spi.md R83). -/

namespace Sys2Proof.Machine

/-- In a row of blocks of one length, item `j` of block `k` stands at `m * k + j`. -/
theorem getElem?_flatMap_range {α : Type} {f : Nat → List α} {m : Nat} (hf : ∀ k, (f k).length = m) {n k j : Nat}
    (hk : k < n) (hj : j < m) : ((List.range n).flatMap f)[m * k + j]? = (f k)[j]? := by
  induction n with
  | zero => exact absurd hk (Nat.not_lt_zero k)
  | succ n ih =>
    have hlen : ((List.range n).flatMap f).length = m * n := by
      simp [List.length_flatMap, hf, Nat.mul_comm]
    rw [List.range_succ, List.flatMap_append, List.flatMap_singleton]
    rcases Nat.lt_succ_iff_lt_or_eq.1 hk with hlt | rfl
    · have : m * k + j < m * n := calc
        m * k + j < m * (k + 1) := by rw [Nat.mul_succ]; omega
        _ ≤ m * n := Nat.mul_le_mul_left m hlt
      rw [List.getElem?_append_left (by omega), ih hlt]
    · rw [List.getElem?_append_right (by omega), hlen, Nat.add_sub_cancel_left]

section
variable {c : Cfg} {clk mosi miso : Port} {c1 c2 c3 : Caps} (hclk : c.slot c.spiClk = .ext clk c1)
  (hmosi : c.slot c.spiMosi = .ext mosi c2) (hmiso : c.slot c.spiMiso = .ext miso c3)
include hclk hmosi hmiso

theorem bitCycleEvents_plain (l r : Level) :
    bitCycleEvents c l r = [.drive clk .low, .drive mosi l, .drive clk .high, .sample miso r] := by
  rw [bitCycleEvents, hclk, hmosi, hmiso]
  rfl

theorem length_cyclesEvents_plain (b : Byte) (r : LevelVec) : (cyclesEvents c b r 8).length = 32 := by
  simp [cyclesEvents, List.length_flatMap, bitCycleEvents_plain hclk hmosi hmiso]

/-- Position `j` of bit cycle `k`. -/
theorem getElem?_cyclesEvents_plain (b : Byte) (r : LevelVec) {k j : Nat} (hk : k < 8) (hj : j < 4) :
    (cyclesEvents c b r 8)[4 * k + j]? =
      [Event.drive clk .low, .drive mosi (bitLevel b (7 - k)), .drive clk .high, .sample miso r[k]][j]? := by
  have hr : levelAt r k = r[k] := by simp [levelAt, hk]
  rw [cyclesEvents, getElem?_flatMap_range (fun _ => by rw [bitCycleEvents_plain hclk hmosi hmiso]; rfl) hk hj,
    bitCycleEvents_plain hclk hmosi hmiso, hr]

end

/-- A plain select drives one event on each side, and no select none. -/
theorem length_selectEvents_plain {c : Cfg} {ss : Port} {c4 : Caps}
    (hss : c.spiHasSs = true → c.slot c.spiSs = .ext ss c4) (l : Level) :
    (selectEvents c l).length = if c.spiHasSs then 1 else 0 := by
  unfold selectEvents
  split
  next hs => rw [hss hs]; rfl
  next => rfl

/-- The bit cycles stand after the select's first event (R83). -/
theorem getElem?_transferEvents_cycles {c : Cfg} {b : Byte} {r : LevelVec} {i o : Nat}
    (ho : (selectEvents c .low).length = o) (hi : i < (cyclesEvents c b r 8).length) :
    (transferEvents c b r)[o + i]? = (cyclesEvents c b r 8)[i]? := by
  rw [transferEvents_eq, List.append_assoc, List.getElem?_append_right (by omega), ho, Nat.add_sub_cancel_left,
    List.getElem?_append_left hi]

end Sys2Proof.Machine
end

section
/-! SUPPORT. Two transfers on the same wires: what the sequencer does depends on the pin expressions of the roles, the
environment and the history, and on nothing else of the configuration (42_spi.md R78, R79). -/

namespace Sys2Proof.Machine

/-- An ordered transform keeps a relation that each of its applications keeps, and gives the same results (R68). -/
theorem mapLevels_related {α σ τ : Type} {R : σ → τ → Prop} {f : Level → σ → α × σ} {g : Level → τ → α × τ}
    (hfg : ∀ l s t, R s t → (f l s).1 = (g l t).1 ∧ R (f l s).2 (g l t).2) (v : LevelVec) {s : σ} {t : τ} (h : R s t) :
    (mapLevels v f s).1 = (mapLevels v g t).1 ∧ R (mapLevels v f s).2 (mapLevels v g t).2 := by
  have before : ∀ k, R (stateBefore v f s k) (stateBefore v g t k) := by
    intro k
    induction k with
    | zero => exact h
    | succ k ih => exact (hfg _ _ _ ih).2
  refine ⟨Vector.ext fun k hk => ?_, before 8⟩
  have hres := (hfg v[k] _ _ (before k)).1
  rwa [mapLevels_application v f s hk, mapLevels_application v g t hk] at hres

/-- Two states with the same pin expressions for clock, data-out and data-in, the same environment and history. -/
structure SameWires (s t : State) : Prop where
  clk : s.cfg.slot s.cfg.spiClk = t.cfg.slot t.cfg.spiClk
  mosi : s.cfg.slot s.cfg.spiMosi = t.cfg.slot t.cfg.spiMosi
  miso : s.cfg.slot s.cfg.spiMiso = t.cfg.slot t.cfg.spiMiso
  dummyIn : s.cfg.dummyInLevel = t.cfg.dummyInLevel
  env : s.env = t.env
  hist : s.hist = t.hist

theorem SameWires.drive {s t : State} (h : SameWires s t) (e : PinExpr) (l : Level) :
    SameWires (drive e l s) (drive e l t) where
  clk := by simpa using h.clk
  mosi := by simpa using h.mosi
  miso := by simpa using h.miso
  dummyIn := by simpa using h.dummyIn
  env := by simpa using h.env
  hist := by simp [h.hist]

/-- A sample with the same environment and history has the same answer, and leaves the same environment. -/
theorem leafAnswer_of_same_env (e : PinExpr) {s t : State} (hd : s.cfg.dummyInLevel = t.cfg.dummyInLevel)
    (he : s.env = t.env) (hh : s.hist = t.hist) : leafAnswer e s = leafAnswer e t ∧ envAfter e s = envAfter e t := by
  constructor
  · simp only [leafAnswer, hd, he, hh]
  · simp only [envAfter, he, hh]

theorem SameWires.sample {s t : State} (h : SameWires s t) (e : PinExpr) :
    (sample e s).1 = (sample e t).1 ∧ SameWires (sample e s).2 (sample e t).2 := by
  obtain ⟨ha, he⟩ := leafAnswer_of_same_env e h.dummyIn h.env h.hist
  refine ⟨by simp [ha], ?_⟩
  exact {
    clk := by simpa using h.clk
    mosi := by simpa using h.mosi
    miso := by simpa using h.miso
    dummyIn := by simpa using h.dummyIn
    env := by simpa using he
    hist := by simp [h.hist, ha] }

theorem bitCycle_eq_sample (l : Level) (s : State) :
    bitCycle l s = sample (s.cfg.slot s.cfg.spiMiso) (drive (s.cfg.slot s.cfg.spiClk) .high
      (drive (s.cfg.slot s.cfg.spiMosi) l (drive (s.cfg.slot s.cfg.spiClk) .low s))) := by
  rw [← write_eq_drive (s.cfg.slot s.cfg.spiMosi) l]
  rfl

theorem SameWires.bitCycle {s t : State} (h : SameWires s t) (l : Level) :
    (bitCycle l s).1 = (bitCycle l t).1 ∧ SameWires (bitCycle l s).2 (bitCycle l t).2 := by
  rw [bitCycle_eq_sample, bitCycle_eq_sample, ← h.clk, ← h.mosi, ← h.miso]
  exact (((h.drive _ _).drive _ _).drive _ _).sample _

theorem SameWires.bitCycles {s t : State} (h : SameWires s t) (b : Byte) :
    (mapMsb b Machine.bitCycle s).1 = (mapMsb b Machine.bitCycle t).1 ∧
      SameWires (mapMsb b Machine.bitCycle s).2 (mapMsb b Machine.bitCycle t).2 :=
  mapLevels_related (fun l _ _ hw => hw.bitCycle l) _ h

/-- Transfers on the same wires, with the same select, read the same and end on the same wires (R76). -/
theorem SameWires.readWrite {s t : State} (h : SameWires s t) (hh : s.cfg.spiHasSs = t.cfg.spiHasSs)
    (hss : s.cfg.slot s.cfg.spiSs = t.cfg.slot t.cfg.spiSs) (b : Byte) :
    (readWrite b s).1 = (readWrite b t).1 ∧ SameWires (readWrite b s).2 (readWrite b t).2 := by
  cases hs : s.cfg.spiHasSs with
  | false =>
    rw [readWrite_of_no_select hs, readWrite_of_no_select (hh.symm.trans hs)]
    exact h.bitCycles b
  | true =>
    rw [readWrite_of_select hs, readWrite_of_select (hh.symm.trans hs), ← hss]
    obtain ⟨hr, hw⟩ := (h.drive (s.cfg.slot s.cfg.spiSs) .low).bitCycles b
    exact ⟨hr, hw.drive _ .high⟩

/-- A select that drives nothing leaves a transfer its eight bit cycles (R78). -/
theorem readWrite_of_silent_select {s : State} (hs : s.cfg.spiHasSs = true → (s.cfg.slot s.cfg.spiSs).port? = none)
    (b : Byte) : readWrite b s = mapMsb b bitCycle s := by
  cases h : s.cfg.spiHasSs with
  | false => exact readWrite_of_no_select h b
  | true => rw [readWrite_of_select h, drive_of_no_port (hs h), drive_of_no_port (hs h)]

/-- Two accepted commands whose transfers read the same and end on the same wires show the same. -/
theorem spiCommand_same {s t : State} (op : SpiOp) (b : Byte) (hs : s.Ready) (ht : t.Ready)
    (hps : s.cfg.spiPresent = true) (hpt : t.cfg.spiPresent = true)
    (h : (readWrite b s).1 = (readWrite b t).1 ∧ SameWires (readWrite b s).2 (readWrite b t).2) :
    ∃ u v, spiCommand op b s = .next u ∧ spiCommand op b t = .next v ∧
      v.hist = u.hist ∧ v.response = u.response ∧ v.env = u.env := by
  obtain ⟨hr, hw⟩ := h
  refine ⟨_, _, spiCommand_ready op b hs hps, spiCommand_ready op b ht hpt, ?_⟩
  rw [ticks_spiIssue, ticks_spiIssue, hr]
  exact ⟨hw.hist.symm, rfl, hw.env.symm⟩

/-- A configuration stays well-formed when its select line is given up, whatever slot `SPI_SS` then names (R11, R78). -/
theorem wellFormed_without_select {c : Cfg} (h : c.WellFormed) (n : Nat) :
    ({ c with spiHasSs := false, spiSs := n } : Cfg).WellFormed := by
  have hc := (configOk_iff_wellFormed c).2 h
  refine (configOk_iff_wellFormed _).1 { hc with
    slotsInRange := ⟨fun hp => ?_, hc.slotsInRange.2⟩
    spiCaps := fun hp => ?_
    rolesDistinct := hc.rolesDistinct.sublist ?_ }
  · obtain ⟨hclk, hmosi, hmiso, -⟩ := hc.slotsInRange.1 hp
    exact ⟨hclk, hmosi, hmiso, nofun⟩
  · obtain ⟨hclk, hmosi, hmiso, -⟩ := hc.spiCaps hp
    exact ⟨hclk, hmosi, hmiso, nofun⟩
  · refine List.Sublist.append_right ?_ c.owRoles
    unfold Cfg.spiRoles
    split
    · exact List.sublist_append_left _ _
    · exact List.Sublist.refl _

/-- `SPI_VARIANT` is in no check of the configuration (R11, R79). -/
theorem wellFormed_variant {c : Cfg} (h : c.WellFormed) (v : SpiVariant) : ({ c with spiVariant := v } : Cfg).WellFormed :=
  h

end Sys2Proof.Machine
end

section
/-! SUPPORT. The byte a transfer receives from a data-in whose port a rule governs, or on a constant (20_memory.md R26,
42_spi.md R84). -/

namespace Sys2Proof.Machine

/-- The samples of a port with a rule are the rule's answers, each after the events before it (R26). -/
theorem AnswersInOrder.of_rule {e : PinExpr} {s : State} {before : Nat → List Event} {r : LevelVec} {last : Env}
    {rule : PortRule} {p : Port} (h : AnswersInOrder e s before r last) (hp : e.port? = some p)
    (hr : s.env.rules.lookup p = some rule) {k : Nat} (hk : k < 8) : r[k] = rule.answer (s.hist ++ before k) p := by
  obtain ⟨env, h0, -, ha⟩ := h
  have key : ∀ j, j ≤ 8 → env j = s.env := by
    intro j hj
    induction j with
    | zero => exact h0
    | succ j ih => rw [(ha j hj).2, envAfter_of_port hp, ih (by omega), Env.answer_of_rule hr]
  rw [(ha k hk).1, leafAnswer_of_port hp, key k (by omega), Env.answer_of_rule hr]

/-- The samples of a constant are the constant (R53). -/
theorem AnswersInOrder.constHigh {s : State} {before : Nat → List Event} {r : LevelVec} {last : Env}
    (h : AnswersInOrder .constHigh s before r last) {k : Nat} (hk : k < 8) : r[k] = .high := by
  obtain ⟨env, -, -, ha⟩ := h
  exact (ha k hk).1

/-- A byte is recomposed from the levels of its bits, most significant first (R64). -/
theorem recomposeMsb_of_bits {v : LevelVec} {b : Byte} (h : ∀ k (hk : k < 8), v[k] = bitLevel b (7 - k)) :
    recomposeMsb v = b := by
  have hv : v = decompose .msb b := Vector.ext fun k hk => (h k hk).trans (decomposeMsb_getElem b hk).symm
  rw [hv]
  exact recompose_decompose .msb b

theorem bitLevel_complement (b : Byte) {k : Nat} (hk : k < 8) : bitLevel (b ^^^ 0xFF) k = (bitLevel b k).not := by
  have hones : (0xFF : Byte).getLsbD k = true := by interval_cases k <;> rfl
  rw [bitLevel, bitLevel, BitVec.getLsbD_xor, hones, Bool.xor_true]
  cases b.getLsbD k <;> rfl

/-- Eight equal levels are the byte 0xFF or 0x00. -/
theorem recomposeMsb_of_constant {v : LevelVec} {l : Level} (h : ∀ k (hk : k < 8), v[k] = l) :
    recomposeMsb v = if l = .high then 0xFF else 0x00 := by
  refine recomposeMsb_of_bits fun k hk => (h k hk).trans ?_
  cases l <;> interval_cases k <;> rfl

theorem Level.notTimes_notTimes (m n : Nat) (l : Level) : (l.notTimes m).notTimes n = l.notTimes (m + n) := by
  induction n with
  | zero => rfl
  | succ n ih => exact congrArg Level.not ih

/-- The bits of a byte, each negated `n` times, are the byte or its complement, by the parity of `n` (R54). -/
theorem recomposeMsb_of_bits_notTimes {v : LevelVec} {b : Byte} {n : Nat}
    (h : ∀ k (hk : k < 8), v[k] = (bitLevel b (7 - k)).notTimes n) :
    recomposeMsb v = if n % 2 = 0 then b else b ^^^ 0xFF := by
  have hl : ∀ k (hk : k < 8), v[k] = if n % 2 = 0 then bitLevel b (7 - k) else (bitLevel b (7 - k)).not :=
    fun k hk => (h k hk).trans (Level.notTimes_eq n _)
  split
  next hn => exact recomposeMsb_of_bits fun k hk => (hl k hk).trans (if_pos hn)
  next hn =>
    exact recomposeMsb_of_bits fun k hk =>
      (hl k hk).trans ((if_neg hn).trans (bitLevel_complement b (by omega)).symm)

end Sys2Proof.Machine
end

section
/-! SUPPORT. Commands that make no `Delay` (42_spi.md R80, 60_exceptions.md R110). -/

namespace Sys2Proof.Machine

/-- The state `t` after `s` without a call of the timing source (R110). -/
structure Undelayed (s t : State) : Prop where
  timing : t.timing = s.timing
  events : ∃ evs : List Event, t.hist = s.hist ++ evs ∧ ∀ us, Event.delay us ∉ evs

/-- A command that adds no event and leaves the timing source alone. -/
theorem Undelayed.of_hist_eq {s t : State} (ht : t.timing = s.timing) (hh : t.hist = s.hist) : Undelayed s t :=
  ⟨ht, [], by simp [hh], by simp⟩

/-- Events on ports are no delays (R24, R25). -/
theorem delay_notMem_of_onPort {evs : List Event} {P : Port → Prop}
    (h : ∀ ev ∈ evs, ∃ p, Event.onPort ev = some p ∧ P p) (us : Nat) : Event.delay us ∉ evs := fun hd => by
  obtain ⟨_, ⟨⟩, -⟩ := h _ hd

theorem undelayed_pin {i : Instr} {slot : Nat} {need : Cap} {s t : State} (hi : IsPin i slot need)
    (h : exec i s = .next t) : Undelayed s t := by
  have frame := pinFrame_exec hi h
  obtain ⟨evs, hh, -, hp⟩ := frame.events
  exact ⟨frame.timing, evs, hh, delay_notMem_of_onPort hp⟩

theorem undelayed_bits {i : Instr} {s t : State} (hi : IsBits i) (h : exec i s = .next t) : Undelayed s t := by
  obtain ⟨v, he⟩ := exec_isBits hi
  obtain ⟨-, rfl⟩ := accept_next (he s ▸ h)
  exact .of_hist_eq rfl rfl

theorem undelayed_spi {i : Instr} {s t : State} (hi : IsSpi i) (h : exec i s = .next t) : Undelayed s t := by
  obtain ⟨op, b, he⟩ := exec_isSpi hi
  rcases spiCommand_next (he s ▸ h) with ⟨-, rfl⟩ | ⟨hp, r, last, x, p, -, rfl⟩
  · exact .of_hist_eq rfl rfl
  · exact ⟨rfl, _, rfl, delay_notMem_of_onPort fun _ => onPort_of_mem_transferEvents hp⟩

theorem undelayed_search {a b : Byte} {s t : State} (h : exec (.owSearch a b) s = .next t) : Undelayed s t := by
  obtain ⟨-, rfl⟩ := accept_next h
  exact .of_hist_eq rfl rfl

end Sys2Proof.Machine
end

section
/-! CERTIFICATES. The obligations on the SPI engine's transfers, on absent engines and on delays. -/

namespace Sys2Proof.Machine

/-- Settles O28: the run of the sequencer is `read_write(b)`. -/
theorem spiXferRefinesReadWrite : Obligations.SpiXferRefinesReadWrite := fun s b h hp =>
  (spiCommand_ready .xfer b h hp).trans (congrArg _ (ticks_spiIssue .xfer b s))

/-- Settles O29: both commands run `read_write(b)`, and differ in the result they respond alone. -/
theorem spiWriteIsXferDiscarded : Obligations.SpiWriteIsXferDiscarded := by
  intro s b h hp
  refine ⟨_, spiXferRefinesReadWrite s b h hp, (spiCommand_ready .write b h hp).trans ?_⟩
  rw [ticks_spiIssue]
  rfl

/-- Settles O30: the events of the run, and on plain ports their positions block by block. -/
theorem spiTransferFollowsTheSequencerTable : Obligations.SpiTransferFollowsTheSequencerTable := by
  intro s b h hp
  obtain ⟨r, last, x, ha, he⟩ := exec_spiXfer b h hp
  refine ⟨_, r, he, rfl, ha, rfl, fun clk mosi miso ss c1 c2 c3 c4 hclk hmosi hmiso hss => ?_⟩
  have hlen := length_cyclesEvents_plain hclk hmosi hmiso b r
  have ho := length_selectEvents_plain hss
  refine ⟨?_, fun hs => ?_, fun k hk => ?_, ?_⟩
  · simp only [transferEvents_eq, List.length_append, hlen, ho]
    omega
  · have hsel (l : Level) : selectEvents s.cfg l = [.drive ss l] := by
      rw [selectEvents_of_select hs, hss hs]
      rfl
    rw [transferEvents_eq, hsel, hsel]
    exact ⟨rfl, by simp [hlen]⟩
  · have position {j : Nat} (hj : j < 4) :=
      (getElem?_transferEvents_cycles (i := 4 * k + j) (ho .low) (by omega)).trans
        (getElem?_cyclesEvents_plain hclk hmosi hmiso b r hk hj)
    exact ⟨position (j := 0) (by omega), position (j := 1) (by omega), position (j := 2) (by omega),
      position (j := 3) (by omega)⟩
  · have hlev : r.map (sampledLevel (s.cfg.slot s.cfg.spiMiso)) = r := by
      rw [hmiso]
      exact Vector.map_id r
    exact congrArg (fun v => some (Response.ok (recomposeMsb v))) hlev

/-- Settles O32: the brackets are the select's two drives, and the bit cycles between are on other roles' ports. -/
theorem spiSelectBracketsTheByte : Obligations.SpiSelectBracketsTheByte := by
  intro i s t p hi hp hs hport ht
  obtain ⟨op, b, he⟩ := exec_isSpi hi
  have hw := (ready_of_exec_next ht).wellFormed
  rcases spiCommand_next (he s ▸ ht) with ⟨h0, -⟩ | ⟨-, r, last, x, q, -, rfl⟩
  · exact absurd (hp.symm.trans h0) nofun
  · refine ⟨cyclesEvents s.cfg b r 8, ?_, fun ev hev hon => ?_⟩
    · rw [← driveEvents_of_port hport, ← driveEvents_of_port hport, ← selectEvents_of_select hs,
        ← selectEvents_of_select hs]
      rfl
    · obtain ⟨j, q, hj, hq, hslot⟩ := onPort_of_mem_cyclesEvents hev
      obtain rfl : q = p := Option.some.inj (hq.symm.trans hon)
      exact port_ne_of_slot_ne hw ((spiSlots_distinct hw hp).2 hs j hj) hslot hport

/-- Settles O33: a select that drives nothing leaves the eight bit cycles, on wires that no field of the select is in. -/
theorem spiWithoutSelectHasNoBracket : Obligations.SpiWithoutSelectHasNoBracket := by
  intro s b n h hp
  have bitCycles (u : State) (hu : SameWires s u) (hus : u.cfg.spiHasSs = false)
      (hs : s.cfg.spiHasSs = true → (s.cfg.slot s.cfg.spiSs).port? = none) :
      (readWrite b s).1 = (readWrite b u).1 ∧ SameWires (readWrite b s).2 (readWrite b u).2 := by
    rw [readWrite_of_silent_select hs, readWrite_of_no_select hus]
    exact hu.bitCycles b
  refine ⟨fun hs => ?_, fun hs hport => ?_⟩
  · have hw : ({ s.cfg with spiSs := n } : Cfg).WellFormed := by
      have hd := wellFormed_without_select h.wellFormed n
      rwa [← hs] at hd
    obtain ⟨t, u, ht, hu, hist, response, -⟩ := spiCommand_same .xfer b h
      (t := { s with cfg := { s.cfg with spiSs := n } }) ⟨hw, h.idle⟩ hp hp
      (bitCycles _ ⟨rfl, rfl, rfl, rfl, rfl, rfl⟩ hs fun h1 => absurd (hs.symm.trans h1) nofun)
    exact ⟨t, u, ht, hu, hist, response⟩
  · obtain ⟨t, u, ht, hu, hist, response, -⟩ := spiCommand_same .xfer b h
      (t := { s with cfg := { s.cfg with spiHasSs := false } })
      ⟨wellFormed_without_select h.wellFormed s.cfg.spiSs, h.idle⟩ hp hp
      (bitCycles _ ⟨rfl, rfl, rfl, rfl, rfl, rfl⟩ rfl fun _ => hport)
    exact ⟨t, u, ht, hu, hist, response⟩

/-- Settles O34: a transfer drives the same levels in both variants, on the same wires. -/
theorem spiVariantsBehaveAlike : Obligations.SpiVariantsBehaveAlike := by
  intro i s hi h
  obtain ⟨op, b, he⟩ := exec_isSpi hi
  rw [he, he]
  have ready (v : SpiVariant) : ({ s with cfg := { s.cfg with spiVariant := v } } : State).Ready :=
    ⟨wellFormed_variant h.wellFormed v, h.idle⟩
  cases hp : s.cfg.spiPresent with
  | false =>
    exact ⟨_, _, spiCommand_absent op b (ready .master) hp, spiCommand_absent op b (ready .serial) hp, rfl, rfl, rfl⟩
  | true =>
    have wires : SameWires { s with cfg := { s.cfg with spiVariant := .master } }
        { s with cfg := { s.cfg with spiVariant := .serial } } := ⟨rfl, rfl, rfl, rfl, rfl, rfl⟩
    exact spiCommand_same op b (ready .master) (ready .serial) hp hp (wires.readWrite rfl rfl b)

/-- Settles O35: in the last bit cycle clock and data-out are driven for the last time, and the select after it. -/
theorem spiLeavesTheClockHigh : Obligations.SpiLeavesTheClockHigh := by
  intro s b h hp
  obtain ⟨r, last, x, -, he⟩ := exec_spiXfer b h hp
  obtain ⟨hcm, hsel⟩ := spiSlots_distinct h.wellFormed hp
  refine ⟨_, he, fun p hport => ?_, fun p hport => ?_, fun p hs hport => ?_⟩
  · have hss (hs : s.cfg.spiHasSs = true) := port_ne_of_slot_ne h.wellFormed (hsel hs _ (.inl rfl)) hport
    exact (lastDrive_transferEvents hss s.hist b r).trans (lastDrive_clk_beforeSample hport s.hist b r 7)
  · have hss (hs : s.cfg.spiHasSs = true) := port_ne_of_slot_ne h.wellFormed (hsel hs _ (.inr (.inl rfl))) hport
    have hclk := port_ne_of_slot_ne h.wellFormed hcm.symm hport
    exact (lastDrive_transferEvents hss s.hist b r).trans (lastDrive_mosi_beforeSample hport hclk s.hist b r 7)
  · exact lastDrive_select_transferEvents hs hport s.hist b r

/-- Settles O36: each sample is the level its bit cycle drives, the rule's level, or the constant. -/
theorem spiLoopbackReturnsTheOperand : Obligations.SpiLoopbackReturnsTheOperand := by
  intro s b h hp
  obtain ⟨r, last, x, ha, he⟩ := exec_spiXfer b h hp
  have response {v : Byte} (hv : recomposeMsb (r.map (sampledLevel (s.cfg.slot s.cfg.spiMiso))) = v) :=
    congrArg (fun v => some (Response.ok v)) hv
  refine ⟨fun po pi hpo hpi hr => ⟨_, he, response (recomposeMsb_of_bits_notTimes fun k hk => ?_)⟩,
    fun pi l hpi hr => ⟨_, he, response (recomposeMsb_of_constant fun k hk => ?_)⟩,
    fun hc => ⟨_, _, he, rfl, response (recomposeMsb_of_constant (l := .high) fun k hk => ?_), fun p l hl => ?_⟩⟩
  · have hclk := port_ne_of_slot_ne h.wellFormed (spiSlots_distinct h.wellFormed hp).1.symm hpo
    rw [Vector.getElem_map, ha.of_rule hpi hr hk, PortRule.answer, lastDrive_mosi_beforeSample hpo hclk, Option.getD_some,
      sampledLevel, Level.notTimes_notTimes]
  · rw [Vector.getElem_map, ha.of_rule hpi hr hk]
    rfl
  · rw [hc] at ha
    rw [Vector.getElem_map, ha.constHigh hk, hc]
    rfl
  · have hport := port_of_sample_mem_transferEvents hl
    rw [hc] at hport
    cases hport

/-- Settles O49: a ready state accepts the refusal. -/
theorem absentEnginesRefuse : Obligations.AbsentEnginesRefuse := by
  refine fun i s h => ⟨fun hi hp => ?_, fun d hi hp => ?_⟩
  · obtain ⟨op, b, he⟩ := exec_isSpi hi
    exact (he s).trans (spiCommand_absent op b h hp)
  · obtain ⟨op, operand, he⟩ := exec_isOw hi
    exact (he s).trans (owCommand_absent op operand h hp)

/-- Settles O59, family by family. -/
theorem onlyTheOneWireEngineDelays : Obligations.OnlyTheOneWireEngineDelays := by
  intro i s t hi h
  obtain ⟨timing, events⟩ : Undelayed s t := by
    cases i with
    | pinHigh slot => exact undelayed_pin (.high slot) h
    | pinLow slot => exact undelayed_pin (.low slot) h
    | pinWrite slot l => exact undelayed_pin (.write slot l) h
    | pinRead slot => exact undelayed_pin (.read slot) h
    | bitsDmsb b => exact undelayed_bits (.dmsb b) h
    | bitsDlsb b => exact undelayed_bits (.dlsb b) h
    | bitsRmsb v => exact undelayed_bits (.rmsb v) h
    | bitsRlsb v => exact undelayed_bits (.rlsb v) h
    | spiXfer b => exact undelayed_spi (.xfer b) h
    | spiWrite b => exact undelayed_spi (.write b) h
    | owReset => exact absurd .reset (hi 2)
    | owWbit l => exact absurd (.wbit l) (hi 1)
    | owRbit => exact absurd .rbit (hi 2)
    | owWbyte b => exact absurd (.wbyte b) (hi 8)
    | owRbyte => exact absurd .rbyte (hi 16)
    | owSearch a b => exact undelayed_search h
  exact ⟨timing, events⟩

end Sys2Proof.Machine
end

section
/-! SUPPORT. What a command of one bit-level sequence answers, and the durations that a write slot tells a bit by
(43_onewire.md R88 to R93). -/

namespace Sys2Proof.Machine

/-- A command of one bit-level sequence answers and leaves both engines `Idle` (R40, R97 to R99). -/
theorem afterOnce_answered (op : OwOp) (x : OwState) {s : State} {v : Byte} (h : s.spi.phase = .idle)
    (hv : owResult op s.cfg x.rx = v) : (afterOnce op x s).Answered (.ok v) :=
  ⟨busy_eq_false.2 ⟨h, rfl⟩, rfl, hv ▸ rfl⟩

/-- The result of `OW.RESET` is 1 exactly for a sampled `Low` (R90, R97). -/
theorem owResult_reset (c : Cfg) (rx : LevelVec) (l : Level) :
    owResult .reset c (rx.setIfInBounds 0 l) = if l = .low then 1 else 0 := by
  rw [owResult, Vector.getElem_setIfInBounds_self]
  cases l <;> rfl

/-- The result of `OW.RBIT` is the sampled level (R93, R99). -/
theorem owResult_rbit (c : Cfg) (rx : LevelVec) (l : Level) : owResult .rbit c (rx.setIfInBounds 0 l) = byteOfLevel l := by
  rw [owResult, Vector.getElem_setIfInBounds_self]

/-- Different classes have different durations in a well-formed configuration (R11, R88). -/
theorem duration_injective {c : Cfg} (h : c.WellFormed) : Function.Injective c.duration := by
  have hn : ([.short, .medium, .long, .reset].map c.duration).Nodup :=
    of_decide_eq_true ((Cfg.wellFormed_iff c).1 h .durationsDistinct)
  have hmem : ∀ k : TimeClass, k ∈ [.short, .medium, .long, .reset] := fun k => by cases k <;> decide
  exact fun k k' hk => List.inj_on_of_nodup_map hn (hmem k) (hmem k') hk

/-- The two values of a written bit have different durations (R11, R92). -/
theorem duration_w1Low_ne_w0Low {c : Cfg} (h : c.WellFormed) :
    c.duration c.owClass.w1Low ≠ c.duration c.owClass.w0Low :=
  (duration_injective h).ne (of_decide_eq_true ((Cfg.wellFormed_iff c).1 h .writeClassesDistinct))

end Sys2Proof.Machine
end

section
/-! CERTIFICATES. The obligations on the commands of the 1-Wire engine. -/

namespace Sys2Proof.Machine

/-- Settles O39: the run is `reset()`, whose one sample is the presence. -/
theorem owResetCompletes : Obligations.OwResetCompletes := by
  intro s h hp ht
  refine ⟨_, owCommand_ready .reset none h hp, ?_⟩
  rw [ticks_owIssue_reset ht, owReset_eq]
  exact ⟨(List.append_assoc ..).symm, afterOnce_answered _ _ (busy_eq_false.1 h.idle).1 (owResult_reset ..)⟩

/-- Settles O40: the run is `write_bit(l)`, and the classes of the two values have different durations. -/
theorem owWriteBitCompletes : Obligations.OwWriteBitCompletes := by
  intro s l h hp ht
  refine ⟨⟨_, owCommand_ready .wbit (some (byteOfLevel l)) h hp, ?_⟩, duration_w1Low_ne_w0Low h.wellFormed⟩
  rw [ticks_owIssue_wbit l ht, writeBit_eq]
  exact ⟨rfl, afterOnce_answered _ _ (busy_eq_false.1 h.idle).1 rfl, rfl⟩

/-- Settles O41: the run is `read_bit()`, whose one sample is the response. -/
theorem owReadBitCompletes : Obligations.OwReadBitCompletes := by
  intro s h hp ht
  refine ⟨_, owCommand_ready .rbit none h hp, ?_⟩
  rw [ticks_owIssue_rbit ht, readBit_eq]
  exact ⟨(List.append_assoc ..).symm, afterOnce_answered _ _ (busy_eq_false.1 h.idle).1 (owResult_rbit ..)⟩

/-- Settles O42: the run is `write_byte(b)`, eight bit writes that sample nothing. -/
theorem owWriteByteCompletes : Obligations.OwWriteByteCompletes := by
  intro s b h hp ht
  refine ⟨_, owCommand_ready .wbyte (some b) h hp, ?_⟩
  rw [ticks_owIssue_wbyte b ht, writeByte_eq]
  exact ⟨afterByte_answered _ _ _ _ (busy_eq_false.1 h.idle).1 rfl, rfl, rfl⟩

/-- Settles O44: the runs are `write_byte(b)` and `read_byte()`, but for the engine's registers and the port. -/
theorem owByteCommandsRefinePseudocode : Obligations.OwByteCommandsRefinePseudocode := by
  intro s b h hp
  refine ⟨fun ht => ⟨_, owCommand_ready .wbyte (some b) h hp, ?_⟩, fun ht => ⟨_, owCommand_ready .rbyte none h hp, ?_⟩⟩
  · rw [ticks_owIssue_wbyte b ht, writeByte_eq]
    exact ⟨rfl, rfl, rfl⟩
  · obtain ⟨r, last, hrun, -⟩ := readByte_eq s
    rw [ticks_owIssue_rbyte ht, hrun]
    exact ⟨rfl, rfl, rfl, afterByte_answered _ _ _ _ (busy_eq_false.1 h.idle).1 rfl⟩

end Sys2Proof.Machine
end

section
/-! SUPPORT. Refusals (60_exceptions.md R104): a run of an engine ends in none, and whether a command is refused is the
same in every ready state of a configuration. -/

namespace Sys2Proof.Machine

/-! ### No run of an engine ends in a refusal -/

/-- The response, if there is one, is not `REFUSED` (R40). -/
def State.Unrefused (s : State) : Prop := ∀ r, s.response ≠ some (.refused r)

theorem unrefused_respond (v : Byte) (s : State) : (respond v s).Unrefused := nofun

theorem SpiPosition.keeps_unrefused {s t : State} (p : SpiPosition s t) (h : s.Unrefused) : t.Unrefused := by
  cases p with
  | next a => exact fun r => a.response ▸ h r
  | last v a => exact unrefused_respond v _

theorem OwPosition.keeps_unrefused {op : OwOp} {s t : State} (p : OwPosition op s t) (h : s.Unrefused) :
    t.Unrefused := by
  cases p with
  | waits a => exact fun r => a.response ▸ h r
  | next a => exact fun r => a.response ▸ h r
  | last v a => exact unrefused_respond v _

theorem tick_keeps_unrefused {s : State} (h : s.Unrefused) : (tick s).Unrefused := by
  cases hi : s.inflight with
  | none =>
    rw [tick_of_none hi]
    exact h
  | some e =>
    cases e with
    | spi op =>
      rw [tick_spi hi]
      by_cases hp : s.spi.phase = .idle
      · simpa only [spiTick, hp] using h
      · exact (spiPosition_spiTick op hp).keeps_unrefused h
    | ow op => exact (tick_owPosition hi).keeps_unrefused h

theorem ticks_keep_unrefused (n : Nat) {s : State} (h : s.Unrefused) : (ticks n s).Unrefused := by
  induction n generalizing s with
  | zero => exact h
  | succ n ih => exact ih (tick_keeps_unrefused h)

theorem unrefused_spiRun (n : Nat) (op : SpiOp) (b : Byte) (s : State) : (ticks n (spiIssue op b s)).Unrefused :=
  ticks_keep_unrefused n nofun

theorem unrefused_owRun (n : Nat) (op : OwOp) (operand : Option Byte) (s : State) :
    (ticks n (owIssue op operand s)).Unrefused :=
  ticks_keep_unrefused n nofun

/-- A command whose response is a refusal did nothing else (R104). -/
theorem CommandResult.eq_refuse {s t : State} {r : RefuseReason} (c : CommandResult s t)
    (h : t.response = some (.refused r)) : t = refuse r s := by
  cases c with
  | refused r' =>
    cases h
    rfl
  | answered v => exact absurd h (unrefused_respond v _ r)
  | spi op b => exact absurd h (unrefused_spiRun _ op b s r)
  | ow op operand => exact absurd h (unrefused_owRun _ op operand s r)

/-! ### Refused in every ready state of a configuration, or in none -/

/-- In a configuration the command is refused for one reason in every ready state, or it is refused in none (R104). -/
def RefusedAlike (i : Instr) (c : Cfg) : Prop :=
  (∃ r, ∀ s : State, s.Ready → s.cfg = c → exec i s = .next (refuse r s)) ∨
  ∀ s : State, s.Ready → s.cfg = c → ∃ t, exec i s = .next t ∧ t.Unrefused

theorem refusedAlike_pin {i : Instr} {slot : Nat} {need : Cap} (hi : IsPin i slot need) (c : Cfg) :
    RefusedAlike i c := by
  obtain ⟨act, he, hok⟩ := exec_isPin hi
  cases hc : checkPin c slot need with
  | error r => exact .inl ⟨r, fun s h hs => (he s).trans (pinCommand_of_error h (hs ▸ hc))⟩
  | ok e =>
    refine .inr fun s h hs => ⟨_, (he s).trans (pinCommand_of_ok h (hs ▸ hc)), fun r hr => ?_⟩
    obtain ⟨v, hv⟩ := hok e s
    cases hv.symm.trans hr

theorem refusedAlike_bits {i : Instr} (hi : IsBits i) (c : Cfg) : RefusedAlike i c := by
  obtain ⟨v, he⟩ := exec_isBits hi
  exact .inr fun s h _ => ⟨_, (he s).trans (accept_ready h _), unrefused_respond v s⟩

theorem refusedAlike_spi {i : Instr} (hi : IsSpi i) (c : Cfg) : RefusedAlike i c := by
  obtain ⟨op, b, he⟩ := exec_isSpi hi
  cases hp : c.spiPresent with
  | false => exact .inl ⟨.noEngine, fun s h hs => (he s).trans (spiCommand_absent op b h (hs ▸ hp))⟩
  | true => exact .inr fun s h hs => ⟨_, (he s).trans (spiCommand_ready op b h (hs ▸ hp)), unrefused_spiRun _ op b s⟩

theorem refusedAlike_ow {i : Instr} {d : Nat} (hi : IsOw i d) (c : Cfg) : RefusedAlike i c := by
  obtain ⟨op, operand, he⟩ := exec_isOw hi
  cases hp : c.owPresent with
  | false => exact .inl ⟨.noEngine, fun s h hs => (he s).trans (owCommand_absent op operand h (hs ▸ hp))⟩
  | true =>
    exact .inr fun s h hs =>
      ⟨_, (he s).trans (owCommand_ready op operand h (hs ▸ hp)), unrefused_owRun _ op operand s⟩

/-- Every command of a configuration, family by family (R104). -/
theorem refusedAlike (i : Instr) (c : Cfg) : RefusedAlike i c := by
  cases i with
  | pinHigh slot => exact refusedAlike_pin (.high slot) c
  | pinLow slot => exact refusedAlike_pin (.low slot) c
  | pinWrite slot l => exact refusedAlike_pin (.write slot l) c
  | pinRead slot => exact refusedAlike_pin (.read slot) c
  | bitsDmsb b => exact refusedAlike_bits (.dmsb b) c
  | bitsDlsb b => exact refusedAlike_bits (.dlsb b) c
  | bitsRmsb v => exact refusedAlike_bits (.rmsb v) c
  | bitsRlsb v => exact refusedAlike_bits (.rlsb v) c
  | spiXfer b => exact refusedAlike_spi (.xfer b) c
  | spiWrite b => exact refusedAlike_spi (.write b) c
  | owReset => exact refusedAlike_ow .reset c
  | owWbit l => exact refusedAlike_ow (.wbit l) c
  | owRbit => exact refusedAlike_ow .rbit c
  | owWbyte b => exact refusedAlike_ow (.wbyte b) c
  | owRbyte => exact refusedAlike_ow .rbyte c
  | owSearch a b => exact .inl ⟨.unimplemented, fun s h _ => accept_ready h _⟩

/-- A refusal in one ready state is a refusal, for the same reason, in every other of the same configuration (R104). -/
theorem refused_of_refused {i : Instr} {s t : State} {r : RefuseReason} (hs : s.Ready) (ht : t.Ready)
    (hc : s.cfg = t.cfg) (h : exec i s = .next (refuse r s)) : exec i t = .next (refuse r t) := by
  rcases refusedAlike i t.cfg with ⟨q, hq⟩ | hn
  · have hr : refuse q s = refuse r s := Host.Outcome.next.inj ((hq s hs hc).symm.trans h)
    obtain rfl : q = r := Response.refused.inj (Option.some.inj (congrArg State.response hr))
    exact hq t ht rfl
  · obtain ⟨u, hu, hn⟩ := hn s hs hc
    cases h.symm.trans hu
    exact absurd rfl (hn r)

end Sys2Proof.Machine
end

section
/-! SUPPORT. The delays of a 1-Wire command one by one, and its hang in the first call of the timing source that does not
return (43_onewire.md R96, 60_exceptions.md R110, R118). -/

namespace Sys2Proof.Machine

/-! ### The delays of one position -/

/-- `t` is `s` after `k` calls of the timing source, each with its `Delay` (R110). -/
structure Delayed (k : Nat) (s t : State) : Prop where
  timing : t.timing = Timing.call^[k] s.timing
  events : ∃ evs : List Event, t.hist = s.hist ++ evs ∧ (evs.filter Event.isDelay).length = k

/-- The calls of the timing source that a position makes. -/
def OwAction.delays : OwAction → Nat
  | .pull => 0
  | .release => 0
  | .hold _ => 1
  | .sample => 0

theorem filter_isDelay_driveEvents (e : PinExpr) (l : Level) : (driveEvents e l).filter Event.isDelay = [] := by
  unfold driveEvents
  cases e.port? <;> rfl

theorem filter_isDelay_sampleEvents (e : PinExpr) (l : Level) : (sampleEvents e l).filter Event.isDelay = [] := by
  unfold sampleEvents
  cases e.port? <;> rfl

theorem delayed_drive (e : PinExpr) (l : Level) (s : State) : Delayed 0 s (drive e l s) :=
  ⟨drive_timing e l s, _, drive_hist e l s, congrArg _ (filter_isDelay_driveEvents e l)⟩

theorem delayed_owPerform (op : OwOp) (a : OwAction) (s : State) : Delayed a.delays s (owPerform op a s) := by
  cases a with
  | pull => exact delayed_drive _ .low s
  | release => exact delayed_drive _ .high s
  | hold c => exact ⟨rfl, _, rfl, rfl⟩
  | sample =>
    exact ⟨sample_timing (s.cfg.slot s.cfg.owLine) s, _, sample_hist (s.cfg.slot s.cfg.owLine) s,
      congrArg _ (filter_isDelay_sampleEvents _ _)⟩

/-- A bit-level sequence is a low pulse, and unless it writes a bit, a wait and a sample after it (R90, R92, R93). -/
theorem owSequence_shape (op : OwOp) (c : Cfg) (x : OwState) :
    (∃ k, owSequence op c x = [.pull, .hold k, .release]) ∨
    ∃ k m, owSequence op c x = [.pull, .hold k, .release, .hold m, .sample] := by
  cases op with
  | reset => exact .inr ⟨_, _, rfl⟩
  | wbit => exact .inl ⟨_, rfl⟩
  | rbit => exact .inr ⟨_, _, rfl⟩
  | wbyte => exact .inl ⟨_, rfl⟩
  | rbyte => exact .inr ⟨_, _, rfl⟩

/-- A bit-level sequence waits at its odd positions, and nowhere else (R90, R92, R93). -/
theorem delays_of_owSequence {op : OwOp} {c : Cfg} {x : OwState} {q : Nat} {a : OwAction}
    (h : (owSequence op c x)[q]? = some a) : a.delays = q % 2 := by
  rcases owSequence_shape op c x with ⟨k, hs⟩ | ⟨k, m, hs⟩
  · rw [hs] at h
    rcases q with _ | _ | _ | q <;> cases h <;> rfl
  · rw [hs] at h
    rcases q with _ | _ | _ | _ | _ | q <;> cases h <;> rfl

theorem delayed_owAdvance (op : OwOp) (len : Nat) (s : State) : Delayed 0 s (owAdvance op len s) := by
  obtain ⟨timing, hist⟩ : (owAdvance op len s).timing = s.timing ∧ (owAdvance op len s).hist = s.hist := by
    unfold owAdvance
    split
    · exact ⟨rfl, rfl⟩
    · split
      · split <;> exact ⟨rfl, rfl⟩
      · exact ⟨rfl, rfl⟩
  exact ⟨timing, [], by simp [hist], rfl⟩

theorem Delayed.trans {j k : Nat} {s t u : State} (h : Delayed j s t) (h' : Delayed k t u) : Delayed (j + k) s u := by
  obtain ⟨evs, hh, hj⟩ := h.events
  obtain ⟨fvs, hh', hk⟩ := h'.events
  refine ⟨?_, evs ++ fvs, by rw [hh', hh, List.append_assoc], by rw [List.filter_append, List.length_append, hj, hk]⟩
  rw [h'.timing, h.timing, Nat.add_comm, Function.iterate_add_apply]

/-- A position that is not blocked makes the delays of its place in the sequence (R96, R110). -/
theorem delayed_owTick {op : OwOp} {s : State} (h : OwAt op s.ow) (ht : s.timing ≠ .hung) :
    Delayed (s.ow.seq % 2) s (owTick op s) := by
  have hlt : s.ow.seq < (owSequence op s.cfg s.ow).length := by
    rw [owSequence_length]
    exact ((owAt_iff op s.ow).1 h).2.1
  have ha := List.getElem?_eq_getElem hlt
  rw [← delays_of_owSequence ha]
  simp only [owTick, blocked_eq_false ht, ha, Bool.false_eq_true, if_false]
  have hp := delayed_owPerform op (owSequence op s.cfg s.ow)[s.ow.seq] s
  split
  · exact hp
  · exact hp.trans (delayed_owAdvance op _ _)

/-! ### The delays a command still has to make -/

/-- The delays among the last `r` positions of a command: every second one of a bit-level sequence, whole or begun (R90,
R92, R93). -/
def owDelaysIn (op : OwOp) (r : Nat) : Nat := r / owSlotLength op * (owSlotLength op / 2) + r % owSlotLength op / 2

theorem owDelaysIn_one (op : OwOp) : owDelaysIn op 1 = 0 := by cases op <;> rfl

/-- A position makes the delays by which those still to come grow fewer. -/
theorem owDelaysIn_owRemaining {op : OwOp} {x : OwState} {r : Nat} (h : OwAt op x) (hr : r + 1 = owRemaining op x) :
    owDelaysIn op (owRemaining op x) = owDelaysIn op r + x.seq % 2 := by
  obtain ⟨-, hq, -⟩ := (owAt_iff op x).1 h
  have hlen : owSlotLength op = 3 ∨ owSlotLength op = 5 := by cases op <;> decide
  rw [← hr]
  unfold owRemaining at hr
  unfold owDelaysIn
  generalize x.seq = q at hq hr ⊢
  rcases hlen with hlen | hlen <;> rw [hlen] at hq hr ⊢ <;> interval_cases q <;> omega

/-! ### The hang -/

/-- `t` waits in the `n`-th call of the timing source after `s`, which does not return (R118). -/
structure HungIn (op : OwOp) (n : Nat) (s t : State) : Prop where
  within : OwAt op t.ow
  response : t.response = none
  timing : t.timing = .hung
  delayed : Delayed n s t

theorem HungIn.busy {op : OwOp} {n : Nat} {s t : State} (h : HungIn op n s t) : t.busy = true := by
  simp [State.busy, owAt_ne_idle h.within]

theorem HungIn.blocked {op : OwOp} {n : Nat} {s t : State} (h : HungIn op n s t) : t.blocked = true := by
  simp [State.blocked, owAt_ne_idle h.within, h.timing]

/-- Calls return as long as there are calls that do (R118). -/
theorem Timing.iterate_call_hangsAfter (k n : Nat) :
    Timing.call^[k] (.hangsAfter n) = if k ≤ n then .hangsAfter (n - k) else .hung := by
  induction k generalizing n with
  | zero => rfl
  | succ k ih =>
    rw [Function.iterate_succ_apply]
    cases n with
    | zero => exact Function.iterate_fixed rfl k
    | succ n => simpa only [Timing.call, Nat.add_le_add_iff_right, Nat.add_sub_add_right] using ih n

/-- A blocked command stays where it is (R118). -/
theorem ticks_of_blocked (n : Nat) {op : OwOp} {s : State} (hi : s.inflight = some (.ow op)) (hb : s.blocked = true) :
    ticks n s = s := by
  induction n with
  | zero => rfl
  | succ n ih => rw [ticks, tick_ow hi, owTick, if_pos hb, ih]

/-- A command that still has to make more delays than the timing source returns from hangs. -/
theorem ticks_hung (r : Nat) {op : OwOp} {n : Nat} {s : State} (hi : s.inflight = some (.ow op)) (h : OwAt op s.ow)
    (hs : s.response = none) (ht : s.timing = .hangsAfter n) (hr : owRemaining op s.ow = r)
    (hn : n < owDelaysIn op r) : HungIn op (n + 1) s (ticks r s) := by
  induction r generalizing n s with
  | zero => simp [owDelaysIn] at hn
  | succ r ih =>
    have hd := owDelaysIn_owRemaining h hr.symm
    rw [hr] at hd
    have d := delayed_owTick h (by simp [ht])
    have hc := d.timing
    rw [ht, Timing.iterate_call_hangsAfter] at hc
    have p := owPosition_owTick op s
    rw [ticks, tick_ow hi]
    generalize owTick op s = t at d hc p ⊢
    cases p with
    | @waits u rx access hung =>
      have hh := hung h
      have hk : n + 1 = s.ow.seq % 2 := by
        by_contra hk
        rw [if_pos (by omega)] at hc
        cases hh.symm.trans hc
      have g : HungIn op (n + 1) s (u.setOw { s.ow with rx := rx }) :=
        ⟨by simpa only [State.setOw_ow, owAt_iff] using h, access.response.trans hs, hh, hk ▸ d⟩
      rwa [ticks_of_blocked r (s := u.setOw { s.ow with rx := rx }) (access.inflight.trans hi) g.blocked]
    | @next u x access returned _ within =>
      obtain ⟨h', hr'⟩ := within h
      split at hc
      next hk =>
        have g := ih (s := u.setOw x) (access.inflight.trans hi) h' (access.response.trans hs) hc
          (Nat.succ.inj (hr'.trans hr)) (by omega)
        have hn' : s.ow.seq % 2 + (n - s.ow.seq % 2 + 1) = n + 1 := by omega
        exact ⟨g.within, g.response, g.timing, hn' ▸ d.trans g.delayed⟩
      next => exact absurd hc returned
    | last v access returned _ _ _ ended =>
      obtain rfl : r = 0 := by
        have := ended h
        omega
      rw [owDelaysIn_one] at hn
      omega

/-- The run of a 1-Wire command hangs in the first call that does not return, if it makes that many (R118 (c)). -/
theorem owIssue_hung {op : OwOp} {n : Nat} (operand : Option Byte) {s : State} (ht : s.timing = .hangsAfter n)
    (hn : n < owDelaysIn op (owLength op)) : HungIn op (n + 1) s (ticks (owLength op) (owIssue op operand s)) := by
  have h := ticks_hung (owLength op) (s := owIssue op operand s) rfl (owAt_issue op operand s) rfl ht
    (remaining_owIssue op operand s) hn
  exact ⟨h.within, h.response, h.timing, h.delayed.timing, h.delayed.events⟩

/-- A 1-Wire command that makes more delays than the timing source returns from answers nothing, and every step after it
is the stuck fault (R118 (c)). -/
theorem owCommand_hung (op : OwOp) (operand : Option Byte) {n : Nat} {s : State} (h : s.Ready)
    (hp : s.cfg.owPresent = true) (ht : s.timing = .hangsAfter n) (hn : n < owDelaysIn op (owLength op)) :
    ∃ t evs, owCommand op operand s = .next t ∧ t.hist = s.hist ++ evs ∧ (evs.filter Event.isDelay).length = n + 1 ∧
      t.response = none ∧ t.busy = true ∧ step t = .fault .timingSourceHung := by
  have hung := owIssue_hung operand ht hn
  have hc := ((extends_owIssue op operand s).trans (extends_ticks (owLength op) _)).cfg
  obtain ⟨evs, hh, hd⟩ := hung.delayed.events
  exact ⟨_, evs, owCommand_ready op operand h hp, hh, hd, hung.response, hung.busy,
    (step_busy (hc ▸ h.wellFormed) hung.busy).trans (if_pos hung.blocked)⟩

end Sys2Proof.Machine
end

section
/-! CERTIFICATES. The obligations on refusals and on a timing source that hangs. -/

namespace Sys2Proof.Machine

/-- Settles O46: each command's run has its delays, and hangs in the first one that does not return. -/
theorem hungTimingSourceHangsTheBlock : Obligations.HungTimingSourceHangsTheBlock := by
  intro i d n s hi h hp ht hn
  cases hi with
  | reset => exact owCommand_hung .reset none h hp ht hn
  | wbit l => exact owCommand_hung .wbit (some (byteOfLevel l)) h hp ht hn
  | rbit => exact owCommand_hung .rbit none h hp ht hn
  | wbyte b => exact owCommand_hung .wbyte (some b) h hp ht hn
  | rbyte => exact owCommand_hung .rbyte none h hp ht hn

/-- Settles O50, by the results a command can have. -/
theorem refusedCommandsChangeNothing : Obligations.RefusedCommandsChangeNothing := by
  intro i s t r he hr
  have h := ready_of_exec_next he
  obtain ⟨u, hu, c⟩ := exec_ready h i
  cases he.symm.trans hu
  obtain rfl := c.eq_refuse hr
  exact ⟨rfl, ⟨h.wellFormed, h.idle⟩, word_refused r⟩

/-- Settles O51: a configuration refuses a command in all ready states alike. -/
theorem refusalDependsOnCommandAndConfigAlone : Obligations.RefusalDependsOnCommandAndConfigAlone :=
  fun _ _ _ _ hs ht hc => ⟨refused_of_refused hs ht hc, refused_of_refused ht hs hc.symm⟩

end Sys2Proof.Machine
end

section
/-! CERTIFICATES. The obligation on a ready block with nothing to do. -/

namespace Sys2Proof.Machine

/-- Settles O8: with no word to take, the fetch waits (R115). -/
theorem readyBlockWaitsForACommand : Obligations.ReadyBlockWaitsForACommand :=
  fun _ h hc => step_of_no_word h hc

end Sys2Proof.Machine
end
